-- ==== Sys2Proof/Word.lean ====
section
/-! DEFINITION. The plainest data of the engine: bytes, GPIO vectors, selectors, the hold level and line vectors. -/

namespace Sys2Proof

/-- A byte, 8 bits (00_scope section 5). -/
abbrev Byte := BitVec 8

/-- A GPIO vector: the W-bit value with one bit per line (R82). W is a parameter of the machine (R8), so the
value is kept as the natural number it reads as; log entry 26. -/
abbrev GpioVector := Nat

/-- The chip-select selector (R21): target A, target B, or both deselected. No fourth value exists (R96 a). -/
inductive Selector where
  | selA
  | selB
  | selIdle
  deriving DecidableEq, Repr

/-- The state of the device-hold line (R24). -/
inductive HoldState where
  | asserted
  | released
  deriving DecidableEq, Repr

/-- A line vector `LV(s, k, d)` (R81): selector, clock level, data-out level. -/
structure LineVector where
  sel : Selector
  sck : Bool
  mosi : Bool
  deriving DecidableEq, Repr

end Sys2Proof
end

