-- ==== Sys2Proof/Config.lean ====
section
/-! DEFINITION. What an implementation fixes (the parameters of R8) and the free values of the model. -/

namespace Sys2Proof

/-- The implementation parameters of R8, plain data. A machine carries its own in `State.cfg`, which nothing writes,
so that a statement about every state is a statement about every value of them (log entry 2). -/
structure Config where
  /-- `W`, the width of a GPIO vector. -/
  w : Nat
  /-- `P_CSA`. -/
  pCsa : Nat
  /-- `P_CSB`. -/
  pCsb : Nat
  /-- `P_SCK`. -/
  pSck : Nat
  /-- `P_MOSI`. -/
  pMosi : Nat
  /-- `P_MISO`. -/
  pMiso : Nat
  /-- `P_HOLD`. -/
  pHold : Nat
  /-- `CS_ACTIVE_LEVEL`. -/
  csActive : Bool
  /-- `HOLD_ASSERTED_LEVEL`. -/
  holdLevel : Bool
  /-- `FLASH_SEL`. -/
  flashSel : Selector
  /-- `ID_SMALL`. -/
  idSmall : BitVec 16
  /-- `ID_LARGE`. -/
  idLarge : BitVec 16
  /-- `ERASE_POLL_BUDGET`. -/
  eraseBudget : Nat
  /-- `WRITE_POLL_BUDGET`. -/
  writeBudget : Nat
  /-- `IDLE_FILL`. -/
  idleFill : Byte
  /-- `BUF_CAP`. -/
  bufCap : Nat
  deriving DecidableEq, Repr

/-- The six line positions (R8). -/
def Config.positions (c : Config) : List Nat :=
  [c.pCsa, c.pCsb, c.pSck, c.pMosi, c.pMiso, c.pHold]

/-- The pin map and polarities the model admits: `W >= 6`, six distinct positions below `W` (R8), a flash selector
that addresses a target (R8), and the constraint of R84, without which a line vector could pack to zero (U13). -/
def Config.pinsAdmitted (c : Config) : Bool :=
  decide (6 ≤ c.w) && decide c.positions.Nodup && c.positions.all (fun p => decide (p < c.w))
    && decide (c.flashSel ≠ .selIdle) && (!c.csActive || c.holdLevel)

/-- The two device-ID constants are distinct (R8, R264, U14). -/
def Config.idsAdmitted (c : Config) : Bool :=
  decide (c.idSmall ≠ c.idLarge)

/-- Every constraint of R8, R84 and R264 on the parameters, the buffer's capacity among them. -/
def Config.wf (c : Config) : Bool :=
  c.pinsAdmitted && c.idsAdmitted && decide (4369 ≤ c.bufCap)

/-- `ID_SMALL` of the machine `State.reset` describes: OPEN in the spec (D12), so a value nothing constrains. -/
opaque Config.openIdSmall : BitVec 16

/-- The distance, less one, from `ID_SMALL` to `ID_LARGE` in that machine: OPEN in the spec (D12) but that the two
differ (R264), so every value gives two distinct constants and every pair of distinct constants is given. -/
opaque Config.openIdGap : Fin 65535

/-- `ERASE_POLL_BUDGET` of that machine: OPEN in the spec (D14). -/
opaque Config.openEraseBudget : Nat

/-- `WRITE_POLL_BUDGET` of that machine: OPEN in the spec (D14). -/
opaque Config.openWriteBudget : Nat

/-- The n-th sampled vector the environment gives once `Env.samples` is used up: any value (R10, D28, U4). -/
opaque Config.freeSample : Nat → GpioVector

/-- The reference parameter values of R8, with the four OPEN ones given. -/
def Config.reference (idSmall idLarge : BitVec 16) (eraseBudget writeBudget : Nat) : Config where
  w := 8
  pCsa := 0
  pCsb := 1
  pSck := 2
  pMosi := 3
  pMiso := 4
  pHold := 5
  csActive := false
  holdLevel := false
  flashSel := .selA
  idSmall := idSmall
  idLarge := idLarge
  eraseBudget := eraseBudget
  writeBudget := writeBudget
  idleFill := 0x00#8
  bufCap := 4369

/-- The parameters of the machine `State.reset` describes: the reference values, the OPEN ones free (log entry 2). -/
def Config.initial : Config :=
  Config.reference Config.openIdSmall
    (Config.openIdSmall + BitVec.ofNat 16 (Config.openIdGap.val + 1))
    Config.openEraseBudget Config.openWriteBudget

end Sys2Proof
end

