-- ==== Sys2Proof/Syntax.lean ====
section
/-! DEFINITION. The syntax: one constructor per row of spec/opcode_table.json. -/

namespace Sys2Proof

/-- A command the engine emits, or a unit of its encodings (R80, R88, R90); one constructor per row of the table. -/
inductive Instr where
  /-- `IDENTIFY`, format C1, 9F (R163). -/
  | identify
  /-- `ERASE_S0A`, format C4, 7C 00 00 00 (R164). -/
  | eraseS0a
  /-- `ERASE_S0B`, format C4, 7C 00 10 00 (R165). -/
  | eraseS0b
  /-- `ERASE_SN`, format C4, 7C 00 addr 00 (R166). The operand is the sector address byte of the encoding (R91);
  `sectorAddr` makes it from the device and the sector number. -/
  | eraseSn (addr : Byte)
  /-- `LOAD_BUF`, format C4D, 84 00 00 00 and 264 data bytes (R167). -/
  | loadBuf (data : List Byte)
  /-- `COMMIT`, format C3, 88 hi lo, for a Page Address (R168). -/
  | commit (page : Nat)
  /-- `READ_STATUS`, format C1, D7 (R169). -/
  | readStatus
  /-- `GPIO_VECTOR`, format V: a line vector with the hold and data-in fields of the packed form (R82, R83). -/
  | gpioVector (lv : LineVector) (hold : HoldState) (miso : Bool)
  /-- `SENTINEL`, format V: the zero vector that ends a stream (R85). -/
  | sentinel
  /-- `BYTE_FRAME`, format F16: the 16 vectors of a byte under a selector (R87, R120). -/
  | byteFrame (sel : Selector) (byte : Byte)
  deriving DecidableEq, Repr

end Sys2Proof
end

