-- ==== Sys2Proof/WellFormed.lean ====
section
/-! DEFINITION. Which terms of the syntax the spec encodes. -/

namespace Sys2Proof

/-- The sector address bytes that some device's `ERASE_SN` sends (R91): 1 to 7 on the smaller device, the even bytes
2 to 0x1E on the larger. -/
def isSectorAddr (a : Byte) : Bool :=
  decide (1 ≤ a.toNat ∧ a.toNat ≤ 7) || decide (2 ≤ a.toNat ∧ a.toNat ≤ 30 ∧ a.toNat % 2 = 0)

/-- A term the engine encodes: a sector address of some device (R91, R96 e), a record of 264 bytes (R60, R167), a
Page Address in [0, 1023] (R61, R168). The other rows have no operand that could be out of range. -/
def Instr.wf : Instr → Bool
  | .eraseSn a => isSectorAddr a
  | .loadBuf data => decide (data.length = 264)
  | .commit p => decide (p < 1024)
  | .identify => true
  | .eraseS0a => true
  | .eraseS0b => true
  | .readStatus => true
  | .gpioVector _ _ _ => true
  | .sentinel => true
  | .byteFrame _ _ => true

end Sys2Proof
end

