-- ==== Sys2Proof/Decode.lean ====
section
/-! DEFINITION. The encodings of 30_encoding.md: the GPIO vector, the byte frame, the address fields, and the decoder
and encoder of the opcode table's rows. The engine itself emits encodings and decodes none (R96): the decoder reads
the bytes of a command handed in at `State.port` (log entry 1). -/

namespace Sys2Proof

/-! ## Format V: the GPIO vector (R82, R83) -/

/-- One line of a GPIO vector: level `d` at bit position `p`. -/
def lineBit (p : Nat) (d : Bool) : Nat :=
  d.toNat <<< p

/-- The level of a chip-select line: `CS_ACTIVE_LEVEL` when its target is selected, else the opposite (R82). -/
def csLevel (c : Config) (selected : Bool) : Bool :=
  if selected then c.csActive else !c.csActive

/-- The level of the device-hold line (R82). -/
def holdBit (c : Config) (h : HoldState) : Bool :=
  if h = .asserted then c.holdLevel else !c.holdLevel

/-- `pack(LV(s, k, d), h)` (R83). The data-in bit and the unused bits are 0. -/
def pack (c : Config) (lv : LineVector) (h : HoldState) : GpioVector :=
  lineBit c.pCsa (csLevel c (decide (lv.sel = .selA)))
    ||| lineBit c.pCsb (csLevel c (decide (lv.sel = .selB)))
    ||| lineBit c.pSck lv.sck
    ||| lineBit c.pMosi lv.mosi
    ||| lineBit c.pHold (holdBit c h)

/-- The selector whose levels a vector carries, when it carries those of one. -/
def selectorOf (c : Config) (v : GpioVector) : Selector :=
  if v.testBit c.pCsa = c.csActive then .selA
  else if v.testBit c.pCsb = c.csActive then .selB
  else .selIdle

/-- The line vector whose levels a vector carries. -/
def lineVectorOf (c : Config) (v : GpioVector) : LineVector :=
  ⟨selectorOf c v, v.testBit c.pSck, v.testBit c.pMosi⟩

/-- A vector is the packed form, with hold asserted, of a line vector (R142, R147). -/
def isLineVector (c : Config) (v : GpioVector) : Bool :=
  pack c (lineVectorOf c v) .asserted == v

/-- The line vectors `lv_i` with `pack(lv_i, ASSERTED) = v_i` (R147), if every vector is the packed form of one. -/
def unpackAll (c : Config) (vs : List GpioVector) : Option (List LineVector) :=
  if vs.all (isLineVector c) then some (vs.map (lineVectorOf c)) else none

/-- The data-in bit of a sampled vector (R86). No other bit is read. -/
def dataIn (c : Config) (v : GpioVector) : Bool :=
  v.testBit c.pMiso

/-! ## Format F16: the byte frame (R87, R120) -/

/-- The bits of a byte, most significant first (R56). -/
def bitsMsbFirst (b : Byte) : List Bool :=
  [7, 6, 5, 4, 3, 2, 1, 0].map b.getLsbD

/-- The two vectors of one bit: data with the clock low, then with the clock raised (R120). -/
def bitVectors (s : Selector) (d : Bool) : List LineVector :=
  [⟨s, false, d⟩, ⟨s, true, d⟩]

/-- The spec's `encode(b, s)` (R120): the 16 line vectors of a byte under a selector. -/
def frame (s : Selector) (b : Byte) : List LineVector :=
  (bitsMsbFirst b).flatMap (bitVectors s)

/-- The frames of a byte sequence under one selector, one after another (R101). -/
def frames (s : Selector) (bytes : List Byte) : List LineVector :=
  bytes.flatMap (frame s)

/-- One received bit entering the accumulator: `((rx << 1) | m) & 0xFF` (R123). -/
def shiftIn (acc : Byte) (m : Bool) : Byte :=
  (acc <<< 1) ||| (if m then 1#8 else 0#8)

/-- The byte whose bits arrive in this order, first bit ending highest (R123). -/
def byteOfBits (ms : List Bool) : Byte :=
  ms.foldl shiftIn 0#8

/-! ## Address fields (R91, R93) -/

/-- `hi = (p >> 7) & 0x7` (R93). -/
def pageHi (p : Nat) : Byte :=
  BitVec.ofNat 8 ((p >>> 7) &&& 0x7)

/-- `lo = (p << 1) & 0xFE` (R93). -/
def pageLo (p : Nat) : Byte :=
  BitVec.ofNat 8 ((p <<< 1) &&& 0xFE)

/-- The Page Address two address bytes stand for: `p = (hi << 7) | (lo >> 1)` (R93). -/
def pageOf (hi lo : Byte) : Nat :=
  (hi.toNat <<< 7) ||| (lo.toNat >>> 1)

/-! ## The encoder (R88, R90) -/

/-- The pin map of the table's vector rows: the reference values (the rows' note "REFERENCE PIN MAP ONLY"; log
entry 17). Its identifiers and budgets are read by nothing. -/
def tableMap : Config :=
  Config.reference 0x1234#16 0x5678#16 0 0

/-- The byte of a GPIO vector under the table's pin map, its data-in bit included (row `GPIO_VECTOR`). -/
def vectorByte (lv : LineVector) (h : HoldState) (miso : Bool) : Byte :=
  BitVec.ofNat 8 (pack tableMap lv h ||| lineBit tableMap.pMiso miso)

/-- The bytes of an instruction, first byte sent first (R57, R88). A vector row is its vector; a byte frame is its 16
vectors as a stream stores them (R101). -/
def encode : Instr → List Byte
  | .identify => [0x9F#8]
  | .eraseS0a => [0x7C#8, 0x00#8, 0x00#8, 0x00#8]
  | .eraseS0b => [0x7C#8, 0x00#8, 0x10#8, 0x00#8]
  | .eraseSn a => [0x7C#8, 0x00#8, a, 0x00#8]
  | .loadBuf data => [0x84#8, 0x00#8, 0x00#8, 0x00#8] ++ data
  | .commit p => [0x88#8, pageHi p, pageLo p]
  | .readStatus => [0xD7#8]
  | .gpioVector lv h m => [vectorByte lv h m]
  | .sentinel => [0x00#8]
  | .byteFrame s b => (frame s b).map fun lv => vectorByte lv .asserted false

/-! ## The decoder -/

/-- Why a byte sequence is no instruction of the table. -/
inductive DecodeError where
  /-- No byte at all. -/
  | noBytes
  /-- The first byte is no opcode that a sequence of this length has (R89, R96 d). -/
  | opcode (b : Byte)
  /-- A vector with both chip selects at the active level, which is never produced (R26, R96 b). -/
  | bothSelected (b : Byte)
  /-- Erase address bytes that no erase command has (R65, R96 e). -/
  | sectorAddress (a1 a2 a3 : Byte)
  /-- Commit address bytes that no Page Address has (R93, R96 e). -/
  | pageAddress (hi lo : Byte)
  /-- A load-buffer command without the fixed address or without exactly 264 data bytes (R94, R88). -/
  | loadBuffer
  /-- Sixteen bytes that are not the vectors of one byte frame (R87), or a sequence of a length no row has. -/
  | notAFrame
  deriving DecidableEq, Repr

/-- One byte: an opcode of format C1, the sentinel, or a GPIO vector of the table's pin map. -/
def decodeByte (b : Byte) : Except DecodeError Instr :=
  if b = 0x9F#8 then .ok .identify
  else if b = 0xD7#8 then .ok .readStatus
  else if b = 0x00#8 then .ok .sentinel
  else if b &&& 0xC0#8 ≠ 0#8 then .error (.opcode b)
  else if b &&& 0x03#8 = 0#8 then .error (.bothSelected b)
  else .ok (.gpioVector ⟨selectorOf tableMap b.toNat, b.getLsbD 2, b.getLsbD 3⟩
    (if b.getLsbD 5 then .released else .asserted) (b.getLsbD 4))

/-- Format C3 after opcode 88 (R93): `hi[7:3]` and `lo[0]` are 0. -/
def decodeCommit (hi lo : Byte) : Except DecodeError Instr :=
  if hi &&& 0xF8#8 = 0#8 ∧ lo &&& 0x01#8 = 0#8 then .ok (.commit (pageOf hi lo))
  else .error (.pageAddress hi lo)

/-- Format C4 after opcode 7C (R65). The bytes 00 10 00 are both `ERASE_S0B` and sector 8 of the larger device (R95):
read here as `ERASE_S0B`; the two have one effect. -/
def decodeErase (a1 a2 a3 : Byte) : Except DecodeError Instr :=
  if a1 = 0#8 ∧ a3 = 0#8 then
    if a2 = 0x00#8 then .ok .eraseS0a
    else if a2 = 0x10#8 then .ok .eraseS0b
    else if isSectorAddr a2 then .ok (.eraseSn a2)
    else .error (.sectorAddress a1 a2 a3)
  else .error (.sectorAddress a1 a2 a3)

/-- The levels of the data-out line in the first vector of each pair. -/
def frameBits : List Byte → List Bool
  | v :: _ :: vs => v.getLsbD 3 :: frameBits vs
  | _ => []

/-- Sixteen vectors that are one byte frame under one selector (R87). -/
def decodeFrame (bs : List Byte) : Except DecodeError Instr :=
  let i : Instr := .byteFrame (selectorOf tableMap (bs.headD 0#8).toNat) (byteOfBits (frameBits bs))
  if encode i = bs then .ok i else .error .notAFrame

/-- The instruction a byte sequence is: the opcode alone fixes the length (R89). Total; every other sequence is
rejected by name. -/
def decode (bs : List Byte) : Except DecodeError Instr :=
  match bs with
  | [] => .error .noBytes
  | [b] => decodeByte b
  | [op, hi, lo] => if op = 0x88#8 then decodeCommit hi lo else .error (.opcode op)
  | [op, a1, a2, a3] => if op = 0x7C#8 then decodeErase a1 a2 a3 else .error (.opcode op)
  | op :: a1 :: a2 :: a3 :: data =>
    if op = 0x84#8 then
      if a1 = 0#8 ∧ a2 = 0#8 ∧ a3 = 0#8 ∧ data.length = 264 then .ok (.loadBuf data)
      else .error .loadBuffer
    else decodeFrame bs
  | op :: _ => .error (.opcode op)

/-! ## The table's words -/

/-- The `n` bytes of a number, most significant first: a row of the table is one word whose bit 31 (23, 7) is the
first bit sent (log entry 16). -/
def bytesMsbFirst : Nat → Nat → List Byte
  | 0, _ => []
  | n + 1, w => BitVec.ofNat 8 (w >>> (8 * n)) :: bytesMsbFirst n w

/-- The 16 vectors of the table's word for `BYTE_FRAME`: bit 15 is the data-out level of the first vector; the clock
is `j mod 2` (R87); the selector, which the word has no bits for, is the reference `FLASH_SEL` (log entry 13). -/
def frameWord (w : Nat) : List Byte :=
  (List.range 16).map fun j =>
    vectorByte ⟨tableMap.flashSel, decide (j % 2 = 1), w.testBit (15 - j)⟩ .asserted false

/-- The bytes of a row's word: its own bytes, with the 264 zero data bytes that a `LOAD_BUF` header leaves out. -/
def tableBytes (nbits w : Nat) : List Byte :=
  if nbits = 16 then frameWord w
  else
    let bs := bytesMsbFirst (nbits / 8) w
    if nbits = 32 ∧ bs.headD 0#8 = 0x84#8 then bs ++ List.replicate 264 0x00#8 else bs

/-- The instruction the decoder reads from a word numbered as spec/opcode_table.json numbers it. -/
def decodeTableWord (nbits w : Nat) : Option Instr :=
  (decode (tableBytes nbits w)).toOption

end Sys2Proof
end

