-- ==== Sys2Proof/Machine/State.lean ====
section
/-! DEFINITION. The engine's state as plain data, the reasons a step can stop, and the state after reset. -/

namespace Sys2Proof.Machine

/-! ## Values of the registers -/

/-- The device variant the identity selected (R32). -/
inductive Device where
  | none
  | small
  | large
  deriving DecidableEq, Repr

/-- The orchestrator state (R35, R190). -/
inductive RunState where
  | idle
  | identifying
  | erasing
  | programming
  | failed
  deriving DecidableEq, Repr

/-- The `result` register (R39). -/
inductive RunResult where
  | none
  | ok
  | fail
  deriving DecidableEq, Repr

/-- The `err` register (R39, R236). -/
inductive ErrKind where
  | none
  | transport
  | identity
  | pollTimeout
  | source
  | streamLength
  deriving DecidableEq, Repr

/-- The `errstep` register (R39). -/
inductive ErrStep where
  | none
  | identify
  | erase (j : Nat)
  | page (i : Nat)
  deriving DecidableEq, Repr

/-- The levels last driven on the output lines (R20 to R24). -/
structure Pins where
  sel : Selector
  sck : Bool
  mosi : Bool
  hold : HoldState
  deriving DecidableEq, Repr

/-- One event of the observation trace (R12). -/
inductive Event where
  | hold (h : HoldState)
  | select (s : Selector)
  | write (lvs : List LineVector)
  | sample (m : Bool)
  deriving DecidableEq, Repr

/-- The five calls of the GPIO Transport (R110). -/
inductive Call where
  | assertHold
  | releaseHold
  | select (s : Selector)
  | write (lvs : List LineVector)
  | readPins
  deriving DecidableEq, Repr

/-- A fault of the engine, raised inside an operation (R230), with the info of the rule that raises it. -/
inductive EngineFault where
  /-- `TransportFault(call)` (R231). -/
  | transport (c : Call)
  /-- `IdentityMismatch(ident)` (R232). -/
  | identity (ident : BitVec 32)
  /-- `PollTimeout(step)` (R233). -/
  | pollTimeout (step : ErrStep)
  /-- `SourceFault(step)` (R234). -/
  | source (step : ErrStep)
  /-- `StreamLengthError(off)` (R235). -/
  | streamLength (off : Nat)
  deriving DecidableEq, Repr

/-! ## The place in the orchestrator's pseudocode (the model's own, log entry 20) -/

/-- Which of the two polls (R225). -/
inductive PollKind where
  | erase
  | write
  deriving DecidableEq, Repr

/-- Where the engine stands between two operations of R193, R196, R205 and R220, or of a command handed in from outside
a run: each value names the operation that comes next. -/
inductive Phase where
  /-- No operation in progress: `ST_IDLE` or `ST_FAILED`. In `ST_IDLE` a command at the port is begun here. -/
  | rest
  /-- The command at the port, after its `assert_hold()` (R207; log entry 10). -/
  | portCommand
  /-- `select(SEL_IDLE)` after a command at the port that drives a target's selector last (R70, R270; log entry 36). -/
  | portDeselect
  /-- `release_hold()` at the end of a command handed in from outside a run (R207; log entry 10). -/
  | portRelease
  /-- `assert_hold()` of R193. -/
  | identifyHold
  /-- `IDENTIFY` of R193. -/
  | identifyCommand
  /-- `release_hold()` of R193. -/
  | identifyRelease
  /-- The classification of R193, R170. -/
  | classify
  /-- `assert_hold()` of R196. -/
  | eraseHold
  /-- The head of R196's loop: the next erase command, or the end of the erase. -/
  | eraseNext
  /-- `attempts <- 0` of R220. -/
  | pollStart (k : PollKind)
  /-- The head of R220's loop: the counter's test and one `READ_STATUS`. -/
  | pollAttempt (k : PollKind)
  /-- The ready test of R220 and what its caller does on success. -/
  | pollTest (k : PollKind)
  /-- `next()` and the fetch of R205, R204. -/
  | fetch
  /-- `assert_hold()` of R205. -/
  | pageHold
  /-- `write_page` of R205. -/
  | pageBurst
  /-- `release_hold()` of R205. -/
  | pageRelease
  deriving DecidableEq, Repr

/-! ## The environment, as plain data the step reads (log entry 3) -/

/-- What becomes of one transport call: the environment's choice (R116). -/
inductive CallOutcome where
  /-- The call completes with the effect its rule gives. -/
  | completes
  /-- The call faults and leaves the pins at any levels (R114, R241, U5, U6). -/
  | faults (after : Pins)
  /-- A reset comes before the call (R260: between two transport calls). -/
  | reset
  deriving DecidableEq, Repr

/-- What `next()` of the image source gives (R203). -/
inductive SourceItem where
  | record (bytes : List Byte)
  | readError
  /-- `End`. -/
  | finished
  deriving DecidableEq, Repr

/-- What the host does before a step (R192, R260). -/
inductive HostEvent where
  | quiet
  | start
  | reset
  deriving DecidableEq, Repr

/-- The four agents of R10, as what they do next. -/
structure Env where
  /-- The outcomes of the transport calls to come; past the end every call completes. -/
  calls : List CallOutcome
  /-- The sampled vectors to come; past the end, `Config.freeSample`. -/
  samples : List GpioVector
  /-- How many samples `Config.freeSample` has given. -/
  drawn : Nat
  /-- What the image source gives to the calls of `next()` still to come in the run; past the end, `End`. -/
  image : List SourceItem
  /-- The items the image source gives to each run still to come, one list a run, taken at its start (R263; log entry
  33); past the end, none. -/
  laterImages : List (List SourceItem)
  /-- What the host does before each step to come; past the end, nothing. -/
  host : List HostEvent
  deriving DecidableEq, Repr

/-! ## The stream buffer -/

/-- The contents of `buf` (R27, R51): pairs of an offset and a vector, offsets strictly rising. An offset that is not
listed holds no value (R44, U10; log entry 6). -/
abbrev Memory := List (Nat × GpioVector)

/-! ## The state -/

/-- Everything the spec gives the engine, and the model's own `phase`, `port` and `env`. -/
structure State where
  /-- The parameters of R8, fixed for the machine (log entry 2). -/
  cfg : Config
  /-- `sel`, `sck`, `mosi`, `hold` (R21 to R24). -/
  pins : Pins
  /-- `buf` (R27). -/
  buf : Memory
  /-- `blen` (R27). -/
  blen : Nat
  /-- `rx` (R30); `none` is the spec's "holds no value" (R44, R47). -/
  rx : Option Byte
  /-- `status` (R31); `none` is the spec's "holds no value" (R44, R47). -/
  status : Option Byte
  /-- `ident` (R32); `none` is the spec's "holds no value" (R44, R47). -/
  ident : Option (BitVec 32)
  /-- `dev` (R32). -/
  dev : Device
  /-- `rec` (R46); `none` is the spec's "holds no value" (R44, R47). -/
  record : Option (List Byte)
  /-- `attempts` (R34). -/
  attempts : Nat
  /-- `st` (R35). -/
  st : RunState
  /-- `estep` (R36). -/
  estep : Nat
  /-- `page` (R37). -/
  page : Nat
  /-- `result` (R39). -/
  result : RunResult
  /-- `err` (R39). -/
  err : ErrKind
  /-- `errstep` (R39). -/
  errstep : ErrStep
  /-- The observation trace `T` (R12). -/
  trace : List Event
  /-- The model's own: the place in the orchestrator's pseudocode (log entry 20). -/
  phase : Phase
  /-- The model's own: the bytes of a command handed to the command layer from outside a run. It waits while an
  operation is in progress (R9, R237; log entry 1). -/
  port : List Byte
  /-- The model's own: the environment (log entry 3). -/
  env : Env
  deriving DecidableEq, Repr

/-! ## The reasons a step stops -/

/-- The working registers that hold no value before their first write (R47). -/
inductive WorkReg where
  | rx
  | status
  | ident
  | record
  deriving DecidableEq, Repr

/-- The model's faults. The engine's own faults of R230 are not here: each is entered, in a next state (R240). -/
inductive Fault where
  /-- Raised by the phases `classify` (ident), `pollTest` (status) and `pageBurst` (record), when the register holds no
  value: "reading one unwritten faults" (D20; R47, U11). Safe: the spec's own fault, and no run the rules give reads
  one. -/
  | unwritten (r : WorkReg)
  /-- Raised by `transmit` when the buffer holds no stream of `blen` line vectors (R147: `n` greater than 0 and each
  `buf[i]` the packed form of a line vector; U10). Safe: the machine stops, and every transmit of the rules follows
  the assemble of its stream. -/
  | badStream
  /-- Raised by the phase `eraseNext` when `dev` is `DEV_NONE`, for which there is no erase list (R172; R166: it
  "never reaches it"). Safe: the machine stops, and identity gating rules the case out. -/
  | noDevice
  deriving DecidableEq, Repr

/-- The model's refusals. -/
inductive Refusal where
  /-- Raised by an arm of `exec` whose instruction has no meaning yet. Safe: the machine stops. -/
  | notModelled (mnemonic : String)
  /-- Raised by `step` for a pin map outside R8 and R84 (U13), and by a start with equal device identifiers (U14):
  the spec refuses these parameters. Safe. -/
  | parameters
  /-- Raised by the phase `fetch` for a record of 0 bytes or of more than 264, or a short record that another record
  follows (U8, R203): outside the launch premise. Safe. -/
  | badRecord
  /-- Raised by the phase `fetch` for a record when `page = 1024` (R209, U7). Safe. -/
  | tooManyRecords
  /-- Raised by `step` for port bytes that are no command of the table (R96). Safe. -/
  | undecodable (e : DecodeError)
  deriving DecidableEq, Repr

/-! ## Reset -/

/-- The state after a reset (R44, R260 to R262): the registers' values, an empty trace; the parameters and the
environment are not the engine's to reset. -/
def State.resetOf (cfg : Config) (env : Env) : State where
  cfg := cfg
  pins := ⟨.selIdle, false, false, .released⟩
  buf := []
  blen := 0
  rx := none
  status := none
  ident := none
  dev := .none
  record := none
  attempts := 0
  st := .idle
  estep := 0
  page := 0
  result := .none
  err := .none
  errstep := .none
  trace := []
  phase := .rest
  port := []
  env := env

/-- An environment that has nothing prepared: calls complete, samples are free, images are empty, the host is quiet. -/
def Env.empty : Env where
  calls := []
  samples := []
  drawn := 0
  image := []
  laterImages := []
  host := []

/-- The machine right after reset. -/
def State.reset : State :=
  State.resetOf Config.initial Env.empty

end Sys2Proof.Machine
end

