-- ==== Sys2Proof/Machine/Flags.lean ====
section
/-! DEFINITION. The two conditions later actions test (R40). No operation writes a flag as a side effect. -/

namespace Sys2Proof.Machine

/-- The ready flag `status[7]` of a Device Status Byte (R31, R97): 1 is ready. Bits 6 to 0 are not interpreted. -/
def readyFlag (status : Byte) : Bool :=
  status.getLsbD 7

/-- The failed condition, `st = ST_FAILED` (R40). -/
def State.hasFailed (s : State) : Bool :=
  decide (s.st = .failed)

/-- The number of an error kind (R236). -/
def ErrKind.code : ErrKind → Nat
  | .none => 0
  | .transport => 1
  | .identity => 2
  | .pollTimeout => 3
  | .source => 4
  | .streamLength => 5

/-- The error kind a fault is recorded as (R231 to R236). -/
def EngineFault.kind : EngineFault → ErrKind
  | .transport _ => .transport
  | .identity _ => .identity
  | .pollTimeout _ => .pollTimeout
  | .source _ => .source
  | .streamLength _ => .streamLength

end Sys2Proof.Machine
end

