-- ==== Sys2Proof/Machine/Ops.lean ====
section
/-! DEFINITION. The named operations over the state: the stream buffer, the working registers, the five transport
calls, fault entry, and how an operation ends a step. -/

namespace Sys2Proof.Machine

/-! ## The result of an operation -/

/-- What an operation of 40_spi_bit_engine.md to 44_poll.md answers. -/
inductive Res (α : Type) where
  /-- It completed, with a value and the state after it. -/
  | ok (a : α) (s : State)
  /-- It raised a fault of R230 in this state; fault entry has not been made. -/
  | raised (f : EngineFault) (s : State)
  /-- A reset came between two of its transport calls (R260); the state is already the one after reset. -/
  | reset (s : State)
  /-- The machine stops. -/
  | stop (f : Fault)

/-- The operations of a pseudocode, one after another: a raise, a reset or a stop ends the sequence. -/
def Res.bind {α β : Type} (r : Res α) (k : α → State → Res β) : Res β :=
  match r with
  | .ok a s => k a s
  | .raised f s => .raised f s
  | .reset s => .reset s
  | .stop f => .stop f

/-! ## The stream buffer (R27, R51) -/

/-- The canonical form: offsets strictly rising. -/
abbrev Memory.wf (m : Memory) : Prop :=
  m.Pairwise fun x y => x.1 < y.1

/-- The vector at one offset; `none` where nothing has been stored. -/
def Memory.read (m : Memory) (off : Nat) : Option GpioVector :=
  m.lookup off

/-- Every offset of a run holds a vector. -/
def Memory.covers : Memory → Nat → Nat → Bool
  | _, _, 0 => true
  | [], _, _ + 1 => false
  | (a, _) :: m, off, n + 1 =>
    if a < off then Memory.covers m off (n + 1)
    else a == off && Memory.covers m (off + 1) n

/-- The vectors of a run of offsets, in order, each read once (R293 b); `none` if one of them holds nothing. -/
def Memory.run (m : Memory) (off n : Nat) : Option (List GpioVector) :=
  if m.covers off n then
    some (((m.dropWhile fun x => decide (x.1 < off)).take n).map Prod.snd)
  else none

/-- The cells of a list of vectors laid down from an offset on. -/
def Memory.cells : Nat → List GpioVector → Memory
  | _, [] => []
  | off, v :: vs => (off, v) :: Memory.cells (off + 1) vs

/-- The stores of R293 a: a run of vectors from an offset on; every other offset keeps what it held. -/
def Memory.store (m : Memory) (off : Nat) (vs : List GpioVector) : Memory :=
  m.filter (fun x => decide (x.1 < off)) ++ Memory.cells off vs
    ++ m.filter (fun x => decide (off + vs.length ≤ x.1))

/-! ## The working registers (R47) -/

/-- Reads a register that may hold no value. Reading one that holds none is the fault the spec states: "fault in the
model (a read of an absent value)" (93_implementation_defined.md U11), "reading one unwritten faults"
(92_eei_decisions.md D20), "unreachable from the rules" (R47). -/
def readReg {α : Type} (r : WorkReg) (v : Option α) (s : State) : Res α :=
  match v with
  | some a => .ok a s
  | none => .stop (.unwritten r)

/-! ## The environment's draws -/

/-- The outcome of the next transport call, and the state with that outcome used up. Past the end of the list a call
completes (log entry 3). -/
def nextOutcome (s : State) : CallOutcome × State :=
  match s.env.calls with
  | [] => (.completes, s)
  | o :: os => (o, { s with env.calls := os })

/-- The vector the next `read_pins()` returns, and the environment with it used up: any value (R10, D28). -/
def nextSample (e : Env) : GpioVector × Env :=
  match e.samples with
  | [] => (Config.freeSample e.drawn, { e with drawn := e.drawn + 1 })
  | v :: vs => (v, { e with samples := vs })

/-! ## The five transport calls (R110 to R117) -/

/-- An event appended to the trace: `emit ev` (R12). -/
def State.emit (s : State) (ev : Event) : State :=
  { s with trace := s.trace ++ [ev] }

/-- A vector on the pins: CSA, CSB, SCK and MOSI follow the line vector and HOLD stays as it was (R117). -/
def State.drive (s : State) (lv : LineVector) : State :=
  { s with pins := { sel := lv.sel, sck := lv.sck, mosi := lv.mosi, hold := s.pins.hold } }

/-- The hold line at a level, the other lines as they were (R117). -/
def State.setHold (s : State) (h : HoldState) : State :=
  { s with pins.hold := h }

/-- The vectors of a `write` reaching the pins in order (R114): the last one stays. -/
def State.driveAll (s : State) (lvs : List LineVector) : State :=
  lvs.foldl State.drive s

/-- A reset from this state (R260): the registers of R44; parameters and environment stay. The image items not yet
fetched are dropped at the next start (`Env.atStart`). -/
def State.toReset (s : State) : State :=
  State.resetOf s.cfg s.env

/-- One transport call (R116): with its effect and its event when it completes, `TransportFault(call)` with the pins at
any levels and no event when it faults (R231, R241; log entry 8), abandoned when a reset comes first (R260). -/
def transportCall (c : Call) (effect : State → State) (s : State) : Res Unit :=
  match nextOutcome s with
  | (.completes, s') => .ok () (effect s')
  | (.faults p, s') => .raised (.transport c) { s' with pins := p }
  | (.reset, s') => .reset s'.toReset

/-- `assert_hold()` (R111). -/
def assertHold (s : State) : Res Unit :=
  transportCall .assertHold (fun s => (s.setHold .asserted).emit (.hold .asserted)) s

/-- `release_hold()` (R112). -/
def releaseHold (s : State) : Res Unit :=
  transportCall .releaseHold (fun s => (s.setHold .released).emit (.hold .released)) s

/-- `select(s)` (R113): one vector with the clock and data-out at 0. -/
def select (sel : Selector) (s : State) : Res Unit :=
  transportCall (.select sel) (fun s => (s.drive ⟨sel, false, false⟩).emit (.select sel)) s

/-- `write(lvs)` (R114): one call, one event. -/
def write (lvs : List LineVector) (s : State) : Res Unit :=
  transportCall (.write lvs) (fun s => (s.driveAll lvs).emit (.write lvs)) s

/-- `read_pins()` (R115): the data-in bit of the vector the environment returns (R86); no line changes. -/
def readPins (s : State) : Res Bool :=
  match nextOutcome s with
  | (.completes, s') =>
    let m := dataIn s'.cfg (nextSample s'.env).1
    .ok m (State.emit { s' with env := (nextSample s'.env).2 } (.sample m))
  | (.faults p, s') => .raised (.transport .readPins) { s' with pins := p }
  | (.reset, s') => .reset s'.toReset

/-! ## Fault entry (R240) -/

/-- The step a fault is recorded against, "by the state the run was in" (R240). A command run outside a run is in no
step (log entry 9). -/
def currentStep (s : State) : ErrStep :=
  match s.st with
  | .idle => .none
  | .identifying => .identify
  | .erasing => .erase s.estep
  | .programming => .page s.page
  | .failed => .none

/-- The registers fault entry writes (R240). No other register changes. -/
def recordFault (k : ErrKind) (s : State) : State :=
  { s with st := .failed, result := .fail, err := k, errstep := currentStep s, phase := .rest }

/-- Fault entry: `raise F(info)` anywhere in a run (R240, R244). The clean-up `release_hold()` is made for every fault
but a transport fault, if hold is asserted; its own fault is dropped and leaves hold unknown. A reset that comes before
the clean-up call resets the engine. -/
def faultEntry (f : EngineFault) (s : State) : State :=
  if f.kind ≠ .transport ∧ s.pins.hold = .asserted then
    match nextOutcome s with
    | (.completes, s') => recordFault f.kind ((s'.setHold .released).emit (.hold .released))
    | (.faults p, s') => recordFault f.kind (s'.setHold p.hold)
    | (.reset, s') => s'.toReset
  else recordFault f.kind s

/-- How an operation ends a step: a raise takes fault entry, and the step has a next state. There is no return from a
fault (R243): only `State.toReset` leaves `ST_FAILED`. -/
def finish {α : Type} (r : Res α) : Host.Outcome State Fault Refusal :=
  match r with
  | .ok _ s => .next s
  | .raised f s => .next (faultEntry f s)
  | .reset s => .next s
  | .stop f => .fault f

end Sys2Proof.Machine
end

