-- ==== Sys2Proof/Machine/Assembler.lean ====
section
/-! DEFINITION. The bulk transaction assembler (41_bulk_assembler.md) and the two transactions over it (R161, R173). -/

namespace Sys2Proof.Machine

/-- The vectors `assemble` stores for a byte sequence: each frame packed with hold asserted (R142), then the sentinel
(R85, R101). -/
def streamVectors (c : Config) (sel : Selector) (bytes : List Byte) : List GpioVector :=
  (frames sel bytes).map (fun lv => pack c lv .asserted) ++ [0]

/-- `assemble(bytes, off, s)` (R141): the check of R144, the frames and the sentinel in the buffer, the next free
offset. It makes no transport call. -/
def assemble (bytes : List Byte) (off : Nat) (sel : Selector) (s : State) : Res Nat :=
  if off % 16 = 0 ∧ off + 16 * bytes.length + 1 ≤ s.cfg.bufCap then
    .ok (off + 16 * bytes.length)
      { s with
        buf := s.buf.store off (streamVectors s.cfg sel bytes)
        blen := off + 16 * bytes.length }
  else .raised (.streamLength off) s

/-- `idle_pulse(off)` (R145): one `IDLE_FILL` byte under the idle selector. -/
def idlePulse (off : Nat) (s : State) : Res Nat :=
  assemble [s.cfg.idleFill] off .selIdle s

/-- The line vectors of the stream in the buffer: `lv_i` with `pack(lv_i, ASSERTED) = buf[i]` for `i < blen` (R147);
`none` when the buffer holds no such stream or `blen` is 0. -/
def bufferedStream (s : State) : Option (List LineVector) :=
  if s.blen = 0 then none
  else (s.buf.run 0 s.blen).bind (unpackAll s.cfg)

/-- `transmit(n)` with `n = blen` (R147): one `write` of the stream without its sentinel; the stream is then
discarded (R29). `buf` keeps the sent vectors and their sentinel; U10 has any value there after a transmit (DESIGN
CHOICE, log entry 32). With hold released, which R147 excludes and no step of a run or of a command at the port gives,
the effect is the same (DESIGN CHOICE, log entry 10). -/
def transmit (s : State) : Res Unit :=
  match bufferedStream s with
  | none => .stop .badStream
  | some lvs => (write lvs s).bind fun _ s => .ok () { s with blen := 0 }

/-- `write_txn(bytes)` (R161): the command and its idle pulse in one burst. -/
def writeTxn (bytes : List Byte) (s : State) : Res Unit :=
  (assemble bytes 0 s.cfg.flashSel s).bind fun off s =>
    (idlePulse off s).bind fun _ s => transmit s

/-- `assemble_page_burst(p, rec)` (R148), with its check of the final offset. -/
def assemblePageBurst (p : Nat) (record : List Byte) (s : State) : Res Nat :=
  (assemble ([0x84#8, 0x00#8, 0x00#8, 0x00#8] ++ record) 0 s.cfg.flashSel s).bind fun off s =>
    (idlePulse off s).bind fun off s =>
      (assemble [0x88#8, pageHi p, pageLo p] off s.cfg.flashSel s).bind fun off s =>
        (idlePulse off s).bind fun off s =>
          if off = 4368 then .ok off s else .raised (.streamLength off) s

/-- `write_page(p, rec)` (R173): the page burst in one `write`. -/
def writePage (p : Nat) (record : List Byte) (s : State) : Res Unit :=
  (assemblePageBurst p record s).bind fun _ s => transmit s

end Sys2Proof.Machine
end

