-- ==== Sys2Proof/Machine/Operands.lean ====
section
/-! DEFINITION. The operand forms: sector addresses, the identity, page records, the erase list. -/

namespace Sys2Proof.Machine

/-- The sector count of a device, "8 for the smaller device, 16 for the larger device" (R7, R171). -/
def sectorCount : Device → Option Nat
  | .none => Option.none
  | .small => some 8
  | .large => some 16

/-- The sector address byte of `ERASE_SN` (R91, R166): `N` for the smaller device, `(N << 1) & 0xFF` for the larger.
`DEV_NONE` never reaches it; the byte is then the unshifted number, and `eraseCount` keeps every use out. -/
def sectorAddr (d : Device) (n : Nat) : Byte :=
  match d with
  | .large => BitVec.ofNat 8 ((n <<< 1) &&& 0xFF)
  | .small => BitVec.ofNat 8 n
  | .none => BitVec.ofNat 8 n

/-- The number of commands of the erase list, `count + 1` (R36, R172). -/
def eraseCount (d : Device) : Option Nat :=
  (sectorCount d).map (· + 1)

/-- The command at position `j` of the erase list `erase_cmds(dev)` (R172). -/
def eraseCmd (d : Device) (j : Nat) : Instr :=
  if j = 0 then .eraseS0a
  else if j = 1 then .eraseS0b
  else .eraseSn (sectorAddr d (j - 1))

/-- The identity of the bytes read, first byte least significant (R58, R163). -/
def identOf : List Byte → BitVec 32
  | [] => 0#32
  | r :: rs => (identOf rs <<< 8) ||| r.zeroExtend 32

/-- The 16 bits of the identity that are compared, `ident & 0xFFFF` (R170). -/
def identLow (ident : BitVec 32) : BitVec 16 :=
  ident.extractLsb' 0 16

/-- The classification of the identity (R170); `DEV_NONE` is a mismatch. -/
def classifyIdent (c : Config) (ident : BitVec 32) : Device :=
  if identLow ident = c.idSmall then .small
  else if identLow ident = c.idLarge then .large
  else .none

/-- The page record of a record from the source, zero-padded to 264 bytes (R60, R204). -/
def padRecord (bytes : List Byte) : List Byte :=
  bytes ++ List.replicate (264 - bytes.length) 0x00#8

/-- The image of the run that starts next. -/
def Env.nextImage (e : Env) : List SourceItem :=
  e.laterImages.headD []

/-- The environment at a start: the source is ready to yield the first record of this run's image (R263), and what the
run before did not fetch is gone (R279). Log entry 33. -/
def Env.atStart (e : Env) : Env :=
  { e with image := e.nextImage, laterImages := e.laterImages.tail }

/-- A record the engine admits (R60, R203): 1 to 264 bytes, and 264 unless no other record of the run's image comes
next. -/
def recordAdmitted (bytes : List Byte) (rest : List SourceItem) : Bool :=
  decide (1 ≤ bytes.length) && decide (bytes.length ≤ 264)
    && (decide (bytes.length = 264) || match rest with
      | .record _ :: _ => false
      | _ => true)

/-- The budget of a poll (R225). -/
def pollBudget (c : Config) : PollKind → Nat
  | .erase => c.eraseBudget
  | .write => c.writeBudget

/-- The step a poll belongs to (R233). -/
def pollStep (s : State) : PollKind → ErrStep
  | .erase => .erase s.estep
  | .write => .page s.page

end Sys2Proof.Machine
end

