-- ==== Sys2Proof/Machine/Spi.lean ====
section
/-! DEFINITION. The decoder of the bit-level engine (R123 to R128). The encoder is `frame` in Decode.lean (R120). -/

namespace Sys2Proof.Machine

/-- The bit cycles of one byte (R123): sample with the clock low, shift in, then one write of the clock pulse. `acc` is
what `rx` holds on entry. When a call of a bit cycle faults, `rx` keeps the bits shifted in so far: R128 calls the byte
"lost" and says no more of the register (DEDUCED, log entry 31). -/
def decodeBits (sel : Selector) : Nat → Byte → State → Res Byte
  | 0, acc, s => .ok acc s
  | n + 1, acc, s =>
    (readPins s).bind fun m s =>
      (write [⟨sel, true, false⟩, ⟨sel, false, false⟩] { s with rx := some (shiftIn acc m) }).bind fun _ s =>
        decodeBits sel n (shiftIn acc m) s

/-- `decode_one(s)` (R123): `rx <- 0`, then eight bit cycles. -/
def decodeOne (sel : Selector) (s : State) : Res Byte :=
  decodeBits sel 8 0#8 { s with rx := some 0#8 }

/-- `n` bytes one after another, in arrival order (R124). -/
def decodeMany (sel : Selector) : Nat → State → Res (List Byte)
  | 0, s => .ok [] s
  | n + 1, s =>
    (decodeOne sel s).bind fun b s =>
      (decodeMany sel n s).bind fun bs s => .ok (b :: bs) s

/-- `decode_bytes(s, n)` (R124): the opening `select(s)`, the bytes, and the return of the selector to idle (R126). -/
def decodeBytes (sel : Selector) (n : Nat) (s : State) : Res (List Byte) :=
  (select sel s).bind fun _ s =>
    (decodeMany sel n s).bind fun bs s =>
      (select .selIdle s).bind fun _ s => .ok bs s

end Sys2Proof.Machine
end

