-- ==== Sys2Proof/Machine/Commands.lean ====
section
/-! DEFINITION. The meanings of the seven flash commands (R163 to R169). -/

namespace Sys2Proof.Machine

/-- `read_txn(bytes, n)` (R162): the command with no idle pulse, then the read-back under the same selection. -/
def readTxn (bytes : List Byte) (n : Nat) (s : State) : Res (List Byte) :=
  (assemble bytes 0 s.cfg.flashSel s).bind fun _ s =>
    (transmit s).bind fun _ s => decodeBytes s.cfg.flashSel n s

/-- `IDENTIFY` (R163): writes `ident`. Any four bytes are accepted here; R170 classifies them later. -/
def execIdentify (s : State) : Host.Outcome State Fault Refusal :=
  finish ((readTxn [0x9F#8] 4 s).bind fun r s => .ok () { s with ident := some (identOf r) })

/-- `ERASE_S0A` (R164). -/
def execEraseS0a (s : State) : Host.Outcome State Fault Refusal :=
  finish (writeTxn [0x7C#8, 0x00#8, 0x00#8, 0x00#8] s)

/-- `ERASE_S0B` (R165), sent for both devices. -/
def execEraseS0b (s : State) : Host.Outcome State Fault Refusal :=
  finish (writeTxn [0x7C#8, 0x00#8, 0x10#8, 0x00#8] s)

/-- `ERASE_SN` (R166) of the sector whose address byte is given (R91). -/
def execEraseSn (addr : Byte) (s : State) : Host.Outcome State Fault Refusal :=
  finish (writeTxn [0x7C#8, 0x00#8, addr, 0x00#8] s)

/-- `LOAD_BUF` on its own (R167). -/
def execLoadBuf (data : List Byte) (s : State) : Host.Outcome State Fault Refusal :=
  finish (writeTxn ([0x84#8, 0x00#8, 0x00#8, 0x00#8] ++ data) s)

/-- `COMMIT` on its own (R168): exactly two address bytes. -/
def execCommit (page : Nat) (s : State) : Host.Outcome State Fault Refusal :=
  finish (writeTxn [0x88#8, pageHi page, pageLo page] s)

/-- `READ_STATUS` (R169): writes `status`, and with it the ready flag. The one byte of the answer is the first. -/
def execReadStatus (s : State) : Host.Outcome State Fault Refusal :=
  finish ((readTxn [0xD7#8] 1 s).bind fun r s => .ok () { s with status := r.head? })

end Sys2Proof.Machine
end

