-- ==== Sys2Proof/Machine/Vectors.lean ====
section
/-! DEFINITION. The meanings of the table's vector rows: one vector on the pins, the sentinel, one byte frame. -/

namespace Sys2Proof.Machine

/-- `GPIO_VECTOR`: one vector driven on the pins (R114). CSA, CSB, SCK and MOSI follow it; the hold field moves no line
(R117) and the data-in field means nothing in a driven vector (R83, D4). Log entry 11.
DESIGN CHOICE: the vector may select the target that is not `FLASH_SEL`, which the engine never addresses (R160, R249);
the spec has no command from outside that would (log entry 37). -/
def execGpioVector (lv : LineVector) (_hold : HoldState) (_miso : Bool) (s : State) :
    Host.Outcome State Fault Refusal :=
  finish (write [lv] s)

/-- `SENTINEL`: ends the stream in the buffer where it stands, `assemble([], blen, s)` (R85, R141: "L = 0 writes only
the sentinel"); never driven on the pins. Log entry 12. -/
def execSentinel (s : State) : Host.Outcome State Fault Refusal :=
  finish (assemble [] s.blen .selIdle s)

/-- `BYTE_FRAME`: the 16 vectors of a byte appended to the stream in the buffer (R120, R141); they reach the pins only
when the stream is transmitted. Log entry 13; the selector may be the target that is not `FLASH_SEL` (log entry 37). -/
def execByteFrame (sel : Selector) (byte : Byte) (s : State) : Host.Outcome State Fault Refusal :=
  finish (assemble [byte] s.blen sel s)

end Sys2Proof.Machine
end

