-- ==== Sys2Proof/Machine/Dispatch.lean ====
section
/-! DEFINITION. The dispatch: one arm per constructor of Instr. -/

namespace Sys2Proof.Machine

def exec (i : Instr) (s : State) : Host.Outcome State Fault Refusal :=
  match i with
  | .identify => Sys2Proof.Machine.execIdentify s
  | .eraseS0a => Sys2Proof.Machine.execEraseS0a s
  | .eraseS0b => Sys2Proof.Machine.execEraseS0b s
  | .eraseSn addr => Sys2Proof.Machine.execEraseSn addr s
  | .loadBuf data => Sys2Proof.Machine.execLoadBuf data s
  | .commit page => Sys2Proof.Machine.execCommit page s
  | .readStatus => Sys2Proof.Machine.execReadStatus s
  | .gpioVector lv hold miso => Sys2Proof.Machine.execGpioVector lv hold miso s
  | .sentinel => Sys2Proof.Machine.execSentinel s
  | .byteFrame sel byte => Sys2Proof.Machine.execByteFrame sel byte s

end Sys2Proof.Machine
end

