-- ==== Sys2Proof/Machine/Orchestrator.lean ====
section
/-! DEFINITION. The programming orchestrator (43_orchestrator.md) and the poll loop (44_poll.md), one operation of the
pseudocode a step. -/

namespace Sys2Proof.Machine

/-- A host start (R192). In `ST_IDLE` it begins a run; in any other state it has no effect (U9), and none while a
command handed in from outside is in progress (R9; log entry 18). The run has an image of its own (R263; log entry 33).
Equal device identifiers are refused (U14). -/
def start (s : State) : Host.Outcome State Fault Refusal :=
  if s.st = .idle ∧ s.phase = .rest then
    if s.cfg.idsAdmitted then
      .next
        { s with
          dev := .none
          estep := 0
          page := 0
          attempts := 0
          result := .none
          err := .none
          errstep := .none
          blen := 0
          st := .identifying
          phase := .identifyHold
          env := s.env.atStart }
    else .refused .parameters
  else .next s

/-- The classification of R193 and R170: `st` goes to `ST_ERASING` with `estep = 0`, or `IdentityMismatch`. -/
def classify (s : State) : Res Unit :=
  (readReg .ident s.ident s).bind fun ident s =>
    match classifyIdent s.cfg ident with
    | .none => .raised (.identity ident) { s with dev := .none }
    | .small => .ok () { s with dev := .small, st := .erasing, estep := 0, phase := .eraseHold }
    | .large => .ok () { s with dev := .large, st := .erasing, estep := 0, phase := .eraseHold }

/-- The head of R196's loop: the erase command at `estep`, or the end of the erase with hold released. -/
def eraseNext (s : State) : Host.Outcome State Fault Refusal :=
  match eraseCount s.dev with
  | none => .fault .noDevice
  | some n =>
    if s.estep < n then
      exec (eraseCmd s.dev s.estep) { s with phase := .pollStart .erase }
    else
      finish ((releaseHold s).bind fun _ s =>
        .ok () { s with st := .programming, page := 0, phase := .fetch })

/-- One turn of R220's loop: the counter's test before the attempt, then one `READ_STATUS`. A used-up budget is the
caller's `PollTimeout` (R196, R205). -/
def pollAttempt (k : PollKind) (s : State) : Host.Outcome State Fault Refusal :=
  if s.attempts = pollBudget s.cfg k then
    .next (faultEntry (.pollTimeout (pollStep s k)) s)
  else
    exec .readStatus { s with attempts := s.attempts + 1, phase := .pollTest k }

/-- Where a poll that succeeded leads (R196, R205). -/
def afterPoll (k : PollKind) (s : State) : State :=
  match k with
  | .erase => { s with estep := s.estep + 1, phase := .eraseNext }
  | .write => { s with phase := .pageRelease }

/-- The ready test of R220: bit 7 of the status byte, before the counter is tested again (R239). -/
def pollTest (k : PollKind) (s : State) : Res Unit :=
  (readReg .status s.status s).bind fun status s =>
    if readyFlag status then .ok () (afterPoll k s)
    else .ok () { s with phase := .pollAttempt k }

/-- The end of a run with success (R205, R212). -/
def endRun (s : State) : State :=
  { s with st := .idle, result := .ok, phase := .rest }

/-- `next()` and the fetch of R205 and R204, made with hold released: the end of the run, a source fault, or the padded
record. A record outside R203 or R209 is refused. -/
def fetch (s : State) : Host.Outcome State Fault Refusal :=
  match s.env.image with
  | [] => .next (endRun s)
  | .finished :: rest => .next (endRun { s with env.image := rest })
  | .readError :: rest => .next (faultEntry (.source (.page s.page)) { s with env.image := rest })
  | .record bytes :: rest =>
    if 1023 < s.page then .refused .tooManyRecords
    else if recordAdmitted bytes rest then
      .next { s with record := some (padRecord bytes), env.image := rest, phase := .pageHold }
    else .refused .badRecord

/-- At rest: nothing, or the `assert_hold()` that begins the command at the port, as it begins a step of R207. Bytes
that are no command are refused before a line moves. Log entries 1, 10 and 30. -/
def portOpen (s : State) : Host.Outcome State Fault Refusal :=
  if s.port = [] then .next s
  else
    match decode s.port with
    | .ok _ => finish ((assertHold s).bind fun _ s => .ok () { s with phase := .portCommand })
    | .error e => .refused (.undecodable e)

/-- What ends a command at the port. A vector of a target asserts its selector and leaves it so: it is deselected (R70,
R270; log entry 36). The seven commands return the selector to idle themselves, and the two rows of the buffer drive
nothing. The instruction decides; the selector register is not read (R21). -/
def portEnd (i : Instr) : Phase :=
  match i with
  | .gpioVector lv _ _ => if lv.sel = .selIdle then .portRelease else .portDeselect
  | .identify => .portRelease
  | .eraseS0a => .portRelease
  | .eraseS0b => .portRelease
  | .eraseSn _ => .portRelease
  | .loadBuf _ => .portRelease
  | .commit _ => .portRelease
  | .readStatus => .portRelease
  | .sentinel => .portRelease
  | .byteFrame _ _ => .portRelease

/-- The command at the port, run once with hold asserted (R160, R207). DESIGN CHOICE, the spec having no command outside
a run: it is run whatever `dev` holds, `ERASE_SN` with `DEV_NONE` and with either device's address byte too (R166; log
entry 34), and no poll follows an erase or a commit (R272; log entry 35). -/
def portCommand (s : State) : Host.Outcome State Fault Refusal :=
  match decode s.port with
  | .ok i => exec i { s with port := [], phase := portEnd i }
  | .error e => .refused (.undecodable e)

/-- One operation (R9): what the engine does in its phase. A command at the port is begun only at rest, so none comes
between two operations of a run. -/
def advance (s : State) : Host.Outcome State Fault Refusal :=
  match s.phase with
  | .rest => portOpen s
  | .portCommand => portCommand s
  | .portDeselect => finish ((select .selIdle s).bind fun _ s => .ok () { s with phase := .portRelease })
  | .portRelease => finish ((releaseHold s).bind fun _ s => .ok () { s with phase := .rest })
  | .identifyHold => finish ((assertHold s).bind fun _ s => .ok () { s with phase := .identifyCommand })
  | .identifyCommand => exec .identify { s with phase := .identifyRelease }
  | .identifyRelease => finish ((releaseHold s).bind fun _ s => .ok () { s with phase := .classify })
  | .classify => finish (classify s)
  | .eraseHold => finish ((assertHold s).bind fun _ s => .ok () { s with phase := .eraseNext })
  | .eraseNext => eraseNext s
  | .pollStart k => .next { s with attempts := 0, phase := .pollAttempt k }
  | .pollAttempt k => pollAttempt k s
  | .pollTest k => finish (pollTest k s)
  | .fetch => fetch s
  | .pageHold => finish ((assertHold s).bind fun _ s => .ok () { s with phase := .pageBurst })
  | .pageBurst =>
    finish ((readReg .record s.record s).bind fun record s =>
      (writePage s.page record s).bind fun _ s => .ok () { s with phase := .pollStart .write })
  | .pageRelease =>
    finish ((releaseHold s).bind fun _ s => .ok () { s with page := s.page + 1, phase := .fetch })

/-- The engine's own step, the host being quiet: nothing in `ST_FAILED` (R215, R243), else the next operation. -/
def engineStep (s : State) : Host.Outcome State Fault Refusal :=
  if s.st = .failed then .next s else advance s

/-- One step: the parameters the model refuses (U13), then what the host does, then the engine. -/
def stepBody (s : State) : Host.Outcome State Fault Refusal :=
  if s.cfg.pinsAdmitted then
    match s.env.host with
    | [] => engineStep s
    | .quiet :: rest => engineStep { s with env.host := rest }
    | .start :: rest => start { s with env.host := rest }
    | .reset :: rest => .next (State.toReset { s with env.host := rest })
  else .refused .parameters

end Sys2Proof.Machine
end

