-- ==== Sys2Proof/Machine/Step.lean ====
section
/-! DEFINITION. The step of the machine, and the placing of one instruction where the step takes its next one. -/

namespace Sys2Proof.Machine

/-- One step of the engine. -/
def step (s : State) : Host.Outcome State Fault Refusal :=
  stepBody s

/-- The state with a row's word at the port, at the place where the next step runs it: outside a run, hold asserted as
every command needs (R160), the host quiet. Log entries 1 and 24. -/
def State.withFetchWord (s : State) (nbits w : Nat) : State :=
  { s with
    port := tableBytes nbits w
    st := .idle
    phase := .portCommand
    pins.hold := .asserted
    env.host := [] }

end Sys2Proof.Machine
end

