-- ==== Sys2Proof/Safety.lean ====
section
/-! DEFINITION. The terms claims are stated in: calm environments, the bits to come, the launch premise, the pin trace,
and the invariants of a run. -/

namespace Sys2Proof.Machine

/-! ## The environment of a claim -/

/-- No transport call to come faults, and no reset comes between two calls. -/
abbrev State.calm (s : State) : Prop :=
  ∀ o ∈ s.env.calls, o = .completes

/-- No reset comes between two transport calls. Calls may fault. -/
abbrev State.unreset (s : State) : Prop :=
  .reset ∉ s.env.calls

/-- The environment with its next `n` samples used up. -/
def skipSamples : Nat → Env → Env
  | 0, e => e
  | n + 1, e => skipSamples n (nextSample e).2

/-- The next `n` sampled vectors, in order. -/
def upcomingSamples : Nat → Env → List GpioVector
  | 0, _ => []
  | n + 1, e => (nextSample e).1 :: upcomingSamples n (nextSample e).2

/-- The data-in bits of the next `n` samples, in order (R86). -/
def upcomingBits (n : Nat) (s : State) : List Bool :=
  (upcomingSamples n s.env).map (dataIn s.cfg)

/-- `n` bytes of a sequence of received bits, eight bits each, first bit highest (R123, R124). -/
def bytesOfBits : Nat → List Bool → List Byte
  | 0, _ => []
  | n + 1, ms => byteOfBits (ms.take 8) :: bytesOfBits n (ms.drop 8)

/-- The environment after `n` transport calls that completed and `k` samples. -/
def envAfter (n k : Nat) (s : State) : Env :=
  { skipSamples k s.env with calls := s.env.calls.drop n }

/-- The events of the bit cycles of received bits under a selector: a sample, then the clock pulse (R123). -/
def bitCycleEvents (sel : Selector) (ms : List Bool) : List Event :=
  ms.flatMap fun m => [.sample m, .write [⟨sel, true, false⟩, ⟨sel, false, false⟩]]

/-- The vectors of one idle pulse (R145). -/
def idleFrame (c : Config) : List LineVector :=
  frame .selIdle c.idleFill

/-! ## What claims about instructions and runs say -/

/-- The commands with no read-back. -/
def isWriteCommand : Instr → Bool
  | .eraseS0a => true
  | .eraseS0b => true
  | .eraseSn _ => true
  | .loadBuf _ => true
  | .commit _ => true
  | .identify => false
  | .readStatus => false
  | .gpioVector _ _ _ => false
  | .sentinel => false
  | .byteFrame _ _ => false

/-- What no instruction of the table changes, but for the fault entry of R240 (which leaves `st = ST_FAILED`): the
registers of the orchestrator, the device, the record, the port, the parameters, the images and the host's schedule. -/
abbrev controlKept (s t : State) : Prop :=
  t.cfg = s.cfg ∧ t.dev = s.dev ∧ t.record = s.record ∧ t.attempts = s.attempts ∧ t.estep = s.estep ∧ t.page = s.page
    ∧ t.port = s.port ∧ t.env.image = s.env.image ∧ t.env.laterImages = s.env.laterImages
    ∧ t.env.host = s.env.host
    ∧ ((t.st = s.st ∧ t.result = s.result ∧ t.err = s.err ∧ t.errstep = s.errstep ∧ t.phase = s.phase
        ∧ t.pins.hold = s.pins.hold)
      ∨ (t.st = .failed ∧ t.result = .fail ∧ t.err ≠ .none ∧ t.errstep = currentStep s ∧ t.phase = .rest))

/-- The host is quiet for the next step and the engine has not failed: the operation of its phase is next. -/
abbrev State.running (s : State) : Prop :=
  s.cfg.wf = true ∧ s.env.host = [] ∧ s.st ≠ .failed

/-- The number of transport calls of an instruction that completes (R110, R147): one write for each burst; with a
read-back of `n` bytes also two selects, and a sample and a clock pulse for each bit (R123, R124). -/
def callCount : Instr → Nat
  | .identify => 67
  | .eraseS0a => 1
  | .eraseS0b => 1
  | .eraseSn _ => 1
  | .loadBuf _ => 1
  | .commit _ => 1
  | .readStatus => 19
  | .gpioVector _ _ _ => 1
  | .sentinel => 0
  | .byteFrame _ _ => 0

/-- A source whose next item ends the image (R203). -/
def sourceAtEnd : List SourceItem → Bool
  | [] => true
  | .finished :: _ => true
  | .readError :: _ => false
  | .record _ :: _ => false

/-! ## Launch and end of a run -/

/-- An image that the launch premise admits (R264): records of 1 to 264 bytes, only the last shorter. DESIGN CHOICE: the
premise looks at the records up to `End` or up to a `ReadError`, at which the run ends (R234), since the spec does not say
what `next()` yields after a `ReadError` and no run asks (log entry 38). -/
def imageAdmitted : List SourceItem → Bool
  | [] => true
  | .finished :: _ => true
  | .readError :: _ => true
  | .record bytes :: rest => recordAdmitted bytes rest && imageAdmitted rest

/-- The number of records of an image that the launch premise counts: those up to `End` or up to a `ReadError` (DESIGN
CHOICE, log entry 38). -/
def recordCount : List SourceItem → Nat
  | [] => 0
  | .finished :: _ => 0
  | .readError :: _ => 0
  | .record _ :: rest => recordCount rest + 1

/-- The launch premise of a run (R264). -/
abbrev State.launchReady (s : State) : Prop :=
  s.st = .idle ∧ s.pins.sel = .selIdle ∧ s.pins.hold = .released
    ∧ (s.err = .none ∨ s.result = .ok) ∧ s.cfg.wf = true
    ∧ recordCount s.env.nextImage ≤ 1024 ∧ imageAdmitted s.env.nextImage = true

/-- The end of a run (R13): `ST_IDLE` with `RES_OK`, or `ST_FAILED`. -/
abbrev State.ended (s : State) : Prop :=
  (s.st = .idle ∧ s.result = .ok) ∨ s.st = .failed

/-! ## The pin trace (R12) -/

/-- An item of `pins(T)`. -/
inductive PinItem where
  | vector (lv : LineVector)
  | hold (h : HoldState)
  | sample (m : Bool)
  deriving DecidableEq, Repr

/-- What one event adds to the pin trace. -/
def Event.pinItems : Event → List PinItem
  | .hold h => [.hold h]
  | .select s => [.vector ⟨s, false, false⟩]
  | .write lvs => lvs.map .vector
  | .sample m => [.sample m]

/-- `pins(T)`: the trace flattened (R12). -/
def pinTrace (t : List Event) : List PinItem :=
  t.flatMap Event.pinItems

/-- The number of vectors in a pin trace, select vectors included (R285). -/
def vectorCount (t : List Event) : Nat :=
  (pinTrace t).countP fun x => match x with
    | .vector _ => true
    | _ => false

/-- The hold line along a trace, from a level; `none` as soon as a `select`, a `write` or a `read_pins` is made with
hold released (R207, R273). -/
def holdAlong : HoldState → List Event → Option HoldState
  | h, [] => some h
  | _, .hold h :: t => holdAlong h t
  | .asserted, .select _ :: t => holdAlong .asserted t
  | .asserted, .write _ :: t => holdAlong .asserted t
  | .asserted, .sample _ :: t => holdAlong .asserted t
  | .released, .select _ :: _ => none
  | .released, .write _ :: _ => none
  | .released, .sample _ :: _ => none

/-! ## Invariants -/

/-- The orchestrator state in which each phase stands. -/
def phaseFits : Phase → RunState → Bool
  | .rest, st => decide (st = .idle) || decide (st = .failed)
  | .portCommand, st => decide (st = .idle)
  | .portDeselect, st => decide (st = .idle)
  | .portRelease, st => decide (st = .idle)
  | .identifyHold, st => decide (st = .identifying)
  | .identifyCommand, st => decide (st = .identifying)
  | .identifyRelease, st => decide (st = .identifying)
  | .classify, st => decide (st = .identifying)
  | .eraseHold, st => decide (st = .erasing)
  | .eraseNext, st => decide (st = .erasing)
  | .pollStart .erase, st => decide (st = .erasing)
  | .pollAttempt .erase, st => decide (st = .erasing)
  | .pollTest .erase, st => decide (st = .erasing)
  | .pollStart .write, st => decide (st = .programming)
  | .pollAttempt .write, st => decide (st = .programming)
  | .pollTest .write, st => decide (st = .programming)
  | .fetch, st => decide (st = .programming)
  | .pageHold, st => decide (st = .programming)
  | .pageBurst, st => decide (st = .programming)
  | .pageRelease, st => decide (st = .programming)

/-- The hold line's state in each phase: asserted from the `assert_hold()` of a step of a run to its `release_hold()`
(R207), and likewise around a command handed in from outside a run (log entry 10). -/
def phaseHold : Phase → HoldState
  | .rest => .released
  | .portCommand => .asserted
  | .portDeselect => .asserted
  | .portRelease => .asserted
  | .identifyHold => .released
  | .identifyCommand => .asserted
  | .identifyRelease => .asserted
  | .classify => .released
  | .eraseHold => .released
  | .eraseNext => .asserted
  | .pollStart _ => .asserted
  | .pollAttempt _ => .asserted
  | .pollTest _ => .asserted
  | .fetch => .released
  | .pageHold => .released
  | .pageBurst => .asserted
  | .pageRelease => .asserted

/-- The working registers and counters that each phase relies on (R34, R36, R37, R47). -/
def phaseReady (s : State) : Bool :=
  match s.phase with
  | .rest => true
  | .portCommand => true
  | .portDeselect => true
  | .portRelease => true
  | .identifyHold => true
  | .identifyCommand => true
  | .identifyRelease => s.ident.isSome
  | .classify => s.ident.isSome
  | .eraseHold => true
  | .eraseNext => true
  | .pollStart .erase => (eraseCount s.dev).any (s.estep < ·)
  | .pollAttempt .erase =>
    (eraseCount s.dev).any (s.estep < ·) && decide (s.attempts ≤ s.cfg.eraseBudget)
  | .pollTest .erase =>
    (eraseCount s.dev).any (s.estep < ·) && decide (s.attempts ≤ s.cfg.eraseBudget) && s.status.isSome
  | .fetch => decide (s.page ≤ 1024)
  | .pageHold => s.record.isSome && decide (s.page ≤ 1023)
  | .pageBurst => s.record.isSome && decide (s.page ≤ 1023)
  | .pollStart .write => decide (s.page ≤ 1023)
  | .pollAttempt .write => decide (s.page ≤ 1023) && decide (s.attempts ≤ s.cfg.writeBudget)
  | .pollTest .write =>
    decide (s.page ≤ 1023) && decide (s.attempts ≤ s.cfg.writeBudget) && s.status.isSome
  | .pageRelease => decide (s.page ≤ 1023)

/-- The device and the erase position in each orchestrator state (R36, R170). -/
def deviceFits (s : State) : Bool :=
  match s.st with
  | .idle => true
  | .failed => true
  | .identifying => decide (s.dev = .none) && decide (s.estep = 0)
  | .erasing => (eraseCount s.dev).any (s.estep ≤ ·)
  | .programming => (eraseCount s.dev).any (s.estep = ·)

/-- The result registers in each orchestrator state (R39, R213): a fault is recorded exactly in `ST_FAILED`. -/
def resultFits (s : State) : Bool :=
  match s.st with
  | .failed => decide (s.result = .fail) && decide (s.err ≠ .none)
  | .idle => decide (s.result ≠ .fail) && decide (s.err = .none) && decide (s.errstep = .none)
  | _ => decide (s.result = .none) && decide (s.err = .none) && decide (s.errstep = .none)

/-- The buffer (R27, R59): canonical, inside its capacity, and the stream length a whole number of bytes. -/
abbrev State.bufferInv (s : State) : Prop :=
  s.buf.wf ∧ (∀ x ∈ s.buf, x.1 < s.cfg.bufCap) ∧ s.blen % 16 = 0 ∧ s.blen < s.cfg.bufCap

/-- The invariant of the engine: admitted parameters, the buffer, a record of 264 bytes (R60), and each register as the
phase and the orchestrator state have it; the hold line too (log entry 10 for a command at the port), but in
`ST_FAILED` (R241, R244). -/
abbrev State.engineInv (s : State) : Prop :=
  s.cfg.wf = true ∧ s.bufferInv ∧ (∀ r ∈ s.record, r.length = 264)
    ∧ phaseFits s.phase s.st = true ∧ phaseReady s = true ∧ deviceFits s = true ∧ resultFits s = true
    ∧ (s.st = .failed ∨ s.pins.hold = phaseHold s.phase)

/-- The invariant of the hold line: it follows its calls, and nothing is driven or sampled with hold released (R207,
R273), in a run and by a command at the port. -/
abbrev State.holdInv (s : State) : Prop :=
  s.engineInv ∧ ∃ h ∈ holdAlong .released s.trace, s.st = .failed ∨ s.pins.hold = h

/-- The invariant of the bus: the hold line's, and the selector is idle between two operations (R70, R270), but after
a vector of a target at the port, when the next operation deselects (log entry 36), and after a transport fault
(R241). -/
abbrev State.runInv (s : State) : Prop :=
  s.holdInv ∧ (s.phase = .portDeselect ∨ s.err = .transport ∨ s.pins.sel = .selIdle)

end Sys2Proof.Machine
end

