-- ==== Sys2Proof/Certificates/Slice0/Obligations.lean ====
section
/-! DEFINITION. The statements about the model. A statement about a free value (a sample past the end of
`Env.samples`, an OPEN parameter) holds for every value of it. -/

open Sys2Proof Sys2Proof.Machine

/-! ## Encodings -/

/-- Words written out from the table's encodings decode to the rows they stand for (opcode_table.json; R90, R83, R85,
R87). The word F33F is the data levels of the frame of D7 (rule R87's example). The model's readings: `7C000000` as
`ERASE_S0A`, `7C001000` as `ERASE_S0B` and `00` as `SENTINEL`, the words R95 and the table let two rows share, and the
address byte as the operand of `ERASE_SN` (log entry 15, DEDUCED); the vector rows with the reference pin map (log
entry 17, DEDUCED); which bit of a word is sent first and the 264 zero bytes (log entry 16, DEDUCED); the selector of
the `BYTE_FRAME` word (log entry 13). -/
def Obligations.TableWordsDecodeToTheirRows : Prop :=
  decodeTableWord 8 0x9F = some .identify
    ∧ decodeTableWord 32 0x7C000000 = some .eraseS0a
    ∧ decodeTableWord 32 0x7C001000 = some .eraseS0b
    ∧ decodeTableWord 32 0x7C000600 = some (.eraseSn 0x06#8)
    ∧ decodeTableWord 32 0x84000000 = some (.loadBuf (List.replicate 264 0x00#8))
    ∧ decodeTableWord 24 0x8807FE = some (.commit 1023)
    ∧ decodeTableWord 8 0xD7 = some .readStatus
    ∧ decodeTableWord 8 0x2E = some (.gpioVector ⟨.selA, true, true⟩ .released false)
    ∧ decodeTableWord 8 0x00 = some .sentinel
    ∧ decodeTableWord 16 0xF33F = some (.byteFrame .selA 0xD7#8)

/-- Decoding an encoded instruction gives it back, every operand at every value, but for the one pair of commands that
R95 gives the same bytes: sector 8 of the larger device and `ERASE_S0B`, told apart by position and not by content.
That those bytes read as `ERASE_S0B` is the model's decoder (log entry 15, DEDUCED), as is the reading of the vector
rows with the reference pin map (log entry 17, DEDUCED). The encoding of `BYTE_FRAME` is its 16 packed vectors (log
entry 13). -/
def Obligations.DecodeOfEncodeIsTheInstruction : Prop :=
  ∀ i : Instr, i.wf = true →
    decode (encode i) = .ok (if i = .eraseSn 0x10#8 then .eraseS0b else i)

/-- Whatever decodes is well formed and is the encoding of what it decodes to: nothing else is accepted (R96). Which
of two rows with the same bytes is read is log entry 15, the reference pin map of the vector rows log entry 17 (both
DEDUCED), `BYTE_FRAME` as its 16 packed vectors log entry 13. -/
def Obligations.EncodeOfDecodeIsTheBytes : Prop :=
  ∀ (bs : List Byte) (i : Instr), decode bs = .ok i → i.wf = true ∧ encode i = bs

/-- R93: the page address bytes, bit by bit, and that they stand for one page. -/
def Obligations.PageAddressBytesNameOnePage : Prop :=
  ∀ p, p < 1024 →
    (pageHi p).toNat = (p >>> 7) &&& 0x7 ∧ (pageLo p).toNat = (p <<< 1) &&& 0xFE
      ∧ (∀ k, k < 3 → (pageHi p).getLsbD k = p.testBit (7 + k))
      ∧ (∀ k, 3 ≤ k → (pageHi p).getLsbD k = false)
      ∧ (∀ k, k < 7 → (pageLo p).getLsbD (k + 1) = p.testBit k)
      ∧ (pageLo p).getLsbD 0 = false
      ∧ ((pageHi p).toNat <<< 8) ||| (pageLo p).toNat = p <<< 1
      ∧ pageOf (pageHi p) (pageLo p) = p
      ∧ ∀ q, q < 1024 → pageHi q = pageHi p → pageLo q = pageLo p → q = p

/-- R91: the sector address byte is `N` on the smaller device and `N << 1` on the larger, for every sector from 1 on,
at most 1E, and stands between two zero bytes after the opcode. -/
def Obligations.SectorAddressByDevice : Prop :=
  (∀ n, 1 ≤ n → n ≤ 7 → (sectorAddr .small n).toNat = n)
    ∧ (∀ n, 1 ≤ n → n ≤ 15 → (sectorAddr .large n).toNat = n <<< 1)
    ∧ (∀ n, 1 ≤ n → n ≤ 15 → (sectorAddr .large n).toNat ≤ 0x1E)
    ∧ ∀ a : Byte, encode (.eraseSn a) = [0x7C#8, 0x00#8, a, 0x00#8]

/-- R87: vector `j` of a byte frame, and the packed frame of D7 under `SEL_A` with the reference values. -/
def Obligations.ByteFrameLayout : Prop :=
  (∀ (s : Selector) (b : Byte), (frame s b).length = 16
      ∧ ∀ j, j < 16 → (frame s b)[j]? = some ⟨s, decide (j % 2 = 1), b.getLsbD (7 - j / 2)⟩)
    ∧ (frame .selA 0xD7#8).map (fun lv => pack tableMap lv .asserted)
      = [0x0A, 0x0E, 0x0A, 0x0E, 0x02, 0x06, 0x0A, 0x0E, 0x02, 0x06, 0x0A, 0x0E, 0x0A, 0x0E, 0x0A, 0x0E]

/-- R83: each named bit of a packed vector, every other bit 0 (the data-in bit among them), for any six distinct
positions; and the form it takes with the reference values. -/
def Obligations.PackedVectorBits : Prop :=
  (∀ (c : Config) (lv : LineVector) (h : HoldState), c.positions.Nodup →
      (pack c lv h).testBit c.pCsa = (if lv.sel = .selA then c.csActive else !c.csActive)
        ∧ (pack c lv h).testBit c.pCsb = (if lv.sel = .selB then c.csActive else !c.csActive)
        ∧ (pack c lv h).testBit c.pSck = lv.sck
        ∧ (pack c lv h).testBit c.pMosi = lv.mosi
        ∧ (pack c lv h).testBit c.pHold = (if h = .asserted then c.holdLevel else !c.holdLevel)
        ∧ (pack c lv h).testBit c.pMiso = false
        ∧ ∀ i, i ∉ c.positions → (pack c lv h).testBit i = false)
    ∧ ∀ (lv : LineVector) (h : HoldState),
      pack tableMap lv h =
        (match lv.sel with
          | .selA => 0x02
          | .selB => 0x01
          | .selIdle => 0x03) ||| (lv.sck.toNat <<< 2) ||| (lv.mosi.toNat <<< 3)
          ||| (if h = .released then 0x20 else 0)

/-- R84: no line vector packs to zero exactly when chip selects are active low or hold is asserted high. -/
def Obligations.NoVectorPacksToZeroExactlyWhen : Prop :=
  ∀ c : Config,
    ((∀ s : Selector, pack c ⟨s, false, false⟩ .asserted ≠ 0) ↔ (c.csActive = false ∨ c.holdLevel = true))
      ∧ ((∀ s : Selector, pack c ⟨s, false, false⟩ .asserted ≠ 0) → ∀ lv : LineVector, pack c lv .asserted ≠ 0)

/-- R26, R82: with distinct positions no packed vector has both chip-select lines at the active level. -/
def Obligations.AtMostOneChipSelectActive : Prop :=
  ∀ (c : Config) (lv : LineVector) (h : HoldState), c.positions.Nodup →
    ¬((pack c lv h).testBit c.pCsa = c.csActive ∧ (pack c lv h).testBit c.pCsb = c.csActive)

/-! ## Reset and the step -/

/-- R44: the registers after reset. The rule leaves the contents of `buf` unspecified, and the model's own fields are no
part of it. -/
def Obligations.ResetRegisterValues : Prop :=
  State.reset.pins = ⟨.selIdle, false, false, .released⟩
    ∧ State.reset.blen = 0
    ∧ State.reset.rx = none ∧ State.reset.status = none ∧ State.reset.ident = none ∧ State.reset.record = none
    ∧ State.reset.dev = .none ∧ State.reset.attempts = 0 ∧ State.reset.st = .idle ∧ State.reset.estep = 0
    ∧ State.reset.page = 0 ∧ State.reset.result = .none ∧ State.reset.err = .none ∧ State.reset.errstep = .none
    ∧ State.reset.trace = []

/-- R260: a reset of the host puts the engine into its initial state from any state, `ST_FAILED` included; and one
that comes between two transport calls abandons the operation at once, here before the first call of a command. That
parameters and environment survive, and where a reset can come, is log entry 19 (DEDUCED). -/
def Obligations.ResetFromAnyState : Prop :=
  (∀ (s : State) (rest : List HostEvent), s.cfg.pinsAdmitted = true → s.env.host = .reset :: rest →
      step s = .next (State.resetOf s.cfg { s.env with host := rest }))
    ∧ ∀ (s : State) (i : Instr) (rest : List CallOutcome), i.wf = true → i ≠ .sentinel →
      (∀ sel b, i ≠ .byteFrame sel b) → s.cfg.wf = true → s.env.calls = .reset :: rest →
      exec i s = .next (State.resetOf s.cfg { s.env with calls := rest })

/-- A command handed in from outside a run (the port, log entry 1), the host quiet and the engine not failed: at rest
the step asserts hold; then the step is `exec` of the instruction the port's bytes decode to, with the port emptied
and what ends that command next (`portEnd`: a vector of a target is deselected first, R270, log entry 36; the
instruction decides, and the selector register is not read, R21); then a step deselects where that is so, and a step
releases hold (the bracket of R207, log entry 10). That the host acts before the step is log entry 18, one operation a
step log entry 20, that nothing of the port runs in `ST_FAILED` log entry 24. -/
def Obligations.StepRunsTheDecodedCommand : Prop :=
  ∀ (s : State) (host : List HostEvent), s.cfg.pinsAdmitted = true → s.st ≠ .failed →
    (s.env.host = [] ∧ host = [] ∨ s.env.host = .quiet :: host) →
    (∀ i, decode s.port = .ok i → s.phase = .rest → s.calm →
        step s = .next { s with
          pins := ⟨s.pins.sel, s.pins.sck, s.pins.mosi, .asserted⟩, trace := s.trace ++ [.hold .asserted]
          env := { envAfter 1 0 s with host := host }, phase := .portCommand })
      ∧ (∀ i, decode s.port = .ok i → s.phase = .portCommand →
        step s = exec i { s with port := [], phase := portEnd i, env := { s.env with host := host } })
      ∧ (s.phase = .portDeselect → s.calm →
        step s = .next { s with
          pins := ⟨.selIdle, false, false, s.pins.hold⟩, trace := s.trace ++ [.select .selIdle]
          env := { envAfter 1 0 s with host := host }, phase := .portRelease })
      ∧ (s.phase = .portRelease → s.calm →
        step s = .next { s with
          pins := ⟨s.pins.sel, s.pins.sck, s.pins.mosi, .released⟩, trace := s.trace ++ [.hold .released]
          env := { envAfter 1 0 s with host := host }, phase := .rest })

/-- A word of the table placed for the next step is run by it, from every state whose pin map is admitted: outside a
run, with hold asserted and the host quiet. The port and the placing are the model's own (log entries 1 and 24), as is
what ends the command (log entries 10 and 36). -/
def Obligations.FetchWordIsRunByTheNextStep : Prop :=
  ∀ (s : State) (nbits w : Nat) (i : Instr), s.cfg.pinsAdmitted = true → decodeTableWord nbits w = some i →
    step (s.withFetchWord nbits w)
      = exec i { s with
          port := [], st := .idle, phase := portEnd i
          pins := ⟨s.pins.sel, s.pins.sck, s.pins.mosi, .asserted⟩, env := { s.env with host := [] } }

/-- No step changes a parameter (R8: fixed for the machine; the model's field, log entry 2). -/
def Obligations.ParametersNeverChange : Prop :=
  ∀ s t : State, step s = .next t → t.cfg = s.cfg

/-! ## Transport calls and the decoder -/

/-- R111 to R114, R117: what each call that completes drives, and that it moves only its own lines. -/
def Obligations.TransportCallsDriveTheirLines : Prop :=
  ∀ s : State, s.calm →
    assertHold s = .ok () { s with
        pins := ⟨s.pins.sel, s.pins.sck, s.pins.mosi, .asserted⟩
        trace := s.trace ++ [.hold .asserted], env := envAfter 1 0 s }
      ∧ releaseHold s = .ok () { s with
        pins := ⟨s.pins.sel, s.pins.sck, s.pins.mosi, .released⟩
        trace := s.trace ++ [.hold .released], env := envAfter 1 0 s }
      ∧ (∀ sel, select sel s = .ok () { s with
        pins := ⟨sel, false, false, s.pins.hold⟩
        trace := s.trace ++ [.select sel], env := envAfter 1 0 s })
      ∧ ∀ (lvs : List LineVector) (last : LineVector),
        write (lvs ++ [last]) s = .ok () { s with
          pins := ⟨last.sel, last.sck, last.mosi, s.pins.hold⟩
          trace := s.trace ++ [.write (lvs ++ [last])], env := envAfter 1 0 s }

/-- R115, R86: `read_pins()` returns bit `P_MISO` of the vector the environment gives and moves no line. -/
def Obligations.ReadPinsTakesTheDataInBit : Prop :=
  ∀ s : State, s.calm → ∀ v vs, s.env.samples = v :: vs →
    readPins s = .ok (v.testBit s.cfg.pMiso) { s with
        trace := s.trace ++ [.sample (v.testBit s.cfg.pMiso)]
        env := { s.env with calls := s.env.calls.drop 1, samples := vs } }

/-- R116, R231: a call the transport faults raises `TransportFault` of that call, with the pins at any levels (R241) and
nothing else changed; no event is recorded, the call not having completed (log entry 8). -/
def Obligations.FaultingCallRaisesTransportFault : Prop :=
  ∀ (s : State) (p : Pins) (rest : List CallOutcome), s.env.calls = .faults p :: rest →
    let t : State := { s with pins := p, env := { s.env with calls := rest } }
    assertHold s = .raised (.transport .assertHold) t
      ∧ releaseHold s = .raised (.transport .releaseHold) t
      ∧ (∀ sel, select sel s = .raised (.transport (.select sel)) t)
      ∧ (∀ lvs, write lvs s = .raised (.transport (.write lvs)) t)
      ∧ readPins s = .raised (.transport .readPins) t

/-- R124, R126: `decode_bytes(s, n)` reads `n` bytes in one selection, each byte its eight samples first bit highest
(R123), and returns the selector to idle once; 2 select events, and a sample and a write of two vectors for each bit. -/
def Obligations.DecodeBytesReadsInOneSelection : Prop :=
  ∀ (sel : Selector) (n : Nat) (s : State), 1 ≤ n → s.calm →
    ∃ (r : List Byte) (t : State), decodeBytes sel n s = .ok r t
      ∧ r.length = n
      ∧ (∀ k, k < n → r[k]? = some (byteOfBits (((upcomingBits (8 * n) s).drop (8 * k)).take 8)))
      ∧ t = { s with
          pins := ⟨.selIdle, false, false, s.pins.hold⟩
          rx := r.getLast?
          trace := s.trace ++ [.select sel] ++ bitCycleEvents sel (upcomingBits (8 * n) s) ++ [.select .selIdle]
          env := envAfter (16 * n + 2) (8 * n) s }

/-- R127: a decode whose `k`-th sample is the data level of vector `2k` of the frame of `b` (`o = 0`), or of vector
`2k + 1` (`o = 1`), returns `b`, under every selector. -/
def Obligations.EncodeThenDecodeRoundTrip : Prop :=
  ∀ (sel : Selector) (b : Byte) (s : State) (o : Nat), s.calm → o < 2 →
    (∀ k, k < 8 → (upcomingBits 8 s)[k]? = ((frame sel b)[2 * k + o]?).map LineVector.mosi) →
    ∃ t : State, decodeBytes sel 1 s = .ok [b] t

/-! ## The assembler -/

/-- R141, R143: `assemble` stores the packed frames from its offset on and the sentinel after them, leaves every other
offset, and returns and records the next free offset. -/
def Obligations.AssembleStoresFramesAndSentinel : Prop :=
  ∀ (bytes : List Byte) (off : Nat) (sel : Selector) (s : State),
    off % 16 = 0 → off + 16 * bytes.length + 1 ≤ s.cfg.bufCap →
    ∃ m : Memory,
      assemble bytes off sel s = .ok (off + 16 * bytes.length) { s with buf := m, blen := off + 16 * bytes.length }
        ∧ (∀ j t, t < 16 → ∀ b, bytes[j]? = some b →
          m.read (off + 16 * j + t) = ((frame sel b)[t]?).map fun lv => pack s.cfg lv .asserted)
        ∧ m.read (off + 16 * bytes.length) = some 0
        ∧ (∀ a, a < off ∨ off + 16 * bytes.length < a → m.read a = s.buf.read a)
        ∧ (s.buf.wf → m.wf)

/-- R144: an offset that is not a multiple of 16, or a stream that does not fit, raises `StreamLengthError` with
nothing written. It holds of a capacity below that of R8 too (log entry 22). -/
def Obligations.AssembleChecksTheStreamLength : Prop :=
  ∀ (bytes : List Byte) (off : Nat) (sel : Selector) (s : State),
    (off % 16 ≠ 0 ∨ s.cfg.bufCap < off + 16 * bytes.length + 1) →
    assemble bytes off sel s = .raised (.streamLength off) s

/-- R146: assembling two sequences one after the other leaves the buffer as assembling them as one. -/
def Obligations.AssembleConcatenates : Prop :=
  ∀ (x y : List Byte) (off : Nat) (sel : Selector) (s : State),
    off % 16 = 0 → off + 16 * (x ++ y).length + 1 ≤ s.cfg.bufCap →
    assemble (x ++ y) off sel s = (assemble x off sel s).bind fun off' s' => assemble y off' sel s'

/-- R147: `transmit` sends, in one write, the line vectors whose packed forms are the first `blen` vectors of the
buffer, not the sentinel, and then discards the stream. The case of hold released, which R147 excludes, is the model's
choice (log entry 10), and so is what the buffer holds afterwards (log entry 32). -/
def Obligations.TransmitSendsTheStreamInOneWrite : Prop :=
  ∀ (s : State) (lvs : List LineVector) (last : LineVector), s.calm → s.cfg.pinsAdmitted = true → s.buf.wf →
    s.blen = lvs.length + 1 →
    (∀ k, k < s.blen → s.buf.read k = ((lvs ++ [last])[k]?).map fun lv => pack s.cfg lv .asserted) →
    transmit s = .ok () { s with
        pins := ⟨last.sel, last.sck, last.mosi, s.pins.hold⟩
        blen := 0
        trace := s.trace ++ [.write (lvs ++ [last])]
        env := envAfter 1 0 s }

/-- R148, R173, R66: the page burst is one write of 4368 vectors: the load-buffer command with the record, an idle
pulse, the commit command, an idle pulse; the sentinel stands at offset 4368. The case of hold released, which R147 and
R160 exclude, is the model's choice (log entry 10), and so is that the buffer keeps the burst (log entry 32). -/
def Obligations.PageBurstIsOneWrite : Prop :=
  ∀ (p : Nat) (record : List Byte) (s : State), s.calm → s.cfg.wf = true → record.length = 264 →
    ∃ (m : Memory) (lvs : List LineVector),
      lvs = frames s.cfg.flashSel ([0x84#8, 0x00#8, 0x00#8, 0x00#8] ++ record) ++ idleFrame s.cfg
          ++ frames s.cfg.flashSel [0x88#8, pageHi p, pageLo p] ++ idleFrame s.cfg
        ∧ lvs.length = 4368 ∧ m.read 4368 = some 0
        ∧ (∀ k, k < 4368 → m.read k = (lvs[k]?).map fun lv => pack s.cfg lv .asserted)
        ∧ (∀ a, 4368 < a → m.read a = s.buf.read a)
        ∧ writePage p record s = .ok () { s with
            pins := ⟨.selIdle, true, s.cfg.idleFill.getLsbD 0, s.pins.hold⟩
            buf := m
            blen := 0
            trace := s.trace ++ [.write lvs]
            env := envAfter 1 0 s }

/-! ## The instructions complete -/

/-- R161, R164 to R168: `ERASE_S0A`, `ERASE_S0B`, `ERASE_SN`, `LOAD_BUF` and `COMMIT` complete when their one call
does: one write of the frames of the command's bytes under `FLASH_SEL` and one idle pulse; the selector ends idle with
the clock high; the buffer holds that stream and its sentinel below its old contents; nothing else changes. The
model's choices: the case of hold released, which R147 and R160 exclude (log entry 10), that the buffer keeps the
stream (log entry 32), `LOAD_BUF` and `COMMIT` outside a page burst (log entry 14). The operand of `ERASE_SN` is its
address byte (log entry 15), at any value of `dev` (log entry 34). -/
def Obligations.WriteCommandsComplete : Prop :=
  ∀ (i : Instr) (s : State), isWriteCommand i = true → i.wf = true → s.calm → s.cfg.wf = true →
    ∃ (m : Memory) (lvs : List LineVector),
      lvs = frames s.cfg.flashSel (encode i) ++ idleFrame s.cfg
        ∧ lvs.length = 16 * ((encode i).length + 1)
        ∧ m.read lvs.length = some 0
        ∧ (∀ k, k < lvs.length → m.read k = (lvs[k]?).map fun lv => pack s.cfg lv .asserted)
        ∧ (∀ a, lvs.length < a → m.read a = s.buf.read a)
        ∧ exec i s = .next { s with
            pins := ⟨.selIdle, true, s.cfg.idleFill.getLsbD 0, s.pins.hold⟩
            buf := m
            blen := 0
            trace := s.trace ++ [.write lvs]
            env := envAfter 1 0 s }

/-- R162, R163, R58: `IDENTIFY` completes when its calls do: one write of the frame of 9F, 32 bit cycles in one
selection, and `ident` is the four bytes received, the first least significant. The model's choices: the case of hold
released, which R147 and R160 exclude (log entry 10), and that the buffer keeps the frame and its sentinel (log entry
32). -/
def Obligations.IdentifyCompletes : Prop :=
  ∀ s : State, s.calm → s.cfg.wf = true →
    ∃ (m : Memory) (r0 r1 r2 r3 : Byte),
      [r0, r1, r2, r3] = bytesOfBits 4 (upcomingBits 32 s)
        ∧ (∀ k, k < 16 → m.read k = ((frame s.cfg.flashSel 0x9F#8)[k]?).map fun lv => pack s.cfg lv .asserted)
        ∧ m.read 16 = some 0
        ∧ (∀ a, 16 < a → m.read a = s.buf.read a)
        ∧ exec .identify s = .next { s with
            pins := ⟨.selIdle, false, false, s.pins.hold⟩
            buf := m
            blen := 0
            rx := some r3
            ident := some (r0.zeroExtend 32 ||| (r1.zeroExtend 32 <<< 8) ||| (r2.zeroExtend 32 <<< 16)
              ||| (r3.zeroExtend 32 <<< 24))
            trace := s.trace ++ [.write (frame s.cfg.flashSel 0x9F#8), .select s.cfg.flashSel]
              ++ bitCycleEvents s.cfg.flashSel (upcomingBits 32 s) ++ [.select .selIdle]
            env := envAfter 67 32 s }

/-- R162, R169: `READ_STATUS` completes when its calls do: one write of the frame of D7, eight bit cycles, and `status`
is the byte received; so the ready flag is the first sample (R97). The model's choices: the case of hold released, which
R147 and R160 exclude (log entry 10), and that the buffer keeps the frame and its sentinel (log entry 32). -/
def Obligations.ReadStatusCompletes : Prop :=
  ∀ s : State, s.calm → s.cfg.wf = true →
    ∃ (m : Memory) (b : Byte),
      b = byteOfBits (upcomingBits 8 s) ∧ (upcomingBits 8 s)[0]? = some (readyFlag b)
        ∧ (∀ k, k < 16 → m.read k = ((frame s.cfg.flashSel 0xD7#8)[k]?).map fun lv => pack s.cfg lv .asserted)
        ∧ m.read 16 = some 0
        ∧ (∀ a, 16 < a → m.read a = s.buf.read a)
        ∧ exec .readStatus s = .next { s with
            pins := ⟨.selIdle, false, false, s.pins.hold⟩
            buf := m
            blen := 0
            rx := some b
            status := some b
            trace := s.trace ++ [.write (frame s.cfg.flashSel 0xD7#8), .select s.cfg.flashSel]
              ++ bitCycleEvents s.cfg.flashSel (upcomingBits 8 s) ++ [.select .selIdle]
            env := envAfter 19 8 s }

/-- R114, R117: `GPIO_VECTOR` completes when its call does: the four lines follow the line vector, HOLD stays, one
write event. That the row is one `write` is the model's reading (log entry 11), and so is the case of hold released,
which R273 excludes (log entry 10). The vector may select the target that is not `FLASH_SEL` (log entry 37). -/
def Obligations.GpioVectorCompletes : Prop :=
  ∀ (lv : LineVector) (h : HoldState) (m : Bool) (s : State), s.calm →
    exec (.gpioVector lv h m) s = .next { s with
        pins := ⟨lv.sel, lv.sck, lv.mosi, s.pins.hold⟩
        trace := s.trace ++ [.write [lv]]
        env := envAfter 1 0 s }

/-- R85, R141: `SENTINEL` completes when the sentinel fits: the zero vector stands at the end of the stream, no pin moves
and no call is made. That the row ends the buffered stream is the model's reading (log entry 12). -/
def Obligations.SentinelCompletes : Prop :=
  ∀ s : State, s.blen % 16 = 0 → s.blen + 1 ≤ s.cfg.bufCap →
    ∃ m : Memory, m.read s.blen = some 0 ∧ (∀ a, a ≠ s.blen → m.read a = s.buf.read a)
      ∧ exec .sentinel s = .next { s with buf := m }

/-- R120, R141: `BYTE_FRAME` completes when the frame fits: its 16 packed vectors and the sentinel are appended to the
stream, no pin moves and no call is made. That the row appends to the buffered stream is the model's reading (log
entry 13). The selector may be that of the target that is not `FLASH_SEL` (log entry 37). -/
def Obligations.ByteFrameCompletes : Prop :=
  ∀ (sel : Selector) (b : Byte) (s : State), s.blen % 16 = 0 → s.blen + 17 ≤ s.cfg.bufCap →
    ∃ m : Memory, m.read (s.blen + 16) = some 0
      ∧ (∀ k, k < 16 → m.read (s.blen + k) = ((frame sel b)[k]?).map fun lv => pack s.cfg lv .asserted)
      ∧ (∀ a, a < s.blen ∨ s.blen + 16 < a → m.read a = s.buf.read a)
      ∧ exec (.byteFrame sel b) s = .next { s with buf := m, blen := s.blen + 16 }

/-! ## Frames -/

/-- The frame of the commands with no read-back, no reset coming between their calls: `rx`, `status` and `ident` keep
their values, no sample is taken, and the buffer changes only where the command's stream and its sentinel stand. That
a fault in `ST_IDLE` is recorded against no step is the model's choice (log entry 9). What the buffer holds after a
transmit is log entry 32. -/
def Obligations.WriteCommandsFrame : Prop :=
  ∀ (i : Instr) (s t : State), isWriteCommand i = true → s.unreset → exec i s = .next t →
    controlKept s t ∧ t.rx = s.rx ∧ t.status = s.status ∧ t.ident = s.ident
      ∧ t.env.samples = s.env.samples ∧ t.env.drawn = s.env.drawn
      ∧ ∀ a, 16 * ((encode i).length + 1) < a → t.buf.read a = s.buf.read a

/-- The frame of the commands with read-back: `IDENTIFY` writes `ident` and not `status`, `READ_STATUS` writes
`status` and not `ident` (each also `rx`), and the buffer changes only where the one frame and its sentinel stand.
That a fault in `ST_IDLE` is recorded against no step is the model's choice (log entry 9). What the buffer holds after
a transmit is log entry 32. -/
def Obligations.ReadCommandsFrame : Prop :=
  ∀ s t : State, s.unreset →
    (exec .identify s = .next t →
        controlKept s t ∧ t.status = s.status ∧ ∀ a, 16 < a → t.buf.read a = s.buf.read a)
      ∧ (exec .readStatus s = .next t →
        controlKept s t ∧ t.ident = s.ident ∧ ∀ a, 16 < a → t.buf.read a = s.buf.read a)

/-- The frame of `GPIO_VECTOR`: no register but the pins and the trace changes, and nothing in the buffer. The meaning of
the row is the model's reading (log entry 11), and that a fault in `ST_IDLE` is recorded against no step is its choice
(log entry 9). -/
def Obligations.GpioVectorFrame : Prop :=
  ∀ (lv : LineVector) (h : HoldState) (m : Bool) (s t : State), s.unreset → exec (.gpioVector lv h m) s = .next t →
    controlKept s t ∧ t.rx = s.rx ∧ t.status = s.status ∧ t.ident = s.ident ∧ t.buf = s.buf ∧ t.blen = s.blen
      ∧ t.env.samples = s.env.samples ∧ t.env.drawn = s.env.drawn

/-- The frame of `SENTINEL` and `BYTE_FRAME`: no pin but HOLD moves, and HOLD only by the clean-up of a stream-length
fault, also when that clean-up faults and the fault is dropped (R244; that only HOLD is unknown then is log entry 25);
the buffer changes only from the end of the stream on, by 1 and by 17 vectors. The meanings of the two rows are the
model's readings (log entries 12 and 13), and that a fault in `ST_IDLE` is recorded against no step is its choice (log
entry 9). -/
def Obligations.StreamRowsFrame : Prop :=
  ∀ s t : State, s.unreset →
    (exec .sentinel s = .next t →
        controlKept s t ∧ t.rx = s.rx ∧ t.status = s.status ∧ t.ident = s.ident ∧ t.blen = s.blen
          ∧ t.pins.sel = s.pins.sel ∧ t.pins.sck = s.pins.sck ∧ t.pins.mosi = s.pins.mosi
          ∧ t.env.samples = s.env.samples ∧ t.env.drawn = s.env.drawn
          ∧ ∀ a, a ≠ s.blen → t.buf.read a = s.buf.read a)
      ∧ ∀ sel b, exec (.byteFrame sel b) s = .next t →
        controlKept s t ∧ t.rx = s.rx ∧ t.status = s.status ∧ t.ident = s.ident
          ∧ t.pins.sel = s.pins.sel ∧ t.pins.sck = s.pins.sck ∧ t.pins.mosi = s.pins.mosi
          ∧ t.env.samples = s.env.samples ∧ t.env.drawn = s.env.drawn
          ∧ ∀ a, a < s.blen ∨ s.blen + 16 < a → t.buf.read a = s.buf.read a

/-- R285's exact counts of vectors: 82 for an identify, 34 for a status read, 80 for an erase burst, 4368 for a page
burst. The case of hold released, which R147 and R160 exclude, is the model's choice (log entry 10). -/
def Obligations.VectorCountsOfTheTransactions : Prop :=
  ∀ s : State, s.calm → s.cfg.wf = true →
    (∃ t, exec .identify s = .next t ∧ vectorCount t.trace = vectorCount s.trace + 82)
      ∧ (∃ t, exec .readStatus s = .next t ∧ vectorCount t.trace = vectorCount s.trace + 34)
      ∧ (∃ t, exec .eraseS0a s = .next t ∧ vectorCount t.trace = vectorCount s.trace + 80)
      ∧ (∃ t, exec .eraseS0b s = .next t ∧ vectorCount t.trace = vectorCount s.trace + 80)
      ∧ (∀ a, ∃ t, exec (.eraseSn a) s = .next t ∧ vectorCount t.trace = vectorCount s.trace + 80)
      ∧ ∀ p record, record.length = 264 →
        ∃ t, writePage p record s = .ok () t ∧ vectorCount t.trace = vectorCount s.trace + 4368

/-! ## Faults -/

/-- R116, R128, R231, R240, R241: a transport fault in any call of a command, be it a write, a select, a sample or a
clock pulse, ends the run: `ST_FAILED`, `ERR_TRANSPORT`, the step in progress, the pins at the levels the environment
left, no further call, and one event for each call that completed before it. That the faulted call has no event is log
entry 8, and the step recorded in `ST_IDLE` log entry 9. The case of hold released, which R147 and R160 exclude, is
the model's choice (log entry 10). -/
def Obligations.TransportFaultInACommandEndsTheRun : Prop :=
  ∀ (i : Instr) (s : State) (p : Pins) (done rest : List CallOutcome), i.wf = true → s.cfg.wf = true →
    (∀ o ∈ done, o = .completes) → done.length < callCount i → s.env.calls = done ++ .faults p :: rest →
    ∃ (t : State) (evs : List Event), exec i s = .next t ∧ t.st = .failed ∧ t.result = .fail ∧ t.err = .transport
      ∧ t.errstep = currentStep s ∧ t.pins = p ∧ t.env.calls = rest ∧ t.trace = s.trace ++ evs
      ∧ evs.length = done.length

/-- R240: fault entry, its clean-up call completing: the release when hold is asserted and the fault is no transport
fault; the four registers; every other register as it was. That a fault in `ST_IDLE` is recorded against `STEP_NONE`
is the model's choice (log entry 9), and the phase that goes to rest its own field (log entry 20). -/
def Obligations.FaultEntryWritesFourRegisters : Prop :=
  ∀ (f : EngineFault) (s : State), s.calm →
    (f.kind ≠ .transport → s.pins.hold = .asserted →
        faultEntry f s = { s with
          pins := ⟨s.pins.sel, s.pins.sck, s.pins.mosi, .released⟩
          trace := s.trace ++ [.hold .released]
          env := envAfter 1 0 s
          st := .failed, result := .fail, err := f.kind, errstep := currentStep s, phase := .rest })
      ∧ (f.kind = .transport ∨ s.pins.hold = .released →
        faultEntry f s = { s with
          st := .failed, result := .fail, err := f.kind, errstep := currentStep s, phase := .rest })

/-- R244: a fault of the clean-up `release_hold()` is dropped: `err` and `errstep` keep the first fault, hold is at
any level, and no event is recorded (log entry 8). That the other three pins keep their levels is log entry 25. That a
fault in `ST_IDLE` is recorded against `STEP_NONE` is the model's choice (log entry 9). -/
def Obligations.CleanUpFaultIsDropped : Prop :=
  ∀ (f : EngineFault) (s : State) (p : Pins) (rest : List CallOutcome), f.kind ≠ .transport →
    s.pins.hold = .asserted → s.env.calls = .faults p :: rest →
    faultEntry f s = { s with
      pins := ⟨s.pins.sel, s.pins.sck, s.pins.mosi, p.hold⟩
      env := { s.env with calls := rest }
      st := .failed, result := .fail, err := f.kind, errstep := currentStep s, phase := .rest }

/-- R236: the numbers of the error kinds, and the kind each fault is recorded as. -/
def Obligations.ErrorCodeNumbers : Prop :=
  ErrKind.none.code = 0
    ∧ (∀ c, (EngineFault.transport c).kind.code = 1) ∧ (∀ v, (EngineFault.identity v).kind.code = 2)
    ∧ (∀ e, (EngineFault.pollTimeout e).kind.code = 3) ∧ (∀ e, (EngineFault.source e).kind.code = 4)
    ∧ (∀ o, (EngineFault.streamLength o).kind.code = 5)

/-- R243, R215: nothing leaves `ST_FAILED` but a reset: with the host quiet a step changes nothing, and a start
changes nothing but the host's schedule. That a command at the port does not run either is log entry 24, that the host
acts before the step log entry 18. -/
def Obligations.FailedIsTerminal : Prop :=
  ∀ s : State, s.cfg.pinsAdmitted = true → s.st = .failed →
    (s.env.host = [] → step s = .next s)
      ∧ ∀ rest, s.env.host = .quiet :: rest ∨ s.env.host = .start :: rest →
        step s = .next { s with env := { s.env with host := rest } }

/-! ## The orchestrator -/

/-- R192: a start in `ST_IDLE` sets the registers of the rule and goes to `ST_IDENTIFYING`; in any other state, and
while a command handed in from outside is in progress (log entry 18), it has no effect (U9). The run takes the next
image (R263; log entry 33). Nothing is said of equal device identifiers, which the model refuses (U14). That a start
leaves the trace, the pins and the working registers is log entry 27. -/
def Obligations.StartBeginsARunOnlyFromIdle : Prop :=
  ∀ (s : State) (rest : List HostEvent), s.cfg.pinsAdmitted = true → s.env.host = .start :: rest →
    (s.st = .idle → s.phase = .rest → s.cfg.idsAdmitted = true →
        step s = .next { s with
          dev := .none, estep := 0, page := 0, attempts := 0, result := .none, err := .none, errstep := .none
          blen := 0, st := .identifying, phase := .identifyHold
          env := { s.env with
            image := s.env.laterImages.headD [], laterImages := s.env.laterImages.tail, host := rest } })
      ∧ (s.st ≠ .idle ∨ s.phase ≠ .rest → step s = .next { s with env := { s.env with host := rest } })

/-- R193: the identify step is `assert_hold()`, `IDENTIFY`, `release_hold()`, classification, in that order. One
operation a step is the model's (log entry 20). -/
def Obligations.IdentifyStepInOrder : Prop :=
  ∀ s : State, s.running → s.calm →
    (s.phase = .identifyHold →
        step s = .next { s with
          pins := ⟨s.pins.sel, s.pins.sck, s.pins.mosi, .asserted⟩, trace := s.trace ++ [.hold .asserted]
          env := envAfter 1 0 s, phase := .identifyCommand })
      ∧ (s.phase = .identifyCommand → step s = exec .identify { s with phase := .identifyRelease })
      ∧ (s.phase = .identifyRelease →
        step s = .next { s with
          pins := ⟨s.pins.sel, s.pins.sck, s.pins.mosi, .released⟩, trace := s.trace ++ [.hold .released]
          env := envAfter 1 0 s, phase := .classify })

/-- R170, R193, R232: the classification compares the low 16 bits only; a match sets `dev` and goes to `ST_ERASING`
with `estep = 0`; anything else is `IdentityMismatch`, recorded against the identify step. One operation a step is the
model's (log entry 20). -/
def Obligations.ClassificationSelectsTheDevice : Prop :=
  ∀ (s : State) (ident : BitVec 32), s.running → s.phase = .classify → s.ident = some ident →
    (ident.setWidth 16 = s.cfg.idSmall →
        step s = .next { s with dev := .small, st := .erasing, estep := 0, phase := .eraseHold })
      ∧ (ident.setWidth 16 = s.cfg.idLarge →
        step s = .next { s with dev := .large, st := .erasing, estep := 0, phase := .eraseHold })
      ∧ (ident.setWidth 16 ≠ s.cfg.idSmall → ident.setWidth 16 ≠ s.cfg.idLarge → s.st = .identifying →
        s.pins.hold = .released →
        step s = .next { s with
          dev := .none, st := .failed, result := .fail, err := .identity, errstep := .identify, phase := .rest })

/-- R172: the erase list of each device, as the bytes sent, in order: sector 0 in two halves, then the other sectors
in ascending order. The operand of `ERASE_SN` is its address byte (log entry 15). -/
def Obligations.EraseListInOrder : Prop :=
  eraseCount .small = some 9 ∧ eraseCount .large = some 17
    ∧ (List.range 9).map (fun j => encode (eraseCmd .small j))
      = ([0x00#8, 0x10#8, 0x01#8, 0x02#8, 0x03#8, 0x04#8, 0x05#8, 0x06#8, 0x07#8].map fun a =>
        [0x7C#8, 0x00#8, a, 0x00#8])
    ∧ (List.range 17).map (fun j => encode (eraseCmd .large j))
      = [0x00#8, 0x10#8, 0x02#8, 0x04#8, 0x06#8, 0x08#8, 0x0A#8, 0x0C#8, 0x0E#8, 0x10#8, 0x12#8, 0x14#8, 0x16#8,
        0x18#8, 0x1A#8, 0x1C#8, 0x1E#8].map fun a => [0x7C#8, 0x00#8, a, 0x00#8]

/-- R196: hold is asserted, each command of the list is issued at its position and followed by a poll, and after the
last one hold is released and programming begins at page 0. One operation a step is the model's (log entry 20). -/
def Obligations.EraseLoopInOrder : Prop :=
  ∀ (s : State) (n : Nat), s.running → s.calm → eraseCount s.dev = some n →
    (s.phase = .eraseHold →
        step s = .next { s with
          pins := ⟨s.pins.sel, s.pins.sck, s.pins.mosi, .asserted⟩, trace := s.trace ++ [.hold .asserted]
          env := envAfter 1 0 s, phase := .eraseNext })
      ∧ (s.phase = .eraseNext → s.estep < n →
        step s = exec (eraseCmd s.dev s.estep) { s with phase := .pollStart .erase })
      ∧ (s.phase = .eraseNext → n ≤ s.estep →
        step s = .next { s with
          pins := ⟨s.pins.sel, s.pins.sck, s.pins.mosi, .released⟩, trace := s.trace ++ [.hold .released]
          env := envAfter 1 0 s, st := .programming, page := 0, phase := .fetch })

/-- R220, R239: a poll starts with `attempts = 0`; each turn tests the counter before its one `READ_STATUS`; then bit
7 of the status byte is tested: ready ends the poll, busy begins the next turn. One operation a step is the model's
(log entry 20), and so are the rules at an `attempts` that no run reaches (log entry 28). -/
def Obligations.PollTurn : Prop :=
  ∀ (s : State) (k : PollKind), s.running →
    (s.phase = .pollStart k → step s = .next { s with attempts := 0, phase := .pollAttempt k })
      ∧ (s.phase = .pollAttempt k → s.attempts ≠ pollBudget s.cfg k →
        step s = exec .readStatus { s with attempts := s.attempts + 1, phase := .pollTest k })
      ∧ (∀ b, s.phase = .pollTest k → s.status = some b → b.getLsbD 7 = true →
        step s = .next (match k with
          | .erase => { s with estep := s.estep + 1, phase := .eraseNext }
          | .write => { s with phase := .pageRelease }))
      ∧ (∀ b, s.phase = .pollTest k → s.status = some b → b.getLsbD 7 = false →
        step s = .next { s with phase := .pollAttempt k })

/-- R233, R240: a poll whose attempts are used up ends the run with `ERR_POLL_TIMEOUT` against its erase command or
its page, hold released by the clean-up. One operation a step is the model's (log entry 20). -/
def Obligations.PollTimeoutEndsTheRun : Prop :=
  ∀ (s : State) (k : PollKind), s.running → s.calm → s.phase = .pollAttempt k → s.attempts = pollBudget s.cfg k →
    phaseFits s.phase s.st = true → s.pins.hold = .asserted →
    step s = .next { s with
      pins := ⟨s.pins.sel, s.pins.sck, s.pins.mosi, .released⟩, trace := s.trace ++ [.hold .released]
      env := envAfter 1 0 s
      st := .failed, result := .fail, err := .pollTimeout, phase := .rest
      errstep := match k with
        | .erase => .erase s.estep
        | .write => .page s.page }

/-- R223: a device that is ready at attempt `k` ends the poll at exactly `k` attempts, `k` not above the budget, two
steps an attempt. Attempt `j + 1` is ready when its first sample is 1. Two steps an attempt are the model's (log entry
20), and so is the case of hold released, which R160 excludes (log entry 10). -/
def Obligations.PollSucceedsAtTheReadyAttempt : Prop :=
  ∀ (s : State) (kind : PollKind) (k : Nat), s.running → s.calm → s.phase = .pollAttempt kind → s.attempts = 0 →
    1 ≤ k → k ≤ pollBudget s.cfg kind →
    (∀ j, j + 1 < k → (upcomingBits (8 * k) s)[8 * j]? = some false) →
    (upcomingBits (8 * k) s)[8 * (k - 1)]? = some true →
    ∃ t, core.run (2 * k) s = .next t ∧ t.attempts = k ∧ t.st = s.st
      ∧ t.phase = (match kind with
        | .erase => .eraseNext
        | .write => .pageRelease)
      ∧ t.estep = (match kind with
        | .erase => s.estep + 1
        | .write => s.estep)

/-- R223: a device that is never ready fails the poll after exactly the budget of attempts, and the run with it. A
budget of 0 makes no attempt and leaves `status` as it was. The number of steps is the model's (log entry 20), and so
is the case of hold released, which R160 excludes (log entry 10). -/
def Obligations.PollFailsAfterExactlyTheBudget : Prop :=
  ∀ (s : State) (kind : PollKind), s.running → s.calm → s.phase = .pollAttempt kind → s.attempts = 0 →
    (∀ j, j < pollBudget s.cfg kind → (upcomingBits (8 * pollBudget s.cfg kind) s)[8 * j]? = some false) →
    ∃ t, core.run (2 * pollBudget s.cfg kind + 1) s = .next t ∧ t.st = .failed ∧ t.err = .pollTimeout
      ∧ t.attempts = pollBudget s.cfg kind
      ∧ (pollBudget s.cfg kind = 0 → t.status = s.status)

/-- R203, R204, R205, R212, R234: the fetch. A record of R203 goes zero-padded to `rec`, the source moves on; a record
outside R203 is refused (U8), and so is a 1025th record (R209); a read error ends the run against the page; the end of
the records ends it with success. That a short record is the last when the next item of the run's image is no record
is log entry 21. One operation a step is the model's (log entry 20), each run has an image of its own (log entry 33),
and past its last item stands `End` (log entry 3). -/
def Obligations.FetchTakesTheNextRecord : Prop :=
  ∀ s : State, s.running → s.phase = .fetch →
    (∀ bytes rest, s.env.image = .record bytes :: rest → s.page ≤ 1023 → 1 ≤ bytes.length → bytes.length ≤ 264 →
        (bytes.length = 264 ∨ ∀ next rest', rest ≠ .record next :: rest') →
        step s = .next { s with
          record := some (bytes ++ List.replicate (264 - bytes.length) 0x00#8)
          env := { s.env with image := rest }, phase := .pageHold })
      ∧ (∀ bytes rest, s.env.image = .record bytes :: rest → s.page ≤ 1023 →
        (bytes.length = 0 ∨ 264 < bytes.length
          ∨ (bytes.length < 264 ∧ ∃ next rest', rest = .record next :: rest')) →
        step s = .refused .badRecord)
      ∧ (∀ bytes rest, s.env.image = .record bytes :: rest → 1023 < s.page → step s = .refused .tooManyRecords)
      ∧ (∀ rest, s.env.image = .readError :: rest → s.st = .programming → s.pins.hold = .released →
        step s = .next { s with
          env := { s.env with image := rest }
          st := .failed, result := .fail, err := .source, errstep := .page s.page, phase := .rest })
      ∧ (sourceAtEnd s.env.image = true →
        step s = .next { s with
          env := { s.env with image := s.env.image.tail }, st := .idle, result := .ok, phase := .rest })

/-- R205, R207: a page step asserts hold, sends the page burst of the record to the page, polls, releases hold and
goes to the next page. One operation a step is the model's (log entry 20). -/
def Obligations.PageStepInOrder : Prop :=
  ∀ s : State, s.running → s.calm →
    (s.phase = .pageHold →
        step s = .next { s with
          pins := ⟨s.pins.sel, s.pins.sck, s.pins.mosi, .asserted⟩, trace := s.trace ++ [.hold .asserted]
          env := envAfter 1 0 s, phase := .pageBurst })
      ∧ (∀ record, s.phase = .pageBurst → s.record = some record → record.length = 264 →
        ∃ t, writePage s.page record s = .ok () t ∧ step s = .next { t with phase := .pollStart .write })
      ∧ (s.phase = .pageRelease →
        step s = .next { s with
          pins := ⟨s.pins.sel, s.pins.sck, s.pins.mosi, .released⟩, trace := s.trace ++ [.hold .released]
          env := envAfter 1 0 s, page := s.page + 1, phase := .fetch })

/-! ## Invariants and whole-machine rules -/

/-- Every step keeps the invariant of the engine: the buffer canonical, inside its capacity and a whole number of bytes
(R27, R59), the counters in their ranges (R34, R36, R37), the registers each phase reads written (R47), a fault
recorded exactly in `ST_FAILED`, and, outside `ST_FAILED`, hold asserted exactly between the `assert_hold()` and the
`release_hold()` of a step of the run (R24, R207) or of a command handed in from outside a run (log entry 10, DESIGN
CHOICE). -/
def Obligations.EngineInvariantIsKept : Prop :=
  ∀ s t : State, s.engineInv → step s = .next t → t.engineInv

/-- The invariant of the engine holds at reset, for every value of the open parameters. The reset values of the
model's own fields are log entry 7, the form of the open parameters log entry 2. -/
def Obligations.EngineInvariantAtReset : Prop :=
  State.reset.engineInv

/-- Every step keeps the invariant of the bus, whatever stands at the port: the hold line's, and the selector is idle
between two operations (R70, R270), but after a vector of a target at the port, when the next operation deselects (log
entry 36), and after a transport fault (R241). After a clean-up release that faults and is dropped, where the recorded
fault is no transport fault, the selector is idle because only HOLD is unknown then (log entry 25, DEDUCED). The
bracket around a command at the port, which the hold invariant includes, is log entry 10, and that a faulted call
records no event log entry 8. -/
def Obligations.RunInvariantIsKept : Prop :=
  ∀ s t : State, s.runInv → step s = .next t → t.runInv

/-- The invariant of the bus holds at reset, and with it the hold line's. The reset values of the model's own fields
are log entry 7. -/
def Obligations.RunInvariantAtReset : Prop :=
  State.reset.runInv

/-- R47: in the states of the invariant no step reads a register that holds no value, transmits what is no stream, or
takes the erase list of no device: the faults of the model are unreachable. The three faults are those of log entries
5, 6 and 29. -/
def Obligations.NoModelFaultUnderTheInvariant : Prop :=
  ∀ (s : State) (f : Fault), s.engineInv → step s ≠ .fault f

/-- R215: the transitions of `st`, each with its event and what it writes. From each state a step goes only to the
states of the table, or, by a reset, where R260 says. A start alone leaves `ST_IDLE` for a run; the identity decides
between `ST_ERASING` and `ERR_IDENTITY`, the last erase poll leads to `ST_PROGRAMMING`, the end of the records to
`ST_IDLE`. Into `ST_FAILED`, recorded against the step in progress: `ERR_IDENTITY` only from `ST_IDENTIFYING`,
`ERR_POLL_TIMEOUT` only from `ST_ERASING` and `ST_PROGRAMMING` with the budget used up, `ERR_SOURCE` only from
`ST_PROGRAMMING` at a read error (R236). From `ST_IDLE` only a command handed in from outside can fail (log entries 1
and 9), and not with these three. That a start takes effect at rest alone is log entry 18, and what a reset leaves log
entry 19. -/
def Obligations.StateTransitionsOfTheTable : Prop :=
  ∀ s t : State, s.engineInv → step s = .next t → s.st ≠ t.st →
    (s.st = .idle ∧ t.st = .identifying ∧ (∃ rest, s.env.host = .start :: rest) ∧ t.dev = .none ∧ t.estep = 0
        ∧ t.page = 0 ∧ t.attempts = 0 ∧ t.result = .none ∧ t.err = .none ∧ t.errstep = .none ∧ t.blen = 0)
      ∨ (s.st = .identifying ∧ t.st = .erasing ∧ t.estep = 0
        ∧ ∃ v, s.ident = some v ∧ (v.setWidth 16 = s.cfg.idSmall ∧ t.dev = .small
          ∨ v.setWidth 16 = s.cfg.idLarge ∧ t.dev = .large))
      ∨ (s.st = .erasing ∧ t.st = .programming ∧ eraseCount s.dev = some s.estep ∧ t.page = 0)
      ∨ (s.st = .programming ∧ t.st = .idle ∧ t.result = .ok ∧ sourceAtEnd s.env.image = true)
      ∨ (s.st ≠ .failed ∧ t.st = .failed ∧ t.result = .fail ∧ t.errstep = currentStep s ∧ t.err ≠ .none
        ∧ (t.err = .identity → s.st = .identifying
          ∧ ∃ v, s.ident = some v ∧ v.setWidth 16 ≠ s.cfg.idSmall ∧ v.setWidth 16 ≠ s.cfg.idLarge)
        ∧ (t.err = .pollTimeout → s.st = .erasing ∧ s.attempts = s.cfg.eraseBudget
          ∨ s.st = .programming ∧ s.attempts = s.cfg.writeBudget)
        ∧ (t.err = .source → s.st = .programming ∧ ∃ rest, s.env.image = .readError :: rest)
        ∧ (s.st = .idle → s.port ≠ [] ∨ s.phase = .portDeselect ∨ s.phase = .portRelease))
      ∨ (t = State.resetOf t.cfg t.env)

/-- R194, R208: in a run no erase burst and no page burst is sent before the identity has matched, and no page burst
before the erase is over: what a step adds to the trace has no write longer than 16 vectors in `ST_IDENTIFYING` and
none longer than 80 in `ST_ERASING`; nothing at all in `ST_FAILED`, nor in `ST_IDLE` at rest with nothing at the port.
It bounds no write in `ST_IDLE` otherwise: outside a run a command at the port may be an erase or a `LOAD_BUF`,
whatever the identity (log entry 34, DESIGN CHOICE). What a faulted call records is log entry 8. -/
def Obligations.NoEraseBeforeIdentityNoPageBeforeErase : Prop :=
  ∀ s t : State, s.engineInv → step s = .next t →
    (t = State.resetOf t.cfg t.env)
      ∨ ∃ evs, t.trace = s.trace ++ evs
        ∧ (s.st = .failed → evs = [])
        ∧ (s.phase = .rest → s.port = [] → evs = [])
        ∧ ∀ lvs, .write lvs ∈ evs →
          (s.st = .identifying → lvs.length ≤ 16) ∧ (s.st = .erasing → lvs.length ≤ 80)

/-- R215, R116, R231, R240, R241: a transport fault in the calls a run makes outside its commands ends the run too:
each `assert_hold()` and each `release_hold()` of the identify step, the erase and a page step, with nothing else
changed, and the write of the page burst, the assembled burst staying in the buffer (log entry 32). No event is
recorded for the faulted call (log entry 8). One operation a step is the model's (log entry 20). -/
def Obligations.TransportFaultInARunStepEndsTheRun : Prop :=
  ∀ (s : State) (p : Pins) (rest : List CallOutcome), s.running → s.env.calls = .faults p :: rest →
    let t : State := { s with
      pins := p, env := { s.env with calls := rest }
      st := .failed, result := .fail, err := .transport, errstep := currentStep s, phase := .rest }
    (s.phase = .identifyHold ∨ s.phase = .identifyRelease ∨ s.phase = .eraseHold ∨ s.phase = .pageHold
          ∨ s.phase = .pageRelease →
        step s = .next t)
      ∧ (∀ n, s.phase = .eraseNext → eraseCount s.dev = some n → n ≤ s.estep → step s = .next t)
      ∧ ∀ record, s.phase = .pageBurst → s.record = some record → record.length = 264 →
        ∃ u, assemblePageBurst s.page record s = .ok 4368 u ∧ step s = .next { t with buf := u.buf, blen := u.blen }

/-- Every step keeps the invariant of the hold line, a command at the port included: nothing is driven or sampled with
hold released (R207, R273), and the line is where its calls put it unless the engine has failed. The bracket around a
command at the port is the model's (log entry 10); that a faulted call records no event is log entry 8. -/
def Obligations.HoldInvariantIsKept : Prop :=
  ∀ s t : State, s.holdInv → step s = .next t → t.holdInv
end

