-- ==== Sys2Proof/Laws/Codec.lean ====
section
/-! SUPPORT. The laws of the encodings: the bits of a packed vector, packing and unpacking, the length and the last
vector of a frame. -/

namespace Sys2Proof

/-! ### GPIO vectors -/

theorem testBit_lineBit (p : Nat) (d : Bool) (i : Nat) :
    (lineBit p d).testBit i = (d && decide (i = p)) := by
  cases d
  · simp [lineBit]
  · have h1 : ∀ k : Nat, (1 : Nat).testBit k = decide (k = 0) := fun k => by
      cases k with
      | zero => rfl
      | succ k => simp [Nat.testBit_succ]
    simp only [lineBit, Nat.testBit_shiftLeft, Bool.toNat_true, h1, Bool.true_and]
    by_cases h : i = p
    · simp [h]
    · by_cases hge : p ≤ i
      · have : ¬ i - p = 0 := by omega
        simp [h, this]
      · simp [h, hge]

/-- Every bit of a packed vector (R83). -/
theorem testBit_pack (c : Config) (lv : LineVector) (h : HoldState) (i : Nat) :
    (pack c lv h).testBit i =
      ((csLevel c (decide (lv.sel = .selA)) && decide (i = c.pCsa))
        || (csLevel c (decide (lv.sel = .selB)) && decide (i = c.pCsb))
        || (lv.sck && decide (i = c.pSck)) || (lv.mosi && decide (i = c.pMosi))
        || (holdBit c h && decide (i = c.pHold))) := by
  simp [pack, Nat.testBit_or, testBit_lineBit]

theorem positions_distinct {c : Config} (h : c.pinsAdmitted = true) :
    c.pCsa ≠ c.pCsb ∧ c.pCsa ≠ c.pSck ∧ c.pCsa ≠ c.pMosi ∧ c.pCsa ≠ c.pHold ∧ c.pCsb ≠ c.pSck ∧ c.pCsb ≠ c.pMosi
      ∧ c.pCsb ≠ c.pHold ∧ c.pSck ≠ c.pMosi ∧ c.pSck ≠ c.pHold ∧ c.pMosi ≠ c.pHold := by
  simp only [Config.pinsAdmitted, Bool.and_eq_true] at h
  have hn : c.positions.Nodup := of_decide_eq_true h.1.1.1.2
  simp only [Config.positions, List.nodup_cons, List.mem_cons, not_or] at hn
  tauto

/-- Unpacking a packed vector gives its line vector back (R147). -/
theorem lineVectorOf_pack {c : Config} (h : c.pinsAdmitted = true) (lv : LineVector) (hold : HoldState) :
    lineVectorOf c (pack c lv hold) = lv := by
  obtain ⟨h1, h2, h3, h4, h5, h6, h7, h8, h9, h10⟩ := positions_distinct h
  obtain ⟨s, k, d⟩ := lv
  have hs : selectorOf c (pack c ⟨s, k, d⟩ hold) = s := by
    simp only [selectorOf, testBit_pack]
    cases s <;> cases hc : c.csActive <;>
      simp [csLevel, hc, h1, h2, h3, h4, h5, h6, h7, Ne.symm h1]
  simp only [lineVectorOf, hs, testBit_pack]
  simp [h8, h9, h10, Ne.symm h2, Ne.symm h3, Ne.symm h5, Ne.symm h6, Ne.symm h8]

theorem isLineVector_pack {c : Config} (h : c.pinsAdmitted = true) (lv : LineVector) :
    isLineVector c (pack c lv .asserted) = true := by
  simp [isLineVector, lineVectorOf_pack h]

theorem unpackAll_pack {c : Config} (h : c.pinsAdmitted = true) (lvs : List LineVector) :
    unpackAll c (lvs.map fun lv => pack c lv .asserted) = some lvs := by
  have hall : (lvs.map fun lv => pack c lv .asserted).all (isLineVector c) = true := by
    simp [isLineVector_pack h]
  simp [unpackAll, hall, Function.comp_def, lineVectorOf_pack h]

/-- A stream that unpacks is the packed form of its line vectors (R147). -/
theorem eq_map_pack_of_unpackAll {c : Config} {vs : List GpioVector} {lvs : List LineVector}
    (h : unpackAll c vs = some lvs) : vs = lvs.map fun lv => pack c lv .asserted := by
  simp only [unpackAll] at h
  split at h
  · rename_i hall
    obtain rfl := Option.some.inj h
    rw [List.map_map]
    refine (List.map_id vs).symm.trans (List.map_congr_left fun v hv => ?_)
    have := (List.all_eq_true.1 hall) v hv
    simp only [isLineVector, beq_iff_eq] at this; exact this.symm
  · cases h

/-! ### Frames -/

@[simp] theorem frame_length (s : Selector) (b : Byte) : (frame s b).length = 16 := rfl

@[simp] theorem frames_nil (s : Selector) : frames s [] = [] := rfl

@[simp] theorem frames_cons (s : Selector) (b : Byte) (bs : List Byte) :
    frames s (b :: bs) = frame s b ++ frames s bs := rfl

theorem frames_append (s : Selector) (xs ys : List Byte) : frames s (xs ++ ys) = frames s xs ++ frames s ys :=
  List.flatMap_append

theorem frames_singleton (s : Selector) (b : Byte) : frames s [b] = frame s b := by simp

/-- The length law (R143). -/
@[simp] theorem frames_length (s : Selector) (bs : List Byte) : (frames s bs).length = 16 * bs.length := by
  induction bs with
  | nil => rfl
  | cons b bs ih => simp [ih]; omega

/-- A frame ends with the clock high and bit 0 on the data line (R121 d). -/
theorem frame_eq_append_last (s : Selector) (b : Byte) :
    frame s b = (frame s b).take 15 ++ [⟨s, true, b.getLsbD 0⟩] := rfl

end Sys2Proof
end

