-- ==== Sys2Proof/Laws/Memory.lean ====
section
/-! SUPPORT. The laws of the stream buffer: every store keeps the canonical form; a read after a store; a run is its
reads in order. -/

namespace Sys2Proof.Machine

/-! ### Cells -/

theorem cells_eq_nil_iff (off : Nat) (vs : List GpioVector) : Memory.cells off vs = [] ↔ vs = [] := by
  cases vs <;> simp [Memory.cells]

theorem mem_cells {off : Nat} {vs : List GpioVector} {x : Nat × GpioVector} (h : x ∈ Memory.cells off vs) :
    off ≤ x.1 ∧ x.1 < off + vs.length := by
  induction vs generalizing off with
  | nil => simp [Memory.cells] at h
  | cons v vs ih =>
    simp only [Memory.cells, List.mem_cons, List.length_cons] at h ⊢
    rcases h with rfl | h
    · exact ⟨Nat.le_refl _, by simp⟩
    · have := ih h; omega

theorem cells_wf (off : Nat) (vs : List GpioVector) : (Memory.cells off vs).wf := by
  induction vs generalizing off with
  | nil => exact List.Pairwise.nil
  | cons v vs ih =>
    refine List.Pairwise.cons (fun x hx => ?_) (ih _)
    have := mem_cells hx
    simp only; omega

theorem cells_append (off : Nat) (xs ys : List GpioVector) :
    Memory.cells off (xs ++ ys) = Memory.cells off xs ++ Memory.cells (off + xs.length) ys := by
  induction xs generalizing off with
  | nil => simp [Memory.cells]
  | cons x xs ih =>
    simp only [List.cons_append, Memory.cells, ih, List.length_cons]
    congr 3; omega

theorem lookup_cells (off : Nat) (vs : List GpioVector) (a : Nat) :
    (Memory.cells off vs).lookup a = if off ≤ a then vs[a - off]? else none := by
  induction vs generalizing off with
  | nil => simp [Memory.cells]
  | cons v vs ih =>
    simp only [Memory.cells, List.lookup_cons, ih]
    by_cases h : a = off
    · subst h; simp
    · have hne : (a == off) = false := by simpa using h
      rw [hne]
      by_cases hle : off ≤ a
      · have h1 : off + 1 ≤ a := by omega
        obtain ⟨k, rfl⟩ : ∃ k, a = off + 1 + k := ⟨a - (off + 1), by omega⟩
        have e1 : off + 1 + k - off = k + 1 := by omega
        simp [e1, h1, hle]
      · have h1 : ¬ off + 1 ≤ a := by omega
        simp [hle, h1]

/-! ### The canonical form -/

/-- Every store keeps the canonical form. -/
theorem store_wf {m : Memory} (h : m.wf) (off : Nat) (vs : List GpioVector) : (m.store off vs).wf := by
  have hf : ∀ p : Nat × GpioVector → Bool, Memory.wf (m.filter p) := fun p => List.Pairwise.filter p h
  refine List.pairwise_append.2 ⟨List.pairwise_append.2 ⟨hf _, cells_wf _ _, ?_⟩, hf _, ?_⟩
  · intro x hx y hy
    have h1 := (List.mem_filter.1 hx).2
    have h2 := mem_cells hy
    simp only [decide_eq_true_eq] at h1
    omega
  · intro x hx y hy
    have h2 := (List.mem_filter.1 hy).2
    simp only [decide_eq_true_eq] at h2
    rcases List.mem_append.1 hx with hx | hx
    · have h1 := (List.mem_filter.1 hx).2
      simp only [decide_eq_true_eq] at h1
      omega
    · have := mem_cells hx; omega

/-- A store adds only the offsets it stores to. -/
theorem mem_store {m : Memory} {off : Nat} {vs : List GpioVector} {x : Nat × GpioVector} (h : x ∈ m.store off vs) :
    x ∈ m ∨ (off ≤ x.1 ∧ x.1 < off + vs.length) := by
  rcases List.mem_append.1 h with h | h
  · rcases List.mem_append.1 h with h | h
    · exact .inl (List.mem_filter.1 h).1
    · exact .inr (mem_cells h)
  · exact .inl (List.mem_filter.1 h).1

theorem reset_buffer_wf : Memory.wf [] := List.Pairwise.nil

/-! ### Reads after stores -/

theorem lookup_filter_of_true {m : Memory} {p : Nat → Bool} {a : Nat} (h : p a = true) :
    (m.filter fun x => p x.1).lookup a = m.lookup a := by
  induction m with
  | nil => rfl
  | cons x m ih =>
    obtain ⟨b, v⟩ := x
    by_cases hx : a = b
    · subst hx; simp [h]
    · have hne : (a == b) = false := by simpa using hx
      by_cases hp : p b <;> simp [hp, List.lookup_cons, hne, ih]

theorem lookup_filter_of_false {m : Memory} {p : Nat → Bool} {a : Nat} (h : p a = false) :
    (m.filter fun x => p x.1).lookup a = none := by
  induction m with
  | nil => rfl
  | cons x m ih =>
    obtain ⟨b, v⟩ := x
    by_cases hp : p b
    · have hne : (a == b) = false := by
        rw [beq_eq_false_iff_ne]; rintro rfl; simp [h] at hp
      rw [List.filter_cons_of_pos (by simpa using hp), List.lookup_cons, hne]; exact ih
    · rw [List.filter_cons_of_neg (by simpa using hp)]; exact ih

/-- A read after a store: the vector stored inside the run, what was there before outside it. -/
theorem read_store (m : Memory) (off : Nat) (vs : List GpioVector) (a : Nat) :
    (m.store off vs).read a =
      if off ≤ a ∧ a < off + vs.length then vs[a - off]? else m.read a := by
  have hlo := @lookup_filter_of_true m (fun i => decide (i < off)) a
  have hlo' := @lookup_filter_of_false m (fun i => decide (i < off)) a
  have hhi := @lookup_filter_of_true m (fun i => decide (off + vs.length ≤ i)) a
  have hhi' := @lookup_filter_of_false m (fun i => decide (off + vs.length ≤ i)) a
  simp only [decide_eq_true_eq, decide_eq_false_iff_not] at hlo hlo' hhi hhi'
  simp only [Memory.store, Memory.read, List.lookup_append, lookup_cells]
  by_cases h1 : a < off
  · have h2 : ¬ off ≤ a := by omega
    have h3 : ¬ off + vs.length ≤ a := by omega
    simp [hlo h1, hhi' h3, h2]
  · have h2 : off ≤ a := by omega
    by_cases h3 : a < off + vs.length
    · have h4 : ¬ off + vs.length ≤ a := by omega
      simp [hlo' h1, hhi' h4, h2, h3]
    · have h4 : off + vs.length ≤ a := by omega
      have h5 : vs[a - off]? = none := List.getElem?_eq_none (by omega)
      simp [hlo' h1, hhi h4, h2, h3, h5]

theorem read_store_outside {m : Memory} {off : Nat} {vs : List GpioVector} {a : Nat}
    (h : a < off ∨ off + vs.length ≤ a) : (m.store off vs).read a = m.read a := by
  rw [read_store, if_neg (by omega)]

theorem read_store_inside {m : Memory} {off : Nat} {vs : List GpioVector} {k : Nat} (h : k < vs.length) :
    (m.store off vs).read (off + k) = vs[k]? := by
  rw [read_store, if_pos (by omega), Nat.add_sub_cancel_left]

/-! ### Two stores in a row -/

/-- A store that begins at the last offset of the one before overwrites that one vector (R141's corner case: the later
assemble overwrites the sentinel of the earlier). -/
theorem store_store_sentinel (m : Memory) (off : Nat) (xs ys : List GpioVector) (z : GpioVector) (hy : ys ≠ []) :
    (m.store off (xs ++ [z])).store (off + xs.length) ys = m.store off (xs ++ ys) := by
  have hlen : 0 < ys.length := List.length_pos_iff.2 hy
  have hc : ∀ x ∈ Memory.cells off xs, x.1 < off + xs.length := fun x hx => (mem_cells hx).2
  simp only [Memory.store, List.filter_append, cells_append, List.length_append, List.length_cons, List.length_nil,
    List.filter_filter, Memory.cells, List.filter_cons, List.filter_nil]
  have e1 : m.filter (fun x => decide (x.1 < off + xs.length) && decide (x.1 < off))
      = m.filter (fun x => decide (x.1 < off)) := List.filter_congr (by intro x _; grind)
  have e2 : (Memory.cells off xs).filter (fun x => decide (x.1 < off + xs.length)) = Memory.cells off xs :=
    List.filter_eq_self.2 (by simpa using hc)
  have e3 : m.filter (fun x => decide (x.1 < off + xs.length) && decide (off + (xs.length + (0 + 1)) ≤ x.1)) = [] :=
    List.filter_eq_nil_iff.2 (by intro x _; grind)
  have e4 : m.filter (fun x => decide (off + xs.length + ys.length ≤ x.1) && decide (x.1 < off)) = [] :=
    List.filter_eq_nil_iff.2 (by intro x _; grind)
  have e5 : (Memory.cells off xs).filter (fun x => decide (off + xs.length + ys.length ≤ x.1)) = [] :=
    List.filter_eq_nil_iff.2 (by intro x hx; have := hc x hx; simp; omega)
  have e6 : m.filter (fun x => decide (off + xs.length + ys.length ≤ x.1)
        && decide (off + (xs.length + (0 + 1)) ≤ x.1))
      = m.filter (fun x => decide (off + (xs.length + ys.length) ≤ x.1)) :=
    List.filter_congr (by intro x _; grind)
  have e7 : ¬ off + xs.length + ys.length ≤ off + xs.length := by omega
  simp [e1, e2, e3, e4, e5, e6, e7]

/-! ### Runs -/

theorem lookup_eq_none_of_lt {m : Memory} {a : Nat} (h : ∀ x ∈ m, a < x.1) : m.lookup a = none := by
  induction m with
  | nil => rfl
  | cons x m ih =>
    obtain ⟨b, v⟩ := x
    have hb : a < b := h (b, v) (by simp)
    have hne : (a == b) = false := by simp; omega
    rw [List.lookup_cons, hne]
    exact ih fun x hx => h x (by simp [hx])

/-- What `covers` checks of a canonical buffer. -/
theorem covers_iff {m : Memory} (h : m.wf) (off n : Nat) :
    m.covers off n = true ↔ ∀ k, k < n → (m.read (off + k)).isSome := by
  induction m generalizing off n with
  | nil =>
    cases n with
    | zero => simp [Memory.covers]
    | succ n => simpa [Memory.covers, Memory.read] using ⟨0, Nat.zero_le n⟩
  | cons x m ih =>
    obtain ⟨a, v⟩ := x
    obtain ⟨hlt, hm⟩ := List.pairwise_cons.1 h
    cases n with
    | zero => simp [Memory.covers]
    | succ n =>
      have hread : ∀ b, a ≠ b → Memory.read ((a, v) :: m) b = Memory.read m b := by
        intro b hb
        have hne : (b == a) = false := by simp; omega
        simp [Memory.read, List.lookup_cons, hne]
      simp only [Memory.covers]
      split
      · rename_i hlo
        rw [ih hm]
        exact forall_congr' fun k => imp_congr_right fun _ => by rw [hread _ (by omega)]
      · rename_i hlo
        rw [Bool.and_eq_true, beq_iff_eq, ih hm]
        constructor
        · rintro ⟨rfl, hk⟩ k hkn
          cases k with
          | zero => simp [Memory.read]
          | succ k =>
            rw [hread _ (by omega), show a + (k + 1) = a + 1 + k by omega]
            exact hk k (by omega)
        · intro hk
          have ha : a = off := by
            by_contra hne
            have h0 := hk 0 (by omega)
            rw [Nat.add_zero, hread _ hne] at h0
            have hnone : Memory.read m off = none := lookup_eq_none_of_lt fun x hx => by have := hlt x hx; simp at this; omega
            simp [hnone] at h0
          refine ⟨ha, fun k hkn => ?_⟩
          subst ha
          have h1 := hk (k + 1) (by omega)
          rwa [hread _ (by omega), show a + (k + 1) = a + 1 + k by omega] at h1

/-- The vectors a covered run of a canonical buffer gives. -/
theorem run_values {m : Memory} (h : m.wf) {off n : Nat} (hc : m.covers off n = true) :
    (((m.dropWhile fun x => decide (x.1 < off)).take n).map Prod.snd).length = n
      ∧ ∀ k, k < n → m.read (off + k) = (((m.dropWhile fun x => decide (x.1 < off)).take n).map Prod.snd)[k]? := by
  induction m generalizing off n with
  | nil =>
    cases n with
    | zero => simp
    | succ n => simp [Memory.covers] at hc
  | cons x m ih =>
    obtain ⟨a, v⟩ := x
    obtain ⟨hlt, hm⟩ := List.pairwise_cons.1 h
    have hread : ∀ b, a ≠ b → Memory.read ((a, v) :: m) b = Memory.read m b := by
      intro b hb
      have hne : (b == a) = false := by simp; omega
      simp [Memory.read, List.lookup_cons, hne]
    cases n with
    | zero => simp
    | succ n =>
      simp only [Memory.covers] at hc
      split at hc
      · rename_i hlo
        rw [List.dropWhile_cons_of_pos (by simpa using hlo)]
        obtain ⟨h1, h2⟩ := ih hm hc
        exact ⟨h1, fun k hk => by rw [hread _ (by omega)]; exact h2 k hk⟩
      · rename_i hlo
        rw [Bool.and_eq_true, beq_iff_eq] at hc
        obtain ⟨rfl, hc⟩ := hc
        rw [List.dropWhile_cons_of_neg (by simp), List.take_succ_cons, List.map_cons]
        have hdw : (m.dropWhile fun x => decide (x.1 < a + 1)) = m := by
          cases m with
          | nil => rfl
          | cons y m =>
            refine List.dropWhile_cons_of_neg ?_
            have := hlt y (by simp)
            simp at this ⊢; omega
        obtain ⟨h1, h2⟩ := ih hm hc
        rw [hdw] at h1 h2
        refine ⟨by simpa using h1, fun k hk => ?_⟩
        cases k with
        | zero => simp [Memory.read]
        | succ k =>
          rw [hread _ (by omega), show a + (k + 1) = a + 1 + k by omega, List.getElem?_cons_succ]
          exact h2 k (by omega)

/-- A run of a canonical buffer is its reads in order (R293 b). -/
theorem run_eq_some_iff {m : Memory} (h : m.wf) (off n : Nat) (vs : List GpioVector) :
    m.run off n = some vs ↔ vs.length = n ∧ ∀ k, k < n → m.read (off + k) = vs[k]? := by
  simp only [Memory.run]
  constructor
  · intro hr
    split at hr
    · rename_i hc
      obtain rfl := Option.some.inj hr
      exact run_values h hc
    · cases hr
  · rintro ⟨hlen, hk⟩
    have hc : m.covers off n = true := (covers_iff h off n).2 fun k hkn => by
      rw [hk k hkn, List.getElem?_eq_getElem (by omega)]; rfl
    obtain ⟨h1, h2⟩ := run_values h hc
    rw [if_pos hc]
    congr 1
    refine List.ext_getElem? fun k => ?_
    by_cases hkn : k < n
    · rw [← h2 k hkn, hk k hkn]
    · rw [List.getElem?_eq_none (by omega), List.getElem?_eq_none (by omega)]

end Sys2Proof.Machine
end

