-- ==== Sys2Proof/Laws/State.lean ====
section
/-! SUPPORT. One lemma per field for each named update of the state, so that no proof unfolds a record update. -/

namespace Sys2Proof.Machine

variable (s : State) (ev : Event) (lv : LineVector) (h : HoldState) (k : ErrKind)

/-! ### `State.emit` -/

@[simp] theorem State_emit_cfg : (s.emit ev).cfg = s.cfg := rfl
@[simp] theorem State_emit_pins : (s.emit ev).pins = s.pins := rfl
@[simp] theorem State_emit_buf : (s.emit ev).buf = s.buf := rfl
@[simp] theorem State_emit_blen : (s.emit ev).blen = s.blen := rfl
@[simp] theorem State_emit_rx : (s.emit ev).rx = s.rx := rfl
@[simp] theorem State_emit_status : (s.emit ev).status = s.status := rfl
@[simp] theorem State_emit_ident : (s.emit ev).ident = s.ident := rfl
@[simp] theorem State_emit_dev : (s.emit ev).dev = s.dev := rfl
@[simp] theorem State_emit_record : (s.emit ev).record = s.record := rfl
@[simp] theorem State_emit_attempts : (s.emit ev).attempts = s.attempts := rfl
@[simp] theorem State_emit_st : (s.emit ev).st = s.st := rfl
@[simp] theorem State_emit_estep : (s.emit ev).estep = s.estep := rfl
@[simp] theorem State_emit_page : (s.emit ev).page = s.page := rfl
@[simp] theorem State_emit_result : (s.emit ev).result = s.result := rfl
@[simp] theorem State_emit_err : (s.emit ev).err = s.err := rfl
@[simp] theorem State_emit_errstep : (s.emit ev).errstep = s.errstep := rfl
@[simp] theorem State_emit_trace : (s.emit ev).trace = s.trace ++ [ev] := rfl
@[simp] theorem State_emit_phase : (s.emit ev).phase = s.phase := rfl
@[simp] theorem State_emit_port : (s.emit ev).port = s.port := rfl
@[simp] theorem State_emit_env : (s.emit ev).env = s.env := rfl

/-! ### `State.drive` -/

@[simp] theorem State_drive_cfg : (s.drive lv).cfg = s.cfg := rfl
@[simp] theorem State_drive_pins : (s.drive lv).pins = ⟨lv.sel, lv.sck, lv.mosi, s.pins.hold⟩ := rfl
@[simp] theorem State_drive_buf : (s.drive lv).buf = s.buf := rfl
@[simp] theorem State_drive_blen : (s.drive lv).blen = s.blen := rfl
@[simp] theorem State_drive_rx : (s.drive lv).rx = s.rx := rfl
@[simp] theorem State_drive_status : (s.drive lv).status = s.status := rfl
@[simp] theorem State_drive_ident : (s.drive lv).ident = s.ident := rfl
@[simp] theorem State_drive_dev : (s.drive lv).dev = s.dev := rfl
@[simp] theorem State_drive_record : (s.drive lv).record = s.record := rfl
@[simp] theorem State_drive_attempts : (s.drive lv).attempts = s.attempts := rfl
@[simp] theorem State_drive_st : (s.drive lv).st = s.st := rfl
@[simp] theorem State_drive_estep : (s.drive lv).estep = s.estep := rfl
@[simp] theorem State_drive_page : (s.drive lv).page = s.page := rfl
@[simp] theorem State_drive_result : (s.drive lv).result = s.result := rfl
@[simp] theorem State_drive_err : (s.drive lv).err = s.err := rfl
@[simp] theorem State_drive_errstep : (s.drive lv).errstep = s.errstep := rfl
@[simp] theorem State_drive_trace : (s.drive lv).trace = s.trace := rfl
@[simp] theorem State_drive_phase : (s.drive lv).phase = s.phase := rfl
@[simp] theorem State_drive_port : (s.drive lv).port = s.port := rfl
@[simp] theorem State_drive_env : (s.drive lv).env = s.env := rfl

/-! ### `State.setHold` -/

@[simp] theorem State_setHold_cfg : (s.setHold h).cfg = s.cfg := rfl
@[simp] theorem State_setHold_pins : (s.setHold h).pins = ⟨s.pins.sel, s.pins.sck, s.pins.mosi, h⟩ := rfl
@[simp] theorem State_setHold_buf : (s.setHold h).buf = s.buf := rfl
@[simp] theorem State_setHold_blen : (s.setHold h).blen = s.blen := rfl
@[simp] theorem State_setHold_rx : (s.setHold h).rx = s.rx := rfl
@[simp] theorem State_setHold_status : (s.setHold h).status = s.status := rfl
@[simp] theorem State_setHold_ident : (s.setHold h).ident = s.ident := rfl
@[simp] theorem State_setHold_dev : (s.setHold h).dev = s.dev := rfl
@[simp] theorem State_setHold_record : (s.setHold h).record = s.record := rfl
@[simp] theorem State_setHold_attempts : (s.setHold h).attempts = s.attempts := rfl
@[simp] theorem State_setHold_st : (s.setHold h).st = s.st := rfl
@[simp] theorem State_setHold_estep : (s.setHold h).estep = s.estep := rfl
@[simp] theorem State_setHold_page : (s.setHold h).page = s.page := rfl
@[simp] theorem State_setHold_result : (s.setHold h).result = s.result := rfl
@[simp] theorem State_setHold_err : (s.setHold h).err = s.err := rfl
@[simp] theorem State_setHold_errstep : (s.setHold h).errstep = s.errstep := rfl
@[simp] theorem State_setHold_trace : (s.setHold h).trace = s.trace := rfl
@[simp] theorem State_setHold_phase : (s.setHold h).phase = s.phase := rfl
@[simp] theorem State_setHold_port : (s.setHold h).port = s.port := rfl
@[simp] theorem State_setHold_env : (s.setHold h).env = s.env := rfl

/-! ### `recordFault` -/

@[simp] theorem recordFault_cfg : (recordFault k s).cfg = s.cfg := rfl
@[simp] theorem recordFault_pins : (recordFault k s).pins = s.pins := rfl
@[simp] theorem recordFault_buf : (recordFault k s).buf = s.buf := rfl
@[simp] theorem recordFault_blen : (recordFault k s).blen = s.blen := rfl
@[simp] theorem recordFault_rx : (recordFault k s).rx = s.rx := rfl
@[simp] theorem recordFault_status : (recordFault k s).status = s.status := rfl
@[simp] theorem recordFault_ident : (recordFault k s).ident = s.ident := rfl
@[simp] theorem recordFault_dev : (recordFault k s).dev = s.dev := rfl
@[simp] theorem recordFault_record : (recordFault k s).record = s.record := rfl
@[simp] theorem recordFault_attempts : (recordFault k s).attempts = s.attempts := rfl
@[simp] theorem recordFault_st : (recordFault k s).st = .failed := rfl
@[simp] theorem recordFault_estep : (recordFault k s).estep = s.estep := rfl
@[simp] theorem recordFault_page : (recordFault k s).page = s.page := rfl
@[simp] theorem recordFault_result : (recordFault k s).result = .fail := rfl
@[simp] theorem recordFault_err : (recordFault k s).err = k := rfl
@[simp] theorem recordFault_errstep : (recordFault k s).errstep = currentStep s := rfl
@[simp] theorem recordFault_trace : (recordFault k s).trace = s.trace := rfl
@[simp] theorem recordFault_phase : (recordFault k s).phase = .rest := rfl
@[simp] theorem recordFault_port : (recordFault k s).port = s.port := rfl
@[simp] theorem recordFault_env : (recordFault k s).env = s.env := rfl

/-! ### `State.toReset` -/

@[simp] theorem State_toReset_cfg : (s.toReset).cfg = s.cfg := rfl
@[simp] theorem State_toReset_pins : (s.toReset).pins = ⟨.selIdle, false, false, .released⟩ := rfl
@[simp] theorem State_toReset_buf : (s.toReset).buf = [] := rfl
@[simp] theorem State_toReset_blen : (s.toReset).blen = 0 := rfl
@[simp] theorem State_toReset_rx : (s.toReset).rx = none := rfl
@[simp] theorem State_toReset_status : (s.toReset).status = none := rfl
@[simp] theorem State_toReset_ident : (s.toReset).ident = none := rfl
@[simp] theorem State_toReset_dev : (s.toReset).dev = .none := rfl
@[simp] theorem State_toReset_record : (s.toReset).record = none := rfl
@[simp] theorem State_toReset_attempts : (s.toReset).attempts = 0 := rfl
@[simp] theorem State_toReset_st : (s.toReset).st = .idle := rfl
@[simp] theorem State_toReset_estep : (s.toReset).estep = 0 := rfl
@[simp] theorem State_toReset_page : (s.toReset).page = 0 := rfl
@[simp] theorem State_toReset_result : (s.toReset).result = .none := rfl
@[simp] theorem State_toReset_err : (s.toReset).err = .none := rfl
@[simp] theorem State_toReset_errstep : (s.toReset).errstep = .none := rfl
@[simp] theorem State_toReset_trace : (s.toReset).trace = [] := rfl
@[simp] theorem State_toReset_phase : (s.toReset).phase = .rest := rfl
@[simp] theorem State_toReset_port : (s.toReset).port = [] := rfl
@[simp] theorem State_toReset_env : (s.toReset).env = s.env := rfl

/-! ### `endRun` -/

@[simp] theorem endRun_cfg : (endRun s).cfg = s.cfg := rfl
@[simp] theorem endRun_pins : (endRun s).pins = s.pins := rfl
@[simp] theorem endRun_buf : (endRun s).buf = s.buf := rfl
@[simp] theorem endRun_blen : (endRun s).blen = s.blen := rfl
@[simp] theorem endRun_rx : (endRun s).rx = s.rx := rfl
@[simp] theorem endRun_status : (endRun s).status = s.status := rfl
@[simp] theorem endRun_ident : (endRun s).ident = s.ident := rfl
@[simp] theorem endRun_dev : (endRun s).dev = s.dev := rfl
@[simp] theorem endRun_record : (endRun s).record = s.record := rfl
@[simp] theorem endRun_attempts : (endRun s).attempts = s.attempts := rfl
@[simp] theorem endRun_st : (endRun s).st = .idle := rfl
@[simp] theorem endRun_estep : (endRun s).estep = s.estep := rfl
@[simp] theorem endRun_page : (endRun s).page = s.page := rfl
@[simp] theorem endRun_result : (endRun s).result = .ok := rfl
@[simp] theorem endRun_err : (endRun s).err = s.err := rfl
@[simp] theorem endRun_errstep : (endRun s).errstep = s.errstep := rfl
@[simp] theorem endRun_trace : (endRun s).trace = s.trace := rfl
@[simp] theorem endRun_phase : (endRun s).phase = .rest := rfl
@[simp] theorem endRun_port : (endRun s).port = s.port := rfl
@[simp] theorem endRun_env : (endRun s).env = s.env := rfl

/-! ### `driveAll`: the pins hold the last vector of the list (R114) -/

theorem driveAll_eq (s : State) (lvs : List LineVector) :
    s.driveAll lvs = match lvs.getLast? with
      | none => s
      | some lv => s.drive lv := by
  induction lvs generalizing s with
  | nil => rfl
  | cons lv lvs ih =>
    have hstep : s.driveAll (lv :: lvs) = (s.drive lv).driveAll lvs := rfl
    rw [hstep, ih]
    cases lvs with
    | nil => rfl
    | cons lv' rest =>
      obtain ⟨x, hx⟩ : ∃ x, (lv' :: rest).getLast? = some x := ⟨_, List.getLast?_cons⟩
      rw [List.getLast?_cons_cons, hx]
      rfl

@[simp] theorem driveAll_append_single (s : State) (lvs : List LineVector) (lv : LineVector) :
    s.driveAll (lvs ++ [lv]) = s.drive lv := by
  rw [driveAll_eq, List.getLast?_concat]

/-! ### `Env.atStart` -/

@[simp] theorem Env_atStart_calls (e : Env) : e.atStart.calls = e.calls := rfl
@[simp] theorem Env_atStart_samples (e : Env) : e.atStart.samples = e.samples := rfl
@[simp] theorem Env_atStart_drawn (e : Env) : e.atStart.drawn = e.drawn := rfl
@[simp] theorem Env_atStart_image (e : Env) : e.atStart.image = e.nextImage := rfl
@[simp] theorem Env_atStart_laterImages (e : Env) : e.atStart.laterImages = e.laterImages.tail := rfl
@[simp] theorem Env_atStart_host (e : Env) : e.atStart.host = e.host := rfl

end Sys2Proof.Machine
end

