-- ==== Sys2Proof/Laws/Ops.lean ====
section
/-! SUPPORT. One lemma per shared operation that says what it can do: the sequencing of operations, the transport
calls, the decoder, the assembler, transmission, and fault entry. -/

namespace Sys2Proof.Machine

/-! ### Sequencing -/

@[simp] theorem bind_ok {α β : Type} (a : α) (s : State) (k : α → State → Res β) : (Res.ok a s).bind k = k a s := rfl
@[simp] theorem bind_raised {α β : Type} (f : EngineFault) (s : State) (k : α → State → Res β) :
    (Res.raised f s).bind k = .raised f s := rfl
@[simp] theorem bind_reset {α β : Type} (s : State) (k : α → State → Res β) : (Res.reset s).bind k = .reset s := rfl
@[simp] theorem bind_stop {α β : Type} (f : Fault) (k : α → State → Res β) : (Res.stop f).bind k = .stop f := rfl

theorem bind_assoc {α β γ : Type} (r : Res α) (k : α → State → Res β) (l : β → State → Res γ) :
    (r.bind k).bind l = r.bind fun a s => (k a s).bind l := by
  cases r <;> rfl

@[simp] theorem bind_pure {α : Type} (r : Res α) : (r.bind fun a s => .ok a s) = r := by
  cases r <;> rfl

theorem bind_eq_ok_iff {α β : Type} {r : Res α} {k : α → State → Res β} {b : β} {t : State} :
    r.bind k = .ok b t ↔ ∃ a s, r = .ok a s ∧ k a s = .ok b t := by
  cases r <;> simp

@[simp] theorem finish_ok {α : Type} (a : α) (s : State) : finish (Res.ok a s) = .next s := rfl
@[simp] theorem finish_raised {α : Type} (f : EngineFault) (s : State) :
    finish (Res.raised f s : Res α) = .next (faultEntry f s) := rfl
@[simp] theorem finish_reset {α : Type} (s : State) : finish (Res.reset s : Res α) = .next s := rfl
@[simp] theorem finish_stop {α : Type} (f : Fault) : finish (Res.stop f : Res α) = .fault f := rfl

/-- How a step that ends an operation can have a next state. -/
theorem finish_eq_next_iff {α : Type} {r : Res α} {t : State} :
    finish r = .next t ↔ (∃ a, r = .ok a t) ∨ (∃ f s, r = .raised f s ∧ t = faultEntry f s) ∨ r = .reset t := by
  cases r <;> simp [finish, eq_comm]

/-! ### The environment -/

/-- The state after `n` transport calls that completed: `n` outcomes used up. -/
def dropCalls (n : Nat) (s : State) : State :=
  { s with env.calls := s.env.calls.drop n }

theorem dropCalls_zero (s : State) : dropCalls 0 s = s := rfl

theorem dropCalls_add (m n : Nat) (s : State) : dropCalls n (dropCalls m s) = dropCalls (m + n) s := by
  simp [dropCalls, List.drop_drop]

theorem calm_drop {s : State} (h : s.calm) (n : Nat) : (dropCalls n s).calm :=
  fun o ho => h o (List.mem_of_mem_drop ho)

theorem nextOutcome_calm {s : State} (h : s.calm) : nextOutcome s = (.completes, dropCalls 1 s) := by
  obtain ⟨cfg, pins, buf, blen, rx, status, ident, dev, record, attempts, st, estep, page, result, err, errstep, trace,
    phase, port, ⟨calls, samples, drawn, image, laterImages, host⟩⟩ := s
  cases calls with
  | nil => rfl
  | cons o os =>
    obtain rfl : o = .completes := h o (by simp)
    rfl

/-- The three ways a transport call ends (R116, R241, R260). -/
theorem nextOutcome_cases (s : State) :
    nextOutcome s = (.completes, dropCalls 1 s) ∨ (∃ p, nextOutcome s = (.faults p, dropCalls 1 s))
      ∨ nextOutcome s = (.reset, dropCalls 1 s) := by
  obtain ⟨cfg, pins, buf, blen, rx, status, ident, dev, record, attempts, st, estep, page, result, err, errstep, trace,
    phase, port, ⟨calls, samples, drawn, image, laterImages, host⟩⟩ := s
  cases calls with
  | nil => exact .inl rfl
  | cons o os =>
    cases o with
    | completes => exact .inl rfl
    | faults p => exact .inr (.inl ⟨p, rfl⟩)
    | reset => exact .inr (.inr rfl)

/-! ### Transport calls -/

theorem transportCall_calm {s : State} (h : s.calm) (c : Call) (effect : State → State) :
    transportCall c effect s = .ok () (effect (dropCalls 1 s)) := by
  simp [transportCall, nextOutcome_calm h]

/-- Everything a transport call can do. -/
theorem transportCall_cases (c : Call) (effect : State → State) (s : State) :
    transportCall c effect s = .ok () (effect (dropCalls 1 s))
      ∨ (∃ p, transportCall c effect s = .raised (.transport c) { dropCalls 1 s with pins := p })
      ∨ transportCall c effect s = .reset (dropCalls 1 s).toReset := by
  rcases nextOutcome_cases s with h | ⟨p, h⟩ | h
  · exact .inl (by simp [transportCall, h])
  · exact .inr (.inl ⟨p, by simp [transportCall, h]⟩)
  · exact .inr (.inr (by simp [transportCall, h]))

theorem write_calm {s : State} (h : s.calm) (lvs : List LineVector) :
    write lvs s = .ok () (((dropCalls 1 s).driveAll lvs).emit (.write lvs)) :=
  transportCall_calm h _ _

theorem select_calm {s : State} (h : s.calm) (sel : Selector) :
    select sel s = .ok () (((dropCalls 1 s).drive ⟨sel, false, false⟩).emit (.select sel)) :=
  transportCall_calm h _ _

theorem readPins_calm {s : State} (h : s.calm) :
    readPins s = .ok (dataIn s.cfg (nextSample s.env).1)
      (State.emit { s with env := envAfter 1 1 s } (.sample (dataIn s.cfg (nextSample s.env).1))) := by
  obtain ⟨cfg, pins, buf, blen, rx, status, ident, dev, record, attempts, st, estep, page, result, err, errstep, trace,
    phase, port, ⟨calls, samples, drawn, image, laterImages, host⟩⟩ := s
  simp only [readPins, nextOutcome_calm h]
  cases samples <;> rfl

/-- Everything `read_pins()` can do. -/
theorem readPins_cases (s : State) :
    (∃ m, readPins s = .ok m (State.emit { s with env := envAfter 1 1 s } (.sample m)))
      ∨ (∃ p, readPins s = .raised (.transport .readPins) { dropCalls 1 s with pins := p })
      ∨ readPins s = .reset (dropCalls 1 s).toReset := by
  obtain ⟨cfg, pins, buf, blen, rx, status, ident, dev, record, attempts, st, estep, page, result, err, errstep, trace,
    phase, port, ⟨calls, samples, drawn, image, laterImages, host⟩⟩ := s
  rcases nextOutcome_cases ⟨cfg, pins, buf, blen, rx, status, ident, dev, record, attempts, st, estep, page, result,
    err, errstep, trace, phase, port, ⟨calls, samples, drawn, image, laterImages, host⟩⟩ with h | ⟨p, h⟩ | h
  · left; simp only [readPins, h]; cases samples <;> exact ⟨_, rfl⟩
  · exact .inr (.inl ⟨p, by simp [readPins, h]⟩)
  · exact .inr (.inr (by simp [readPins, h]))

end Sys2Proof.Machine
end

