-- ==== Sys2Proof/Laws/Spi.lean ====
section
/-! SUPPORT. What a decode does when its calls complete: the bytes it returns and the state it leaves (R123, R124). -/

namespace Sys2Proof.Machine

/-! ### Samples and calls used up -/

@[simp] theorem skipSamples_calls (k : Nat) (e : Env) : (skipSamples k e).calls = e.calls := by
  induction k generalizing e with
  | zero => rfl
  | succ k ih =>
    obtain ⟨calls, samples, drawn, image, laterImages, host⟩ := e
    rw [skipSamples, ih]
    cases samples <;> rfl

@[simp] theorem skipSamples_image (k : Nat) (e : Env) : (skipSamples k e).image = e.image := by
  induction k generalizing e with
  | zero => rfl
  | succ k ih =>
    obtain ⟨calls, samples, drawn, image, laterImages, host⟩ := e
    rw [skipSamples, ih]
    cases samples <;> rfl

@[simp] theorem skipSamples_laterImages (k : Nat) (e : Env) : (skipSamples k e).laterImages = e.laterImages := by
  induction k generalizing e with
  | zero => rfl
  | succ k ih =>
    obtain ⟨calls, samples, drawn, image, laterImages, host⟩ := e
    rw [skipSamples, ih]
    cases samples <;> rfl

@[simp] theorem skipSamples_host (k : Nat) (e : Env) : (skipSamples k e).host = e.host := by
  induction k generalizing e with
  | zero => rfl
  | succ k ih =>
    obtain ⟨calls, samples, drawn, image, laterImages, host⟩ := e
    rw [skipSamples, ih]
    cases samples <;> rfl

theorem skipSamples_withCalls (k : Nat) (e : Env) (cs : List CallOutcome) :
    skipSamples k { e with calls := cs } = { skipSamples k e with calls := cs } := by
  induction k generalizing e with
  | zero => rfl
  | succ k ih =>
    obtain ⟨calls, samples, drawn, image, laterImages, host⟩ := e
    rw [skipSamples, skipSamples, ← ih]
    cases samples <;> rfl

theorem skipSamples_add (j k : Nat) (e : Env) : skipSamples k (skipSamples j e) = skipSamples (j + k) e := by
  induction j generalizing e with
  | zero => rw [Nat.zero_add]; rfl
  | succ j ih => rw [Nat.succ_add]; exact ih _

theorem upcomingSamples_withCalls (k : Nat) (e : Env) (cs : List CallOutcome) :
    upcomingSamples k { e with calls := cs } = upcomingSamples k e := by
  induction k generalizing e with
  | zero => rfl
  | succ k ih =>
    obtain ⟨calls, samples, drawn, image, laterImages, host⟩ := e
    cases samples with
    | nil => exact congrArg (List.cons _) (ih ⟨calls, [], drawn + 1, image, laterImages, host⟩)
    | cons v vs => exact congrArg (List.cons _) (ih ⟨calls, vs, drawn, image, laterImages, host⟩)

theorem upcomingSamples_add (j k : Nat) (e : Env) :
    upcomingSamples (j + k) e = upcomingSamples j e ++ upcomingSamples k (skipSamples j e) := by
  induction j generalizing e with
  | zero => rw [Nat.zero_add]; rfl
  | succ j ih => rw [Nat.succ_add]; simp [upcomingSamples, skipSamples, ih]

@[simp] theorem upcomingSamples_length (k : Nat) (e : Env) : (upcomingSamples k e).length = k := by
  induction k generalizing e with
  | zero => rfl
  | succ k ih => simp [upcomingSamples, ih]

@[simp] theorem upcomingBits_length (k : Nat) (s : State) : (upcomingBits k s).length = k := by simp [upcomingBits]

theorem envAfter_calm {s : State} (h : s.calm) (n k : Nat) (s' : State) (hs : s'.env = envAfter n k s) : s'.calm := by
  intro o ho
  rw [State.calm] at h
  rw [hs] at ho
  exact h o (List.mem_of_mem_drop ho)

theorem envAfter_envAfter {s s' : State} (m j n k : Nat) (hs : s'.env = envAfter m j s) :
    envAfter n k s' = envAfter (m + n) (j + k) s := by
  simp only [envAfter, hs, skipSamples_withCalls, skipSamples_add, List.drop_drop]

theorem envAfter_zero (s : State) : envAfter 0 0 s = s.env := rfl

theorem dropCalls_env (n : Nat) (s : State) : (dropCalls n s).env = envAfter n 0 s := rfl

theorem upcomingBits_envAfter {s s' : State} (m j k : Nat) (hs : s'.env = envAfter m j s) (hc : s'.cfg = s.cfg) :
    upcomingBits (j + k) s = upcomingBits j s ++ upcomingBits k s' := by
  simp only [upcomingBits, upcomingSamples_add, List.map_append, hs, hc, envAfter, upcomingSamples_withCalls]

/-! ### The decoder -/

/-- One bit cycle with the clock low (R123). -/
theorem decodeBits_calm {sel : Selector} {h : HoldState} (n : Nat) {acc : Byte} {s : State} (hc : s.calm)
    (hp : s.pins = ⟨sel, false, false, h⟩) (hr : s.rx = some acc) :
    decodeBits sel n acc s = .ok ((upcomingBits n s).foldl shiftIn acc)
      { s with
        rx := some ((upcomingBits n s).foldl shiftIn acc)
        trace := s.trace ++ bitCycleEvents sel (upcomingBits n s)
        env := envAfter (2 * n) n s } := by
  induction n generalizing acc s with
  | zero =>
    obtain ⟨cfg, pins, buf, blen, rx, status, ident, dev, record, attempts, st, estep, page, result, err, errstep, trace,
      phase, port, env⟩ := s
    simp only at hr
    subst hr
    simp [decodeBits, upcomingBits, upcomingSamples, bitCycleEvents, envAfter, skipSamples]
  | succ n ih =>
    set m := dataIn s.cfg (nextSample s.env).1 with hm
    let s1 : State := { State.emit { s with env := envAfter 1 1 s } (.sample m) with rx := some (shiftIn acc m) }
    have hc1 : s1.calm := envAfter_calm hc 1 1 s1 rfl
    let s2 : State := { s with
        rx := some (shiftIn acc m)
        trace := s.trace ++ [.sample m, .write [⟨sel, true, false⟩, ⟨sel, false, false⟩]]
        env := envAfter 2 1 s }
    have hw : write [⟨sel, true, false⟩, ⟨sel, false, false⟩] s1 = .ok () s2 := by
      rw [write_calm hc1]
      congr 1
      have he : (dropCalls 1 s1).env = envAfter 2 1 s := by
        rw [dropCalls_env, envAfter_envAfter 1 1 1 0 (show s1.env = envAfter 1 1 s from rfl)]
      have : ((dropCalls 1 s1).driveAll [⟨sel, true, false⟩, ⟨sel, false, false⟩]).emit
          (.write [⟨sel, true, false⟩, ⟨sel, false, false⟩])
          = { s with
              pins := ⟨sel, false, false, s.pins.hold⟩
              rx := some (shiftIn acc m)
              trace := (s.trace ++ [.sample m]) ++ [.write [⟨sel, true, false⟩, ⟨sel, false, false⟩]]
              env := (dropCalls 1 s1).env } := rfl
      rw [this, he]
      have hpins : (⟨sel, false, false, s.pins.hold⟩ : Pins) = s.pins := by rw [hp]
      rw [hpins]
      simp [s2]
    have hc2 : s2.calm := envAfter_calm hc 2 1 s2 rfl
    have hbits : upcomingBits (n + 1) s = m :: upcomingBits n s2 := by
      rw [Nat.add_comm, upcomingBits_envAfter 2 1 n (show s2.env = envAfter 2 1 s from rfl) rfl]
      rfl
    rw [decodeBits, readPins_calm hc, bind_ok, hw, bind_ok, ih hc2 hp rfl, hbits]
    congr 1
    have he : envAfter (2 * n) n s2 = envAfter (2 * (n + 1)) (n + 1) s := by
      rw [envAfter_envAfter 2 1 _ _ (show s2.env = envAfter 2 1 s from rfl)]
      congr 1 <;> omega
    rw [he]
    simp [s2, bitCycleEvents]

/-- One byte (R123): bit order MSB first. -/
theorem decodeOne_calm {sel : Selector} {h : HoldState} {s : State} (hc : s.calm) (hp : s.pins = ⟨sel, false, false, h⟩) :
    decodeOne sel s = .ok (byteOfBits (upcomingBits 8 s))
      { s with
        rx := some (byteOfBits (upcomingBits 8 s))
        trace := s.trace ++ bitCycleEvents sel (upcomingBits 8 s)
        env := envAfter 16 8 s } :=
  decodeBits_calm 8 (s := { s with rx := some 0#8 }) hc hp rfl

/-- `n` bytes in arrival order; `rx` keeps the last one. -/
theorem decodeMany_calm {sel : Selector} {h : HoldState} (n : Nat) {s : State} (hc : s.calm)
    (hp : s.pins = ⟨sel, false, false, h⟩) :
    decodeMany sel n s = .ok (bytesOfBits n (upcomingBits (8 * n) s))
      { s with
        rx := (bytesOfBits n (upcomingBits (8 * n) s)).getLast?.or s.rx
        trace := s.trace ++ bitCycleEvents sel (upcomingBits (8 * n) s)
        env := envAfter (16 * n) (8 * n) s } := by
  induction n generalizing s with
  | zero => simp [decodeMany, bytesOfBits, upcomingBits, upcomingSamples, bitCycleEvents, envAfter, skipSamples]
  | succ n ih =>
    let s1 : State := { s with
        rx := some (byteOfBits (upcomingBits 8 s))
        trace := s.trace ++ bitCycleEvents sel (upcomingBits 8 s)
        env := envAfter 16 8 s }
    have hbits : upcomingBits (8 * (n + 1)) s = upcomingBits 8 s ++ upcomingBits (8 * n) s1 := by
      rw [show 8 * (n + 1) = 8 + 8 * n by omega]
      exact upcomingBits_envAfter 16 8 _ rfl rfl
    have hbytes : bytesOfBits (n + 1) (upcomingBits (8 * (n + 1)) s)
        = byteOfBits (upcomingBits 8 s) :: bytesOfBits n (upcomingBits (8 * n) s1) := by
      rw [hbits, bytesOfBits, List.take_left' (by simp), List.drop_left' (by simp)]
    have hc1 : s1.calm := envAfter_calm hc 16 8 s1 rfl
    rw [decodeMany, decodeOne_calm hc hp, bind_ok, ih hc1 hp, bind_ok, hbytes, hbits]
    congr 1
    have he : envAfter (16 * n) (8 * n) s1 = envAfter (16 * (n + 1)) (8 * (n + 1)) s := by
      rw [envAfter_envAfter 16 8 _ _ (show s1.env = envAfter 16 8 s from rfl)]
      congr 1 <;> omega
    rw [he]
    cases bytesOfBits n (upcomingBits (8 * n) s1) with
    | nil => simp [s1, bitCycleEvents]
    | cons b bs =>
      obtain ⟨x, hx⟩ : ∃ x, (b :: bs).getLast? = some x := ⟨_, List.getLast?_cons⟩
      simp [s1, bitCycleEvents, List.getLast?_cons_cons, hx]

/-- Two events a bit: `8n` samples and `8n` writes of two vectors (R124). -/
@[simp] theorem bitCycleEvents_length (sel : Selector) (ms : List Bool) : (bitCycleEvents sel ms).length = 2 * ms.length := by
  induction ms with
  | nil => rfl
  | cons m ms ih => simp only [bitCycleEvents, List.flatMap_cons, List.length_append, List.length_cons] at ih ⊢; simp [ih]; omega

/-- What `decode_bytes` does when its calls complete (R124, R126): from any levels of the lines. -/
theorem decodeBytes_calm {sel : Selector} (n : Nat) {s : State} (hc : s.calm) :
    decodeBytes sel n s = .ok (bytesOfBits n (upcomingBits (8 * n) s))
      { s with
        pins := ⟨.selIdle, false, false, s.pins.hold⟩
        rx := (bytesOfBits n (upcomingBits (8 * n) s)).getLast?.or s.rx
        trace := s.trace ++ [.select sel] ++ bitCycleEvents sel (upcomingBits (8 * n) s) ++ [.select .selIdle]
        env := envAfter (16 * n + 2) (8 * n) s } := by
  let s1 : State := ((dropCalls 1 s).drive ⟨sel, false, false⟩).emit (.select sel)
  have h1 : s1.env = envAfter 1 0 s := rfl
  have hc1 : s1.calm := envAfter_calm hc 1 0 s1 h1
  have hbits : upcomingBits (8 * n) s1 = upcomingBits (8 * n) s := by
    have := upcomingBits_envAfter (s := s) 1 0 (8 * n) h1 rfl
    rw [Nat.zero_add] at this
    rw [this]; rfl
  let s2 : State := { s1 with
        rx := (bytesOfBits n (upcomingBits (8 * n) s1)).getLast?.or s1.rx
        trace := s1.trace ++ bitCycleEvents sel (upcomingBits (8 * n) s1)
        env := envAfter (16 * n) (8 * n) s1 }
  have h2 : s2.env = envAfter (1 + 16 * n) (0 + 8 * n) s := envAfter_envAfter 1 0 _ _ h1
  have hc2 : s2.calm := envAfter_calm hc _ _ s2 h2
  rw [decodeBytes, select_calm hc, bind_ok, decodeMany_calm n hc1 rfl, bind_ok, select_calm hc2, bind_ok]
  have h3 : (dropCalls 1 s2).env = envAfter (16 * n + 2) (8 * n) s := by
    rw [dropCalls_env, envAfter_envAfter _ _ 1 0 h2]; congr 1 <;> omega
  have h4 : ((dropCalls 1 s2).drive ⟨.selIdle, false, false⟩).emit (.select .selIdle)
      = { s with
          pins := ⟨.selIdle, false, false, s.pins.hold⟩
          rx := s2.rx
          trace := s2.trace ++ [.select .selIdle]
          env := (dropCalls 1 s2).env } := rfl
  rw [h4, h3]
  simp only [s2, hbits]
  rfl

end Sys2Proof.Machine
end

