-- ==== Sys2Proof/Laws/Assembler.lean ====
section
/-! SUPPORT. What the assembler, a transmission and a whole transaction do: the buffer, the one write, the state left
(R141, R147, R161, R162, R173). -/

namespace Sys2Proof.Machine

/-! ### Runs of a stored stream -/

theorem covers_cells (off : Nat) (vs : List GpioVector) (rest : Memory) :
    (Memory.cells off vs ++ rest).covers off vs.length = true := by
  induction vs generalizing off with
  | nil => cases rest <;> rfl
  | cons v vs ih => simpa [Memory.cells, Memory.covers] using ih (off + 1)

theorem take_cells (off : Nat) (vs : List GpioVector) (rest : Memory) :
    ((Memory.cells off vs ++ rest).take vs.length).map Prod.snd = vs := by
  induction vs generalizing off with
  | nil => simp
  | cons v vs ih => simpa [Memory.cells] using ih (off + 1)

/-- The vectors stored from offset 0 are what a run from offset 0 reads. -/
theorem run_store_zero (m : Memory) (vs : List GpioVector) (z : GpioVector) :
    (m.store 0 (vs ++ [z])).run 0 vs.length = some vs := by
  have hs : m.store 0 (vs ++ [z]) = Memory.cells 0 vs
      ++ (Memory.cells (0 + vs.length) [z] ++ m.filter fun x => decide (0 + (vs ++ [z]).length ≤ x.1)) := by
    simp [Memory.store, cells_append]
  rw [hs]
  have hd : (Memory.cells 0 vs
      ++ (Memory.cells (0 + vs.length) [z] ++ m.filter fun x => decide (0 + (vs ++ [z]).length ≤ x.1))).dropWhile
        (fun x => decide (x.1 < 0)) = Memory.cells 0 vs
      ++ (Memory.cells (0 + vs.length) [z] ++ m.filter fun x => decide (0 + (vs ++ [z]).length ≤ x.1)) := by
    cases vs <;> simp [Memory.cells]
  simp only [Memory.run, covers_cells, hd, take_cells, if_true]

/-! ### Assembling -/

/-- The vectors of line vectors as a stream stores them, with the sentinel (R101). -/
def stored (c : Config) (lvs : List LineVector) : List GpioVector :=
  lvs.map (fun lv => pack c lv .asserted) ++ [0]

@[simp] theorem stored_length (c : Config) (lvs : List LineVector) : (stored c lvs).length = lvs.length + 1 := by
  simp [stored]

theorem stored_ne_nil (c : Config) (lvs : List LineVector) : stored c lvs ≠ [] := by simp [stored]

theorem streamVectors_eq (c : Config) (sel : Selector) (bytes : List Byte) :
    streamVectors c sel bytes = stored c (frames sel bytes) := rfl

@[simp] theorem streamVectors_length (c : Config) (sel : Selector) (bytes : List Byte) :
    (streamVectors c sel bytes).length = 16 * bytes.length + 1 := by simp [streamVectors_eq]

/-- `assemble` when its check passes (R141). -/
theorem assemble_ok {bytes : List Byte} {off : Nat} {sel : Selector} {s : State} (h1 : off % 16 = 0)
    (h2 : off + 16 * bytes.length + 1 ≤ s.cfg.bufCap) :
    assemble bytes off sel s = .ok (off + 16 * bytes.length)
      { s with
        buf := s.buf.store off (stored s.cfg (frames sel bytes))
        blen := off + 16 * bytes.length } :=
  if_pos ⟨h1, h2⟩

/-- `assemble` when its check fails (R144): nothing is written. -/
theorem assemble_raised {bytes : List Byte} {off : Nat} {sel : Selector} {s : State}
    (h : ¬(off % 16 = 0 ∧ off + 16 * bytes.length + 1 ≤ s.cfg.bufCap)) :
    assemble bytes off sel s = .raised (.streamLength off) s :=
  if_neg h

/-- A stored stream continued where its sentinel stands (R146): one stream. -/
theorem store_continue (m : Memory) (c : Config) (xs ys : List LineVector) (off n : Nat) (hn : n = off + xs.length) :
    (m.store off (stored c xs)).store n (stored c ys) = m.store off (stored c (xs ++ ys)) := by
  have h := store_store_sentinel m off (xs.map fun lv => pack c lv .asserted) (stored c ys) 0 (stored_ne_nil c ys)
  rw [List.length_map] at h
  rw [hn, stored, h]
  simp [stored]

/-! ### Transmitting -/

/-- The stream in the buffer after it has been assembled from offset 0. -/
theorem bufferedStream_stored {s : State} (hcfg : s.cfg.pinsAdmitted = true) (m : Memory) (lvs : List LineVector)
    (hne : lvs ≠ []) (hb : s.buf = m.store 0 (stored s.cfg lvs)) (hl : s.blen = lvs.length) :
    bufferedStream s = some lvs := by
  have h0 : lvs.length ≠ 0 := by simpa using hne
  have hrun := run_store_zero m (lvs.map fun lv => pack s.cfg lv .asserted) 0
  rw [List.length_map] at hrun
  rw [bufferedStream, hl, if_neg h0, hb, stored, hrun]
  exact unpackAll_pack hcfg lvs

/-- The stream in the buffer is never empty, and its vectors are the first `blen` of the buffer (R147). -/
theorem bufferedStream_eq_some {s : State} {lvs : List LineVector} (h : bufferedStream s = some lvs) :
    s.blen ≠ 0 ∧ s.buf.run 0 s.blen = some (lvs.map fun lv => pack s.cfg lv .asserted) := by
  simp only [bufferedStream] at h
  split at h
  · cases h
  · rename_i h0
    obtain ⟨vs, hr, hu⟩ := Option.bind_eq_some_iff.1 h
    exact ⟨h0, by rw [hr, eq_map_pack_of_unpackAll hu]⟩

/-- The pins after a list of vectors that ends in a known one. -/
theorem transmit_stored {s : State} (hcalm : s.calm) (hcfg : s.cfg.pinsAdmitted = true) (m : Memory)
    (lvs : List LineVector) (last : LineVector) (hb : s.buf = m.store 0 (stored s.cfg (lvs ++ [last])))
    (hl : s.blen = (lvs ++ [last]).length) :
    transmit s = .ok ()
      { s with
        pins := ⟨last.sel, last.sck, last.mosi, s.pins.hold⟩
        blen := 0
        trace := s.trace ++ [.write (lvs ++ [last])]
        env := envAfter 1 0 s } := by
  rw [transmit, bufferedStream_stored hcfg m _ (by simp) hb hl]
  simp only [write_calm hcalm, driveAll_append_single, bind_ok]
  rfl

/-! ### The one call of a transaction -/

/-- `transmit` of a stream assembled from offset 0 is one write of its vectors, whatever becomes of that call. -/
theorem transmit_eq_write {s : State} (hcfg : s.cfg.pinsAdmitted = true) (m : Memory) (lvs : List LineVector)
    (hne : lvs ≠ []) (hb : s.buf = m.store 0 (stored s.cfg lvs)) (hl : s.blen = lvs.length) :
    transmit s = (write lvs s).bind fun _ t => .ok () { t with blen := 0 } := by
  rw [transmit, bufferedStream_stored hcfg m lvs hne hb hl]

theorem frame_ne_nil (sel : Selector) (b : Byte) : frame sel b ≠ [] := by
  intro h
  have := frame_length sel b
  rw [h] at this
  cases this

/-- `write_txn` when its check passes is one write of the command's frames and the idle pulse (R161). -/
theorem writeTxn_eq_write {bytes : List Byte} {s : State} (hcfg : s.cfg.pinsAdmitted = true)
    (hfit : 16 * (bytes.length + 1) + 1 ≤ s.cfg.bufCap) :
    writeTxn bytes s = (write (frames s.cfg.flashSel bytes ++ idleFrame s.cfg) { s with
        buf := s.buf.store 0 (stored s.cfg (frames s.cfg.flashSel bytes ++ idleFrame s.cfg))
        blen := 16 * (bytes.length + 1) }).bind fun _ t => .ok () { t with blen := 0 } := by
  have ha : writeTxn bytes s = transmit { s with
      buf := s.buf.store 0 (stored s.cfg (frames s.cfg.flashSel bytes ++ idleFrame s.cfg))
      blen := 16 * (bytes.length + 1) } := by
    rw [writeTxn, assemble_ok (by omega) (by omega), bind_ok, idlePulse, assemble_ok (by omega)
      (by simp only [List.length_singleton]; omega), bind_ok]
    simp only [frames_singleton, List.length_singleton]
    rw [store_continue _ _ _ _ _ _ (by simp), show 0 + 16 * bytes.length + 16 * 1 = 16 * (bytes.length + 1) by omega]
    rfl
  rw [ha]
  have ht := fun s' h1 h3 h4 => @transmit_eq_write s' h1 s.buf (frames s.cfg.flashSel bytes ++ idleFrame s.cfg)
    (fun h => frame_ne_nil _ _ (List.append_eq_nil_iff.1 h).2) h3 h4
  exact ht _ hcfg rfl (by simp only [idleFrame, List.length_append, frames_length, frame_length]; omega)

/-- `read_txn` of one byte is one write of its frame, then the read-back (R162). -/
theorem readTxn_eq_write (b : Byte) (n : Nat) {s : State} (hcfg : s.cfg.pinsAdmitted = true) (hfit : 17 ≤ s.cfg.bufCap) :
    readTxn [b] n s = (write (frame s.cfg.flashSel b) { s with
        buf := s.buf.store 0 (stored s.cfg (frame s.cfg.flashSel b))
        blen := 16 }).bind fun _ t => decodeBytes t.cfg.flashSel n { t with blen := 0 } := by
  have ht := fun s' h1 h3 h4 => @transmit_eq_write s' h1 s.buf (frame s.cfg.flashSel b) (frame_ne_nil _ _) h3 h4
  have ht' := ht { s with buf := s.buf.store 0 (stored s.cfg (frame s.cfg.flashSel b)), blen := 16 } hcfg rfl (by simp)
  rw [readTxn, assemble_ok (by omega) (by simp only [List.length_singleton]; omega), bind_ok, frames_singleton]
  refine (congrArg (fun r : Res Unit => r.bind fun _ s' => decodeBytes s'.cfg.flashSel n s') ht').trans ?_
  rw [bind_assoc]
  rfl

/-! ### Transactions -/

theorem frames_eq_append_last (sel : Selector) (bytes : List Byte) (b : Byte) :
    frames sel (bytes ++ [b]) = (frames sel bytes ++ (frame sel b).take 15) ++ [⟨sel, true, b.getLsbD 0⟩] := by
  rw [frames_append, frames_singleton, List.append_assoc, ← frame_eq_append_last]

/-- `write_txn` when its check passes and its call completes (R161). -/
theorem writeTxn_calm {bytes : List Byte} {s : State} (hcalm : s.calm) (hcfg : s.cfg.pinsAdmitted = true)
    (hfit : 16 * (bytes.length + 1) + 1 ≤ s.cfg.bufCap) :
    writeTxn bytes s = .ok ()
      { s with
        pins := ⟨.selIdle, true, s.cfg.idleFill.getLsbD 0, s.pins.hold⟩
        buf := s.buf.store 0 (stored s.cfg (frames s.cfg.flashSel bytes ++ idleFrame s.cfg))
        blen := 0
        trace := s.trace ++ [.write (frames s.cfg.flashSel bytes ++ idleFrame s.cfg)]
        env := envAfter 1 0 s } := by
  have e : frames s.cfg.flashSel bytes ++ idleFrame s.cfg
      = (frames s.cfg.flashSel bytes ++ (idleFrame s.cfg).take 15)
        ++ [⟨.selIdle, true, s.cfg.idleFill.getLsbD 0⟩] := by
    rw [List.append_assoc]; rfl
  rw [writeTxn, assemble_ok (by omega) (by omega), bind_ok, idlePulse, assemble_ok (by omega)
    (by simp only [List.length_singleton]; omega), bind_ok]
  simp only [frames_singleton]
  rw [store_continue _ _ _ _ _ _ (by simp)]
  have ht := fun s' h1 h2 h3 h4 => @transmit_stored s' h1 h2 s.buf
    (frames s.cfg.flashSel bytes ++ (idleFrame s.cfg).take 15) ⟨.selIdle, true, s.cfg.idleFill.getLsbD 0⟩ h3 h4
  simp only [← e] at ht
  exact ht _ hcalm hcfg rfl (by simp [idleFrame])

/-- `read_txn` when its check passes and its calls complete (R162). -/
theorem readTxn_calm {bytes : List Byte} {b : Byte} (n : Nat) {s : State} (hcalm : s.calm)
    (hcfg : s.cfg.pinsAdmitted = true) (hfit : 16 * (bytes.length + 1) + 1 ≤ s.cfg.bufCap) :
    readTxn (bytes ++ [b]) n s = .ok (bytesOfBits n (upcomingBits (8 * n) s))
      { s with
        pins := ⟨.selIdle, false, false, s.pins.hold⟩
        buf := s.buf.store 0 (stored s.cfg (frames s.cfg.flashSel (bytes ++ [b])))
        blen := 0
        rx := (bytesOfBits n (upcomingBits (8 * n) s)).getLast?.or s.rx
        trace := s.trace ++ [.write (frames s.cfg.flashSel (bytes ++ [b])), .select s.cfg.flashSel]
          ++ bitCycleEvents s.cfg.flashSel (upcomingBits (8 * n) s) ++ [.select .selIdle]
        env := envAfter (16 * n + 3) (8 * n) s } := by
  have e := frames_eq_append_last s.cfg.flashSel bytes b
  rw [readTxn, assemble_ok (by omega) (by simp only [List.length_append, List.length_singleton]; omega), bind_ok]
  have ht := fun s' h1 h2 h3 h4 => @transmit_stored s' h1 h2 s.buf
    (frames s.cfg.flashSel bytes ++ (frame s.cfg.flashSel b).take 15) ⟨s.cfg.flashSel, true, b.getLsbD 0⟩ h3 h4
  simp only [← e] at ht
  have ht' := ht { s with
      buf := s.buf.store 0 (stored s.cfg (frames s.cfg.flashSel (bytes ++ [b])))
      blen := 0 + 16 * (bytes ++ [b]).length } hcalm hcfg rfl (by simp)
  refine (congrArg (fun r : Res Unit => r.bind fun _ s' => decodeBytes s'.cfg.flashSel n s') ht').trans ?_
  rw [bind_ok]
  let s1 : State := { s with
        pins := ⟨s.cfg.flashSel, true, b.getLsbD 0, s.pins.hold⟩
        buf := s.buf.store 0 (stored s.cfg (frames s.cfg.flashSel (bytes ++ [b])))
        blen := 0
        trace := s.trace ++ [.write (frames s.cfg.flashSel (bytes ++ [b]))]
        env := envAfter 1 0 s }
  have h1 : s1.env = envAfter 1 0 s := rfl
  have hbits : upcomingBits (8 * n) s1 = upcomingBits (8 * n) s := by
    have := upcomingBits_envAfter (s := s) 1 0 (8 * n) h1 rfl
    rw [Nat.zero_add] at this
    rw [this]; rfl
  have hd := decodeBytes_calm (sel := s.cfg.flashSel) n (envAfter_calm hcalm 1 0 s1 h1)
  rw [hbits] at hd
  refine Eq.trans hd ?_
  have he : envAfter (16 * n + 2) (8 * n) s1 = envAfter (16 * n + 3) (8 * n) s := by
    rw [envAfter_envAfter 1 0 _ _ h1]; congr 1 <;> omega
  rw [he]
  simp [s1]

/-- The vectors of the page burst (R148, R66). -/
def pageBurst (c : Config) (p : Nat) (record : List Byte) : List LineVector :=
  frames c.flashSel ([0x84#8, 0x00#8, 0x00#8, 0x00#8] ++ record) ++ idleFrame c
    ++ frames c.flashSel [0x88#8, pageHi p, pageLo p] ++ idleFrame c

theorem pageBurst_length (c : Config) (p : Nat) {record : List Byte} (h : record.length = 264) :
    (pageBurst c p record).length = 4368 := by
  simp [pageBurst, idleFrame, h]

/-- `assemble_page_burst` of a record of 264 bytes (R148). -/
theorem assemblePageBurst_ok {p : Nat} {record : List Byte} {s : State} (hlen : record.length = 264)
    (hfit : 4369 ≤ s.cfg.bufCap) :
    assemblePageBurst p record s = .ok 4368
      { s with
        buf := s.buf.store 0 (stored s.cfg (pageBurst s.cfg p record))
        blen := 4368 } := by
  have l1 : ([0x84#8, 0x00#8, 0x00#8, 0x00#8] ++ record : List Byte).length = 268 := by simp [hlen]
  rw [assemblePageBurst, assemble_ok (by omega) (by rw [l1]; omega), bind_ok, l1, idlePulse,
    assemble_ok (by omega) (by simp only [List.length_singleton]; omega), bind_ok,
    assemble_ok (by simp) (by simp only [List.length_cons, List.length_nil]; omega), bind_ok,
    idlePulse, assemble_ok (by simp) (by simp only [List.length_cons, List.length_nil]; omega),
    bind_ok]
  simp only [frames_singleton, List.length_cons, List.length_nil]
  rw [if_pos trivial]
  rw [store_continue _ _ _ _ 0 _ (by rw [frames_length, l1]),
    store_continue _ _ _ _ 0 _ (by rw [List.length_append, frames_length, l1, frame_length]),
    store_continue _ _ _ _ 0 _ (by
      rw [List.length_append, List.length_append, frames_length, l1, frame_length, frames_length]; rfl)]
  rfl

/-- `write_page` of a record of 264 bytes is one write of the page burst (R173). -/
theorem writePage_eq_write {p : Nat} {record : List Byte} {s : State} (hcfg : s.cfg.pinsAdmitted = true)
    (hlen : record.length = 264) (hfit : 4369 ≤ s.cfg.bufCap) :
    writePage p record s = (write (pageBurst s.cfg p record) { s with
        buf := s.buf.store 0 (stored s.cfg (pageBurst s.cfg p record))
        blen := 4368 }).bind fun _ t => .ok () { t with blen := 0 } := by
  rw [writePage, assemblePageBurst_ok hlen hfit, bind_ok]
  have hl := pageBurst_length s.cfg p hlen
  have ht := fun s' h1 h3 h4 => @transmit_eq_write s' h1 s.buf (pageBurst s.cfg p record)
    (fun h => by rw [h] at hl; cases hl) h3 h4
  exact ht _ hcfg rfl hl.symm

/-- `write_page` when its call completes (R173): one write of the page burst. -/
theorem writePage_calm {p : Nat} {record : List Byte} {s : State} (hcalm : s.calm) (hcfg : s.cfg.pinsAdmitted = true)
    (hlen : record.length = 264) (hfit : 4369 ≤ s.cfg.bufCap) :
    writePage p record s = .ok ()
      { s with
        pins := ⟨.selIdle, true, s.cfg.idleFill.getLsbD 0, s.pins.hold⟩
        buf := s.buf.store 0 (stored s.cfg (pageBurst s.cfg p record))
        blen := 0
        trace := s.trace ++ [.write (pageBurst s.cfg p record)]
        env := envAfter 1 0 s } := by
  obtain ⟨pre, e⟩ : ∃ pre, pageBurst s.cfg p record = pre ++ [⟨.selIdle, true, s.cfg.idleFill.getLsbD 0⟩] :=
    ⟨frames s.cfg.flashSel ([0x84#8, 0x00#8, 0x00#8, 0x00#8] ++ record) ++ idleFrame s.cfg
      ++ frames s.cfg.flashSel [0x88#8, pageHi p, pageLo p] ++ (idleFrame s.cfg).take 15, by
      rw [pageBurst, List.append_assoc (_ ++ _) (List.take 15 _)]; rfl⟩
  have hl := pageBurst_length s.cfg p hlen
  rw [writePage, assemblePageBurst_ok hlen hfit, bind_ok]
  have ht := fun s' h1 h2 h3 h4 => @transmit_stored s' h1 h2 s.buf pre ⟨.selIdle, true, s.cfg.idleFill.getLsbD 0⟩ h3 h4
  simp only [← e] at ht
  exact ht _ hcalm hcfg rfl hl.symm

end Sys2Proof.Machine
end

