-- ==== Sys2Proof/Laws/Frame.lean ====
section
/-! SUPPORT. What every operation keeps, whether it completes, faults or is reset: one relation, closed under sequencing,
and one lemma per operation. -/

namespace Sys2Proof.Machine

/-! ### A property of every way an operation can end -/

/-- The three ways an operation can end with a state each meet their property. -/
def Res.Sat {α : Type} (r : Res α) (ok : α → State → Prop) (raised : EngineFault → State → Prop)
    (reset : State → Prop) : Prop :=
  match r with
  | .ok a s => ok a s
  | .raised f s => raised f s
  | .reset s => reset s
  | .stop _ => True

theorem Sat_imp {α : Type} {r : Res α} {o o' : α → State → Prop} {f f' : EngineFault → State → Prop}
    {z z' : State → Prop} (h : r.Sat o f z) (ho : ∀ a s, o a s → o' a s) (hf : ∀ e s, f e s → f' e s)
    (hz : ∀ s, z s → z' s) : r.Sat o' f' z' := by
  cases r with
  | ok a s => exact ho a s h
  | raised e s => exact hf e s h
  | reset s => exact hz s h
  | stop e => trivial

theorem Sat_bind {α β : Type} {r : Res α} {k : α → State → Res β} {o : α → State → Prop} {o' : β → State → Prop}
    {f : EngineFault → State → Prop} {z : State → Prop} (h : r.Sat o f z) (hk : ∀ a s, o a s → (k a s).Sat o' f z) :
    (r.bind k).Sat o' f z := by
  cases r with
  | ok a s => exact hk a s h
  | raised e s => exact h
  | reset s => exact h
  | stop e => trivial

theorem finish_next_of_Sat {α : Type} {r : Res α} {o : α → State → Prop} {f : EngineFault → State → Prop}
    {z : State → Prop} (h : r.Sat o f z) {t : State} (ht : finish r = .next t) :
    (∃ a, o a t) ∨ (∃ e s, f e s ∧ t = faultEntry e s) ∨ z t := by
  rcases finish_eq_next_iff.1 ht with ⟨a, rfl⟩ | ⟨e, s, rfl, rfl⟩ | rfl
  · exact .inl ⟨a, h⟩
  · exact .inr (.inl ⟨e, s, h, rfl⟩)
  · exact .inr (.inr h)

/-! ### The relation -/

/-- What lies between the state before an operation of the bit engine, the assembler or the command layer and any state
it ends in: the orchestrator's registers, the parameters, the port, the images and the host are as they were; outcomes
of calls have only been used up; the buffer invariant is kept; and nothing has been driven or sampled with hold
released, if hold was asserted. -/
structure Reach (s t : State) : Prop where
  cfg : t.cfg = s.cfg
  dev : t.dev = s.dev
  record : t.record = s.record
  attempts : t.attempts = s.attempts
  st : t.st = s.st
  estep : t.estep = s.estep
  page : t.page = s.page
  result : t.result = s.result
  err : t.err = s.err
  errstep : t.errstep = s.errstep
  phase : t.phase = s.phase
  port : t.port = s.port
  status : t.status = s.status
  ident : t.ident = s.ident
  image : t.env.image = s.env.image
  laterImages : t.env.laterImages = s.env.laterImages
  host : t.env.host = s.env.host
  calls : ∃ n, t.env.calls = s.env.calls.drop n
  buffer : s.bufferInv → t.bufferInv
  bracket : s.pins.hold = .asserted → ∀ h, holdAlong h s.trace = some .asserted → holdAlong h t.trace = some .asserted

theorem Reach.refl (s : State) : Reach s s :=
  ⟨rfl, rfl, rfl, rfl, rfl, rfl, rfl, rfl, rfl, rfl, rfl, rfl, rfl, rfl, rfl, rfl, rfl, ⟨0, rfl⟩, id, fun _ _ h => h⟩

theorem Reach.trans {s t u : State} (h1 : Reach s t) (hhold : t.pins.hold = s.pins.hold) (h2 : Reach t u) : Reach s u where
  cfg := h2.cfg.trans h1.cfg
  dev := h2.dev.trans h1.dev
  record := h2.record.trans h1.record
  attempts := h2.attempts.trans h1.attempts
  st := h2.st.trans h1.st
  estep := h2.estep.trans h1.estep
  page := h2.page.trans h1.page
  result := h2.result.trans h1.result
  err := h2.err.trans h1.err
  errstep := h2.errstep.trans h1.errstep
  phase := h2.phase.trans h1.phase
  port := h2.port.trans h1.port
  status := h2.status.trans h1.status
  ident := h2.ident.trans h1.ident
  image := h2.image.trans h1.image
  laterImages := h2.laterImages.trans h1.laterImages
  host := h2.host.trans h1.host
  calls := by
    obtain ⟨m, hm⟩ := h1.calls
    obtain ⟨n, hn⟩ := h2.calls
    exact ⟨m + n, by rw [hn, hm, List.drop_drop]⟩
  buffer := fun h => h2.buffer (h1.buffer h)
  bracket := fun hs h ht => h2.bracket (hhold.trans hs) h (h1.bracket hs h ht)

theorem Reach.unreset {s t : State} (h : Reach s t) (hs : s.unreset) : t.unreset := by
  obtain ⟨n, hn⟩ := h.calls
  intro hmem
  rw [hn] at hmem
  exact hs (List.mem_of_mem_drop hmem)

/-- Every way an operation ends is related to the state before it; hold moves only by a transport fault; a reset gives
the state after reset, and comes only if one is to come. -/
def Framed {α : Type} (s : State) (r : Res α) : Prop :=
  r.Sat (fun _ t => Reach s t ∧ t.pins.hold = s.pins.hold)
    (fun f t => Reach s t ∧ (f.kind = .transport ∨ t.pins.hold = s.pins.hold))
    (fun t => (∃ e, t = State.resetOf s.cfg e) ∧ ¬ s.unreset)

theorem Framed_bind {α β : Type} {s : State} {r : Res α} {k : α → State → Res β} (h : Framed s r)
    (hk : ∀ a t, Framed t (k a t)) : Framed s (r.bind k) := by
  refine Sat_bind h fun a t ⟨ht, hh⟩ => Sat_imp (hk a t) ?_ ?_ ?_
  · exact fun b u ⟨hu, hhu⟩ => ⟨ht.trans hh hu, hhu.trans hh⟩
  · exact fun f u ⟨hu, hhu⟩ => ⟨ht.trans hh hu, hhu.imp_right fun e => e.trans hh⟩
  · exact fun u ⟨⟨e, he⟩, hn⟩ => ⟨⟨e, by rw [he, ht.cfg]⟩, fun hs => hn (ht.unreset hs)⟩

theorem Framed_pure {α : Type} {s t : State} (a : α) (h : Reach s t) (hh : t.pins.hold = s.pins.hold) :
    Framed s (.ok a t) := ⟨h, hh⟩

/-! ### Hold along a trace -/

theorem holdAlong_append (h : HoldState) (xs ys : List Event) :
    holdAlong h (xs ++ ys) = (holdAlong h xs).bind fun h' => holdAlong h' ys := by
  induction xs generalizing h with
  | nil => rfl
  | cons x xs ih => cases x <;> cases h <;> simp [holdAlong, ih]

theorem holdAlong_emit {h : HoldState} {s : State} {ev : Event} (hs : holdAlong h s.trace = some .asserted)
    (hev : holdAlong .asserted [ev] = some .asserted) : holdAlong h (s.trace ++ [ev]) = some .asserted := by
  rw [holdAlong_append, hs]; exact hev

/-! ### The operations -/

theorem Reach_pinsTrace (s : State) (n k : Nat) (p : Pins) (evs : List Event)
    (hb : holdAlong .asserted evs = some .asserted) :
    Reach s { s with pins := p, trace := s.trace ++ evs, env := envAfter n k s } where
  cfg := rfl
  dev := rfl
  record := rfl
  attempts := rfl
  st := rfl
  estep := rfl
  page := rfl
  result := rfl
  err := rfl
  errstep := rfl
  phase := rfl
  port := rfl
  status := rfl
  ident := rfl
  image := skipSamples_image k s.env
  laterImages := skipSamples_laterImages k s.env
  host := skipSamples_host k s.env
  calls := ⟨n, rfl⟩
  buffer := id
  bracket := fun _ h hs => by simp only [holdAlong_append, hs]; exact hb

theorem Reach_faulted (s : State) (p : Pins) : Reach s { dropCalls 1 s with pins := p } := by
  have h := Reach_pinsTrace s 1 0 p [] rfl
  rw [List.append_nil] at h
  exact h

theorem nextOutcome_reset {s : State} (h : nextOutcome s = (.reset, dropCalls 1 s)) : ¬ s.unreset := by
  intro hs
  simp only [nextOutcome] at h
  split at h
  · cases h
  · rename_i o os hcalls
    obtain rfl : o = .reset := congrArg Prod.fst h
    exact hs (by rw [hcalls]; simp)

theorem Framed_transportCall {s : State} (c : Call) (effect : State → State) (p : Pins) (ev : Event)
    (heff : effect (dropCalls 1 s) = { s with pins := p, trace := s.trace ++ [ev], env := envAfter 1 0 s })
    (hp : p.hold = s.pins.hold) (hev : holdAlong .asserted [ev] = some .asserted) :
    Framed s (transportCall c effect s) := by
  rcases nextOutcome_cases s with h | ⟨q, h⟩ | h
  · simp only [transportCall, h, heff]
    exact ⟨Reach_pinsTrace s 1 0 p [ev] hev, hp⟩
  · simp only [transportCall, h]
    exact ⟨Reach_faulted s q, .inl rfl⟩
  · simp only [transportCall, h]
    exact ⟨⟨_, rfl⟩, nextOutcome_reset h⟩

theorem driveAll_pins (s : State) (lvs : List LineVector) :
    ∃ p : Pins, p.hold = s.pins.hold ∧ s.driveAll lvs = { s with pins := p } := by
  rw [driveAll_eq]
  cases lvs.getLast? with
  | none => exact ⟨s.pins, rfl, rfl⟩
  | some lv => exact ⟨⟨lv.sel, lv.sck, lv.mosi, s.pins.hold⟩, rfl, rfl⟩

theorem Framed_write (lvs : List LineVector) (s : State) : Framed s (write lvs s) := by
  obtain ⟨p, hp, he⟩ := driveAll_pins (dropCalls 1 s) lvs
  exact Framed_transportCall _ _ p (.write lvs) (by simp only [he]; rfl) hp rfl

theorem Framed_select (sel : Selector) (s : State) : Framed s (select sel s) :=
  Framed_transportCall _ _ ⟨sel, false, false, s.pins.hold⟩ (.select sel) rfl rfl rfl

theorem Framed_readPins (s : State) : Framed s (readPins s) := by
  rcases nextOutcome_cases s with h | ⟨q, h⟩ | h
  · rcases readPins_cases s with ⟨m, hm⟩ | ⟨q, hm⟩ | hm
    · rw [hm]; exact ⟨Reach_pinsTrace s 1 1 s.pins [.sample m] rfl, rfl⟩
    · simp [readPins, h] at hm
    · simp [readPins, h] at hm
  · simp only [readPins, h]
    exact ⟨Reach_faulted s q, .inl rfl⟩
  · simp only [readPins, h]
    exact ⟨⟨_, rfl⟩, nextOutcome_reset h⟩

theorem Reach_rx (s : State) (v : Option Byte) : Reach s { s with rx := v } :=
  ⟨rfl, rfl, rfl, rfl, rfl, rfl, rfl, rfl, rfl, rfl, rfl, rfl, rfl, rfl, rfl, rfl, rfl, ⟨0, rfl⟩, id, fun _ _ h => h⟩

theorem Framed_of_rx {α : Type} {s : State} (v : Option Byte) {r : Res α} (h : Framed { s with rx := v } r) :
    Framed s r := by
  refine Sat_imp h ?_ ?_ ?_
  · exact fun b u ⟨hu, hh⟩ => ⟨(Reach_rx s v).trans rfl hu, hh⟩
  · exact fun f u ⟨hu, hh⟩ => ⟨(Reach_rx s v).trans rfl hu, hh⟩
  · exact fun u hu => hu

theorem Framed_decodeBits (sel : Selector) (n : Nat) (acc : Byte) (s : State) : Framed s (decodeBits sel n acc s) := by
  induction n generalizing acc s with
  | zero => exact Framed_pure acc (Reach.refl s) rfl
  | succ n ih =>
    exact Framed_bind (Framed_readPins s) fun m t =>
      Framed_of_rx _ (Framed_bind (Framed_write _ _) fun _ u => ih _ u)

theorem Framed_decodeMany (sel : Selector) (n : Nat) (s : State) : Framed s (decodeMany sel n s) := by
  induction n generalizing s with
  | zero => exact Framed_pure [] (Reach.refl s) rfl
  | succ n ih =>
    exact Framed_bind (Framed_of_rx _ (Framed_decodeBits sel 8 _ _)) fun b t =>
      Framed_bind (ih t) fun bs u => Framed_pure _ (Reach.refl u) rfl

theorem Framed_decodeBytes (sel : Selector) (n : Nat) (s : State) : Framed s (decodeBytes sel n s) :=
  Framed_bind (Framed_select sel s) fun _ t => Framed_bind (Framed_decodeMany sel n t) fun bs u =>
    Framed_bind (Framed_select _ u) fun _ v => Framed_pure bs (Reach.refl v) rfl

theorem Reach_blen {s : State} (n : Nat) (hn : s.bufferInv → n % 16 = 0 ∧ n < s.cfg.bufCap) :
    Reach s { s with blen := n } :=
  ⟨rfl, rfl, rfl, rfl, rfl, rfl, rfl, rfl, rfl, rfl, rfl, rfl, rfl, rfl, rfl, rfl, rfl, ⟨0, rfl⟩,
    fun h => ⟨h.1, h.2.1, hn h⟩, fun _ _ h => h⟩

theorem Framed_assemble (bytes : List Byte) (off : Nat) (sel : Selector) (s : State) :
    Framed s (assemble bytes off sel s) := by
  by_cases h : off % 16 = 0 ∧ off + 16 * bytes.length + 1 ≤ s.cfg.bufCap
  · rw [assemble_ok h.1 h.2]
    refine Framed_pure _ ⟨rfl, rfl, rfl, rfl, rfl, rfl, rfl, rfl, rfl, rfl, rfl, rfl, rfl, rfl, rfl, rfl, rfl, ⟨0, rfl⟩, ?_,
      fun _ _ h => h⟩ rfl
    rintro ⟨hwf, hcap, _, _⟩
    refine ⟨store_wf hwf _ _, fun x hx => ?_, by simp only; omega, by simp only; omega⟩
    rcases mem_store hx with hx | hx
    · exact hcap x hx
    · simp only [stored_length, frames_length] at hx ⊢; omega
  · rw [assemble_raised h]
    exact ⟨Reach.refl s, .inr rfl⟩

theorem Framed_idlePulse (off : Nat) (s : State) : Framed s (idlePulse off s) := Framed_assemble _ _ _ _

theorem Framed_transmit (s : State) : Framed s (transmit s) := by
  unfold transmit
  split
  · trivial
  · exact Framed_bind (Framed_write _ s) fun _ t => Framed_pure () (Reach_blen 0 fun h => ⟨rfl, by have := h.2.2.2; omega⟩) rfl

theorem Framed_writeTxn (bytes : List Byte) (s : State) : Framed s (writeTxn bytes s) :=
  Framed_bind (Framed_assemble _ _ _ s) fun _ t => Framed_bind (Framed_idlePulse _ t) fun _ u => Framed_transmit u

theorem Framed_readTxn (bytes : List Byte) (n : Nat) (s : State) : Framed s (readTxn bytes n s) :=
  Framed_bind (Framed_assemble _ _ _ s) fun _ t => Framed_bind (Framed_transmit t) fun _ u => Framed_decodeBytes _ n u

theorem Framed_assemblePageBurst (p : Nat) (record : List Byte) (s : State) :
    Framed s (assemblePageBurst p record s) :=
  Framed_bind (Framed_assemble _ _ _ s) fun _ t => Framed_bind (Framed_idlePulse _ t) fun _ u =>
    Framed_bind (Framed_assemble _ _ _ u) fun _ v => Framed_bind (Framed_idlePulse _ v) fun off w => by
      split
      · exact Framed_pure _ (Reach.refl w) rfl
      · exact ⟨Reach.refl w, .inr rfl⟩

theorem Framed_writePage (p : Nat) (record : List Byte) (s : State) : Framed s (writePage p record s) :=
  Framed_bind (Framed_assemblePageBurst p record s) fun _ t => Framed_transmit t

/-! ### Fault entry -/

/-- Fault entry is its four registers and its phase over the state the clean-up call leaves (R240, R244), or the state
after a reset that comes before that call. -/
theorem faultEntry_cases (f : EngineFault) (s : State) :
    (∃ s', faultEntry f s = recordFault f.kind s' ∧ (s' = s
        ∨ (f.kind ≠ .transport ∧ s.pins.hold = .asserted
          ∧ (s' = ((dropCalls 1 s).setHold .released).emit (.hold .released) ∨ ∃ h, s' = (dropCalls 1 s).setHold h))))
      ∨ (faultEntry f s = (dropCalls 1 s).toReset ∧ ¬ s.unreset) := by
  unfold faultEntry
  split
  · rename_i hc
    rcases nextOutcome_cases s with h | ⟨p, h⟩ | h
    · simp only [h]
      exact .inl ⟨_, rfl, .inr ⟨hc.1, hc.2, .inl rfl⟩⟩
    · simp only [h]
      exact .inl ⟨_, rfl, .inr ⟨hc.1, hc.2, .inr ⟨_, rfl⟩⟩⟩
    · refine .inr ⟨?_, nextOutcome_reset h⟩
      simp only [h]
  · exact .inl ⟨s, rfl, .inl rfl⟩

theorem kind_ne_none (f : EngineFault) : f.kind ≠ .none := by
  cases f <;> simp [EngineFault.kind]

end Sys2Proof.Machine
end

