-- ==== Sys2Proof/Laws/Calls.lean ====
section
/-! SUPPORT. How many transport calls each operation makes, and what it does when one of them faults: the calls before it
complete, one event each, and its fault is raised at once (R116, R128, R231). -/

namespace Sys2Proof.Machine

/-- The answer `r` of an operation of `n` transport calls begun in `s`, when the first call that does not complete faults:
a fault among the `n` calls is raised, with the pins it leaves and the later outcomes untouched; a fault after them is
left for what comes next. -/
def MeetsFault {α : Type} (n : Nat) (s : State) (r : Res α) : Prop :=
  ∀ (p : Pins) (done rest : List CallOutcome), (∀ o ∈ done, o = .completes) → s.env.calls = done ++ .faults p :: rest →
    (done.length < n → ∃ c u evs, r = .raised (.transport c) u ∧ u.pins = p ∧ u.env.calls = rest
        ∧ u.trace = s.trace ++ evs ∧ evs.length = done.length)
      ∧ (n ≤ done.length → ∃ a u evs, r = .ok a u ∧ u.env.calls = done.drop n ++ .faults p :: rest
        ∧ u.trace = s.trace ++ evs ∧ evs.length = n)

theorem MeetsFault_ok {α : Type} (a : α) {s t : State} (hc : t.env.calls = s.env.calls) (ht : t.trace = s.trace) :
    MeetsFault 0 s (.ok a t) :=
  fun _ _ _ _ h => ⟨nofun, fun _ => ⟨a, t, [], rfl, hc.trans h, by simp [ht], rfl⟩⟩

/-- Only the outcomes to come and the trace of the state before matter. -/
theorem MeetsFault_of {α : Type} {n : Nat} {s u : State} {r : Res α} (h : MeetsFault n u r)
    (hc : u.env.calls = s.env.calls) (ht : u.trace = s.trace) : MeetsFault n s r := by
  unfold MeetsFault at h ⊢
  rw [hc, ht] at h
  exact h

theorem MeetsFault_bind {α β : Type} {m n : Nat} {s : State} {r : Res α} {k : α → State → Res β}
    (h : MeetsFault m s r) (hk : ∀ a u, MeetsFault n u (k a u)) : MeetsFault (m + n) s (r.bind k) := by
  intro p done rest hd hs
  obtain ⟨h1, h2⟩ := h p done rest hd hs
  by_cases hm : done.length < m
  · obtain ⟨c, u, evs, rfl, hr⟩ := h1 hm
    exact ⟨fun _ => ⟨c, u, evs, rfl, hr⟩, fun h => absurd hm (by omega)⟩
  · obtain ⟨a, u, evs, rfl, hu, ht, hl⟩ := h2 (Nat.le_of_not_lt hm)
    obtain ⟨g1, g2⟩ := hk a u p (done.drop m) rest (fun o ho => hd o (List.mem_of_mem_drop ho)) hu
    rw [List.length_drop] at g1 g2
    refine ⟨fun h => ?_, fun h => ?_⟩
    · obtain ⟨c, v, evs', he, hp, hv, ht', hl'⟩ := g1 (by omega)
      exact ⟨c, v, evs ++ evs', he, hp, hv, by rw [ht', ht, List.append_assoc], by rw [List.length_append]; omega⟩
    · obtain ⟨b, v, evs', he, hv, ht', hl'⟩ := g2 (by omega)
      exact ⟨b, v, evs ++ evs', he, by rw [hv, List.drop_drop], by rw [ht', ht, List.append_assoc],
        by rw [List.length_append]; omega⟩

theorem MeetsFault_call {s : State} (c : Call) (effect : State → State) (ev : Event)
    (henv : ∀ u, (effect u).env = u.env) (htr : ∀ u, (effect u).trace = u.trace ++ [ev]) :
    MeetsFault 1 s (transportCall c effect s) := by
  intro p done rest hd hs
  cases done with
  | nil => exact ⟨fun _ => ⟨c, _, [], by simp only [transportCall, nextOutcome, hs, List.nil_append]; rfl, rfl, rfl,
      by simp, rfl⟩, nofun⟩
  | cons o os =>
    obtain rfl : o = .completes := hd o (by simp)
    refine ⟨fun h => absurd h (by simp), fun _ =>
      ⟨(), effect { s with env.calls := os ++ .faults p :: rest }, [ev], ?_, by rw [henv]; rfl, by rw [htr], rfl⟩⟩
    simp only [transportCall, nextOutcome, hs, List.cons_append]

theorem MeetsFault_readPins (s : State) : MeetsFault 1 s (readPins s) := by
  intro p done rest hd hs
  cases done with
  | nil => exact ⟨fun _ => ⟨_, _, [], by simp only [readPins, nextOutcome, hs, List.nil_append]; rfl, rfl, rfl,
      by simp, rfl⟩, nofun⟩
  | cons o os =>
    obtain rfl : o = .completes := hd o (by simp)
    refine ⟨fun h => absurd h (by simp), fun _ => ⟨_, _, [_], by simp only [readPins, nextOutcome, hs, List.cons_append]; rfl,
      ?_, rfl, rfl⟩⟩
    simp only [State_emit_env, nextSample]
    split <;> rfl

theorem MeetsFault_write (lvs : List LineVector) (s : State) : MeetsFault 1 s (write lvs s) :=
  MeetsFault_call _ _ (.write lvs)
    (fun u => by obtain ⟨p, -, h⟩ := driveAll_pins u lvs; simp only [State_emit_env, h])
    (fun u => by obtain ⟨p, -, h⟩ := driveAll_pins u lvs; simp only [State_emit_trace, h])

theorem MeetsFault_select (sel : Selector) (s : State) : MeetsFault 1 s (select sel s) :=
  MeetsFault_call _ _ (.select sel) (fun _ => rfl) (fun _ => rfl)

theorem MeetsFault_assertHold (s : State) : MeetsFault 1 s (assertHold s) :=
  MeetsFault_call _ _ (.hold .asserted) (fun _ => rfl) (fun _ => rfl)

theorem MeetsFault_releaseHold (s : State) : MeetsFault 1 s (releaseHold s) :=
  MeetsFault_call _ _ (.hold .released) (fun _ => rfl) (fun _ => rfl)

theorem MeetsFault_decodeBits (sel : Selector) (n : Nat) (acc : Byte) (s : State) :
    MeetsFault (2 * n) s (decodeBits sel n acc s) := by
  induction n generalizing acc s with
  | zero => exact MeetsFault_ok acc rfl rfl
  | succ n ih =>
    rw [show 2 * (n + 1) = 1 + (1 + 2 * n) by omega]
    exact MeetsFault_bind (MeetsFault_readPins s) fun m t =>
      MeetsFault_of (MeetsFault_bind (MeetsFault_write _ _) fun _ u => ih _ u) rfl rfl

theorem MeetsFault_decodeMany (sel : Selector) (n : Nat) (s : State) :
    MeetsFault (16 * n) s (decodeMany sel n s) := by
  induction n generalizing s with
  | zero => exact MeetsFault_ok [] rfl rfl
  | succ n ih =>
    rw [show 16 * (n + 1) = 2 * 8 + (16 * n + 0) by omega]
    exact MeetsFault_of (MeetsFault_bind (MeetsFault_decodeBits sel 8 0#8 _) fun b t =>
      MeetsFault_bind (ih t) fun bs u => MeetsFault_ok _ rfl rfl) rfl rfl

/-- `decode_bytes(s, n)` makes `16 n + 2` calls (R124). -/
theorem MeetsFault_decodeBytes (sel : Selector) (n : Nat) (s : State) :
    MeetsFault (16 * n + 2) s (decodeBytes sel n s) := by
  rw [show 16 * n + 2 = 1 + (16 * n + (1 + 0)) by omega]
  exact MeetsFault_bind (MeetsFault_select sel s) fun _ t => MeetsFault_bind (MeetsFault_decodeMany sel n t) fun bs u =>
    MeetsFault_bind (MeetsFault_select _ u) fun _ v => MeetsFault_ok bs rfl rfl

/-- A write transaction makes one call (R161). -/
theorem MeetsFault_writeTxn {bytes : List Byte} {s : State} (hcfg : s.cfg.pinsAdmitted = true)
    (hfit : 16 * (bytes.length + 1) + 1 ≤ s.cfg.bufCap) : MeetsFault 1 s (writeTxn bytes s) := by
  rw [writeTxn_eq_write hcfg hfit]
  exact MeetsFault_of (MeetsFault_bind (n := 0) (MeetsFault_write _ _)
    fun _ u => MeetsFault_ok () (s := u) (t := { u with blen := 0 }) rfl rfl) rfl rfl

/-- A read transaction makes one call more than its read-back (R162). -/
theorem MeetsFault_readTxn (b : Byte) (n : Nat) {s : State} (hcfg : s.cfg.pinsAdmitted = true)
    (hfit : 17 ≤ s.cfg.bufCap) : MeetsFault (1 + (16 * n + 2)) s (readTxn [b] n s) := by
  rw [readTxn_eq_write b n hcfg hfit]
  exact MeetsFault_of (MeetsFault_bind (MeetsFault_write _ _) fun _ _ =>
    MeetsFault_of (MeetsFault_decodeBytes _ _ _) rfl rfl) rfl rfl

/-- The page burst makes one call (R173). -/
theorem MeetsFault_writePage {p : Nat} {record : List Byte} {s : State} (hcfg : s.cfg.pinsAdmitted = true)
    (hlen : record.length = 264) (hfit : 4369 ≤ s.cfg.bufCap) : MeetsFault 1 s (writePage p record s) := by
  rw [writePage_eq_write hcfg hlen hfit]
  exact MeetsFault_of (MeetsFault_bind (n := 0) (MeetsFault_write _ _)
    fun _ u => MeetsFault_ok () (s := u) (t := { u with blen := 0 }) rfl rfl) rfl rfl

end Sys2Proof.Machine
end

