-- ==== Sys2Proof/Laws/PerInstr.lean ====
section
/-! SUPPORT. The per-instruction family `WireLength`: the length of each row's encoding (R88, R89, R82, R87). -/

/-- The bytes of a command on the link: "0x9F and 0xD7 are 1 byte, 0x88 is 3 bytes, 0x7C is 4 bytes, 0x84 is 268 bytes"
(R89); one vector (R82) and the 16 vectors of a frame (R87). -/
def Sys2Proof.Laws.WireLength.length : Sys2Proof.Instr → Nat
  | .identify => 1
  | .eraseS0a => 4
  | .eraseS0b => 4
  | .eraseSn _ => 4
  | .loadBuf _ => 268
  | .commit _ => 3
  | .readStatus => 1
  | .gpioVector _ _ _ => 1
  | .sentinel => 1
  | .byteFrame _ _ => 16

/-- A well-formed instruction is encoded in exactly the bytes its format has. -/
def Sys2Proof.Laws.WireLength.Statement (i : Sys2Proof.Instr) : Prop :=
  i.wf = true → (Sys2Proof.encode i).length = Sys2Proof.Laws.WireLength.length i

theorem Sys2Proof.Laws.WireLength.identify : Sys2Proof.Laws.WireLength.Statement .identify := fun _ => rfl

theorem Sys2Proof.Laws.WireLength.eraseS0a : Sys2Proof.Laws.WireLength.Statement .eraseS0a := fun _ => rfl

theorem Sys2Proof.Laws.WireLength.eraseS0b : Sys2Proof.Laws.WireLength.Statement .eraseS0b := fun _ => rfl

theorem Sys2Proof.Laws.WireLength.eraseSn (addr : Sys2Proof.Byte) :
    Sys2Proof.Laws.WireLength.Statement (.eraseSn addr) := fun _ => rfl

theorem Sys2Proof.Laws.WireLength.loadBuf (data : List Sys2Proof.Byte) :
    Sys2Proof.Laws.WireLength.Statement (.loadBuf data) := by
  intro h
  have hl : data.length = 264 := of_decide_eq_true h
  rw [Sys2Proof.encode, List.length_append, hl]
  rfl

theorem Sys2Proof.Laws.WireLength.commit (page : Nat) : Sys2Proof.Laws.WireLength.Statement (.commit page) :=
  fun _ => rfl

theorem Sys2Proof.Laws.WireLength.readStatus : Sys2Proof.Laws.WireLength.Statement .readStatus := fun _ => rfl

theorem Sys2Proof.Laws.WireLength.gpioVector (lv : Sys2Proof.LineVector) (hold : Sys2Proof.HoldState) (miso : Bool) :
    Sys2Proof.Laws.WireLength.Statement (.gpioVector lv hold miso) := fun _ => rfl

theorem Sys2Proof.Laws.WireLength.sentinel : Sys2Proof.Laws.WireLength.Statement .sentinel := fun _ => rfl

theorem Sys2Proof.Laws.WireLength.byteFrame (sel : Sys2Proof.Selector) (byte : Sys2Proof.Byte) :
    Sys2Proof.Laws.WireLength.Statement (.byteFrame sel byte) := fun _ => rfl
end

