-- ==== Sys2Proof/Laws/Run.lean ====
section
/-! SUPPORT. What a step can be, what an instruction can end in, which operations never stop, and how runs of several
steps are taken apart. -/

namespace Sys2Proof.Machine

theorem pinsAdmitted_of_wf {c : Config} (h : c.wf = true) : c.pinsAdmitted = true := by
  simp only [Config.wf, Bool.and_eq_true] at h; exact h.1.1

theorem idsAdmitted_of_wf {c : Config} (h : c.wf = true) : c.idsAdmitted = true := by
  simp only [Config.wf, Bool.and_eq_true] at h; exact h.1.2

theorem bufCap_of_wf {c : Config} (h : c.wf = true) : 4369 ≤ c.bufCap := by
  simp only [Config.wf, Bool.and_eq_true, decide_eq_true_eq] at h; exact h.2

/-! ### The hold calls and fault entry in a calm environment -/

theorem assertHold_calm {s : State} (h : s.calm) :
    assertHold s = .ok () { s with
      pins := ⟨s.pins.sel, s.pins.sck, s.pins.mosi, .asserted⟩
      trace := s.trace ++ [.hold .asserted]
      env := envAfter 1 0 s } :=
  transportCall_calm h _ _

theorem releaseHold_calm {s : State} (h : s.calm) :
    releaseHold s = .ok () { s with
      pins := ⟨s.pins.sel, s.pins.sck, s.pins.mosi, .released⟩
      trace := s.trace ++ [.hold .released]
      env := envAfter 1 0 s } :=
  transportCall_calm h _ _

/-- Fault entry with its clean-up call (R240). -/
theorem faultEntry_calm {f : EngineFault} {s : State} (h : s.calm) (hf : f.kind ≠ .transport)
    (hh : s.pins.hold = .asserted) :
    faultEntry f s = { s with
      pins := ⟨s.pins.sel, s.pins.sck, s.pins.mosi, .released⟩
      trace := s.trace ++ [.hold .released]
      env := envAfter 1 0 s
      st := .failed, result := .fail, err := f.kind, errstep := currentStep s, phase := .rest } := by
  rw [faultEntry, if_pos ⟨hf, hh⟩, nextOutcome_calm h]; rfl

/-- Fault entry without a clean-up call (R240). -/
theorem faultEntry_plain {f : EngineFault} {s : State} (h : f.kind = .transport ∨ s.pins.hold = .released) :
    faultEntry f s = { s with
      st := .failed, result := .fail, err := f.kind, errstep := currentStep s, phase := .rest } := by
  rw [faultEntry, if_neg (by rcases h with h | h <;> simp [h])]; rfl

/-! ### The step -/

/-- With the host quiet, a step is the next operation of the pseudocode. -/
theorem step_of_running {s : State} (h : s.running) : step s = advance s := by
  obtain ⟨hc, hh, hf⟩ := h
  simp [step, stepBody, pinsAdmitted_of_wf hc, hh, engineStep, hf]

/-- The three things a step with a next state can have done. -/
theorem step_next_cases {s t : State} (h : step s = .next t) :
    s.cfg.pinsAdmitted = true
      ∧ ((∃ host, engineStep { s with env.host := host } = .next t)
        ∨ (∃ host, start { s with env.host := host } = .next t)
        ∨ ∃ host, t = State.toReset { s with env.host := host }) := by
  simp only [step, stepBody] at h
  split at h
  · rename_i hp
    refine ⟨hp, ?_⟩
    split at h
    · rename_i hh
      have he : ({ s with env.host := [] } : State) = s := by
        obtain ⟨cfg, pins, buf, blen, rx, status, ident, dev, record, attempts, st, estep, page, result, err, errstep,
          trace, phase, port, ⟨calls, samples, drawn, image, laterImages, host⟩⟩ := s
        obtain rfl : host = [] := hh
        rfl
      exact .inl ⟨[], by rw [he]; exact h⟩
    · exact .inl ⟨_, h⟩
    · exact .inr (.inl ⟨_, h⟩)
    · cases h; exact .inr (.inr ⟨_, rfl⟩)
  · cases h

/-- How a transport call followed by an update of the state can end a step: done, failed, or reset. -/
theorem finish_call_cases {c : Call} {effect g : State → State} {s t : State}
    (h : finish ((transportCall c effect s).bind fun _ s => .ok () (g s)) = .next t) :
    t = g (effect (dropCalls 1 s)) ∨ (∃ p, t = recordFault .transport { dropCalls 1 s with pins := p })
      ∨ t = (dropCalls 1 s).toReset := by
  rcases transportCall_cases c effect s with hc | ⟨p, hc⟩ | hc <;> rw [hc] at h <;> cases h
  · exact .inl rfl
  · exact .inr (.inl ⟨p, rfl⟩)
  · exact .inr (.inr rfl)

/-- `portEnd` has two values, and a vector of a target alone has the second. -/
theorem portEnd_cases (i : Instr) :
    portEnd i = .portRelease
      ∨ (portEnd i = .portDeselect ∧ ∃ lv hold miso, i = .gpioVector lv hold miso ∧ lv.sel ≠ .selIdle) := by
  cases i with
  | gpioVector lv hold miso =>
    by_cases h : lv.sel = .selIdle
    · exact .inl (if_pos h)
    · exact .inr ⟨if_neg h, lv, hold, miso, rfl, h⟩
  | _ => exact .inl rfl

theorem Core_run_next {M : Host.Core} {s t : M.State} (h : M.step s = .next t) (k : Nat) : M.run (k + 1) s = M.run k t := by
  simp only [Host.Core.run, h]

/-- One step at the head of a run. -/
theorem run_next {s t : State} (h : step s = .next t) (k : Nat) : core.run (k + 1) s = core.run k t :=
  Core_run_next (M := core) h k

theorem Core_run_add {M : Host.Core} {m : Nat} (n : Nat) {s t : M.State} (h : M.run m s = .next t) :
    M.run (m + n) s = M.run n t := by
  induction m generalizing s with
  | zero => cases h; rw [Nat.zero_add]
  | succ m ih =>
    rw [Nat.succ_add]
    cases hs : M.step s with
    | next u => rw [Core_run_next hs] at h ⊢; exact ih h
    | fault r => simp [Host.Core.run, hs] at h
    | refused r => simp [Host.Core.run, hs] at h

/-- A run cut in two. -/
theorem run_add {m : Nat} (n : Nat) {s t : State} (h : core.run m s = .next t) : core.run (m + n) s = core.run n t :=
  Core_run_add (M := core) n h

/-! ### What an instruction can end in -/

theorem readTxn_length {bytes : List Byte} {n : Nat} {s t : State} {r : List Byte} (h : readTxn bytes n s = .ok r t) :
    r.length = n := by
  have hm : ∀ (sel : Selector) (n : Nat) (s t : State) (r : List Byte), decodeMany sel n s = .ok r t → r.length = n := by
    intro sel n
    induction n with
    | zero => intro s t r h; cases h; rfl
    | succ n ih =>
      intro s t r h
      obtain ⟨b, u, -, h⟩ := bind_eq_ok_iff.1 h
      obtain ⟨bs, v, hbs, h⟩ := bind_eq_ok_iff.1 h
      cases h
      rw [List.length_cons, ih _ _ _ hbs]
  obtain ⟨_, u, -, h⟩ := bind_eq_ok_iff.1 h
  obtain ⟨_, v, -, h⟩ := bind_eq_ok_iff.1 h
  obtain ⟨_, w, -, h⟩ := bind_eq_ok_iff.1 h
  obtain ⟨bs, x, hbs, h⟩ := bind_eq_ok_iff.1 h
  obtain ⟨_, y, -, h⟩ := bind_eq_ok_iff.1 h
  cases h
  exact hm _ _ _ _ _ hbs

/-- The ways an instruction can have a next state: its effect, with the register its read-back writes; fault entry; a
reset between two of its calls. -/
inductive ExecEnds (i : Instr) (s t : State) : Prop
  | done (reach : Reach s t) (hold : t.pins.hold = s.pins.hold) (noIdent : i ≠ .identify) (noStatus : i ≠ .readStatus)
  | ident (u : State) (v : BitVec 32) (reach : Reach s u) (hold : u.pins.hold = s.pins.hold) (is : i = .identify)
      (eq : t = { u with ident := some v })
  | status (u : State) (v : Byte) (reach : Reach s u) (hold : u.pins.hold = s.pins.hold) (is : i = .readStatus)
      (eq : t = { u with status := some v })
  | fault (f : EngineFault) (u : State) (reach : Reach s u) (hold : f.kind = .transport ∨ u.pins.hold = s.pins.hold)
      (eq : t = faultEntry f u)
  | reset (e : Env) (eq : t = State.resetOf s.cfg e)

theorem execEnds_of_Framed {α : Type} {i : Instr} {s t : State} {r : Res α} (hr : Framed s r) (h : finish r = .next t)
    (h1 : i ≠ .identify) (h2 : i ≠ .readStatus) : ExecEnds i s t := by
  cases r with
  | ok a u => cases h; exact .done hr.1 hr.2 h1 h2
  | raised f u => cases h; exact .fault f u hr.1 hr.2 rfl
  | reset u => cases h; obtain ⟨e, he⟩ := hr.1; exact .reset e he
  | stop f => cases h

theorem exec_ends {i : Instr} {s t : State} (h : exec i s = .next t) : ExecEnds i s t := by
  cases i with
  | identify =>
    have hr := Framed_readTxn [0x9F#8] 4 s
    have h : finish ((readTxn [0x9F#8] 4 s).bind fun r s => .ok () { s with ident := some (identOf r) }) = .next t := h
    cases he : readTxn [0x9F#8] 4 s with
    | ok a u => rw [he] at h hr; cases h; exact .ident u _ hr.1 hr.2 rfl rfl
    | raised f u => rw [he] at h hr; cases h; exact .fault f u hr.1 hr.2 rfl
    | reset u => rw [he] at h hr; cases h; obtain ⟨e, he⟩ := hr.1; exact .reset e he
    | stop f => rw [he] at h; cases h
  | readStatus =>
    have hr := Framed_readTxn [0xD7#8] 1 s
    have h : finish ((readTxn [0xD7#8] 1 s).bind fun r s => .ok () { s with status := r.head? }) = .next t := h
    cases he : readTxn [0xD7#8] 1 s with
    | ok a u =>
      have hl := readTxn_length he
      rw [he] at h hr; cases h
      match a, hl with
      | [v], _ => exact .status u v hr.1 hr.2 rfl rfl
    | raised f u => rw [he] at h hr; cases h; exact .fault f u hr.1 hr.2 rfl
    | reset u => rw [he] at h hr; cases h; obtain ⟨e, he⟩ := hr.1; exact .reset e he
    | stop f => rw [he] at h; cases h
  | eraseS0a => exact execEnds_of_Framed (Framed_writeTxn _ s) h nofun nofun
  | eraseS0b => exact execEnds_of_Framed (Framed_writeTxn _ s) h nofun nofun
  | eraseSn a => exact execEnds_of_Framed (Framed_writeTxn _ s) h nofun nofun
  | loadBuf data => exact execEnds_of_Framed (Framed_writeTxn _ s) h nofun nofun
  | commit p => exact execEnds_of_Framed (Framed_writeTxn _ s) h nofun nofun
  | gpioVector lv hold miso => exact execEnds_of_Framed (Framed_write _ s) h nofun nofun
  | sentinel => exact execEnds_of_Framed (Framed_assemble _ _ _ s) h nofun nofun
  | byteFrame sel b => exact execEnds_of_Framed (Framed_assemble _ _ _ s) h nofun nofun

/-- What no instruction changes, when no reset comes between its calls. -/
theorem controlKept_of_Framed {α : Type} {s t : State} {r : Res α} (hr : Framed s r) (hs : s.unreset)
    (h : finish r = .next t) : controlKept s t := by
  rcases finish_next_of_Sat hr h with ⟨a, hr, hh⟩ | ⟨e, s', ⟨hr, hh⟩, rfl⟩ | ⟨-, hn⟩
  · exact ⟨hr.cfg, hr.dev, hr.record, hr.attempts, hr.estep, hr.page, hr.port, hr.image, hr.laterImages, hr.host,
      .inl ⟨hr.st, hr.result, hr.err, hr.errstep, hr.phase, hh⟩⟩
  · have hc : currentStep s' = currentStep s := by simp only [currentStep, hr.st, hr.estep, hr.page]
    rcases faultEntry_cases e s' with ⟨u, hu, hcase⟩ | ⟨-, hn⟩
    · rw [hu]
      rcases hcase with rfl | ⟨-, -, rfl | ⟨x, rfl⟩⟩ <;>
      exact ⟨hr.cfg, hr.dev, hr.record, hr.attempts, hr.estep, hr.page, hr.port, hr.image, hr.laterImages, hr.host,
        .inr ⟨rfl, rfl, kind_ne_none e, hc, rfl⟩⟩
    · exact absurd (hr.unreset hs) hn
  · exact absurd hs hn

/-! ### Operations that never stop the machine -/

/-- The operation ends in a state. -/
def Res.runs {α : Type} (r : Res α) : Prop :=
  ∀ f, r ≠ .stop f

theorem runs_ok {α : Type} (a : α) (s : State) : (Res.ok a s).runs := nofun

theorem runs_bind {α β : Type} {r : Res α} {k : α → State → Res β} (h : r.runs) (hk : ∀ a s, (k a s).runs) :
    (r.bind k).runs := by
  cases r with
  | ok a s => exact hk a s
  | raised f s => nofun
  | reset s => nofun
  | stop f => exact absurd rfl (h f)

theorem finish_ne_fault {α : Type} {r : Res α} (h : r.runs) (f : Fault) : finish r ≠ .fault f := by
  cases r with
  | ok a s => nofun
  | raised e s => nofun
  | reset s => nofun
  | stop e => exact absurd rfl (h e)

theorem transportCall_runs (c : Call) (effect : State → State) (s : State) : (transportCall c effect s).runs := by
  rcases transportCall_cases c effect s with h | ⟨p, h⟩ | h <;> rw [h] <;> nofun

theorem readPins_runs (s : State) : (readPins s).runs := by
  rcases readPins_cases s with ⟨m, h⟩ | ⟨p, h⟩ | h <;> rw [h] <;> nofun

theorem decodeBits_runs (sel : Selector) (n : Nat) (acc : Byte) (s : State) : (decodeBits sel n acc s).runs := by
  induction n generalizing acc s with
  | zero => exact runs_ok _ _
  | succ n ih =>
    exact runs_bind (readPins_runs s) fun _ _ => runs_bind (transportCall_runs _ _ _) fun _ u => ih _ u

theorem decodeBytes_runs (sel : Selector) (n : Nat) (s : State) : (decodeBytes sel n s).runs := by
  have hm : ∀ n s, (decodeMany sel n s).runs := by
    intro n
    induction n with
    | zero => exact fun s => runs_ok _ _
    | succ n ih =>
      exact fun s => runs_bind (decodeBits_runs _ _ _ _) fun _ t => runs_bind (ih t) fun _ _ => runs_ok _ _
  exact runs_bind (transportCall_runs _ _ _) fun _ t => runs_bind (hm n t) fun _ _ =>
    runs_bind (transportCall_runs _ _ _) fun _ _ => runs_ok _ _

theorem assemble_runs (bytes : List Byte) (off : Nat) (sel : Selector) (s : State) : (assemble bytes off sel s).runs := by
  unfold assemble; split <;> nofun

theorem writeTxn_runs {bytes : List Byte} {s : State} (hcfg : s.cfg.pinsAdmitted = true)
    (hfit : 16 * (bytes.length + 1) + 1 ≤ s.cfg.bufCap) : (writeTxn bytes s).runs := by
  rw [writeTxn_eq_write hcfg hfit]; exact runs_bind (transportCall_runs _ _ _) fun _ _ => runs_ok _ _

theorem readTxn_runs (b : Byte) (n : Nat) {s : State} (hcfg : s.cfg.pinsAdmitted = true) (hfit : 17 ≤ s.cfg.bufCap) :
    (readTxn [b] n s).runs := by
  rw [readTxn_eq_write b n hcfg hfit]; exact runs_bind (transportCall_runs _ _ _) fun _ _ => decodeBytes_runs _ _ _

theorem writePage_runs {p : Nat} {record : List Byte} {s : State} (hcfg : s.cfg.pinsAdmitted = true)
    (hlen : record.length = 264) (hfit : 4369 ≤ s.cfg.bufCap) : (writePage p record s).runs := by
  rw [writePage_eq_write hcfg hlen hfit]; exact runs_bind (transportCall_runs _ _ _) fun _ _ => runs_ok _ _

end Sys2Proof.Machine
end

