-- ==== Sys2Proof/Tests/Slice0.lean ====
section
/-! SUPPORT. Small tests: the checks of WellFormed, words written out from the encodings, single operations and steps with
the results of 95_test_vectors.md, and for each statement with hypotheses a state and operands that meet them. -/

namespace Sys2Proof.Tests

open Sys2Proof.Machine

/-! ## Concrete machines -/

/-- The reference parameters with the stand-in identifiers of 95_test_vectors.md and both budgets 4. -/
def cfg : Config := Config.reference 0x1234#16 0x5678#16 4 4

/-- The machine with those parameters after a reset, nothing prepared. -/
def blank : State := State.resetOf cfg Env.empty

/-- Samples whose data-in bits are these: bit 4 of the vector (R86). -/
def samplesOf (ms : List Bool) : List GpioVector := ms.map fun m => if m then 0x10 else 0x00

/-- The samples of bytes, first bit highest (R123). -/
def samplesOfBytes (bs : List Byte) : List GpioVector := bs.flatMap fun b => samplesOf (bitsMsbFirst b)

/-- A machine that will receive these bytes. -/
def receiving (bs : List Byte) : State := { blank with env := { Env.empty with samples := samplesOfBytes bs } }

/-- A machine inside a run, at a place of the pseudocode. -/
def inRun (st : RunState) (phase : Phase) (hold : HoldState) : State :=
  { blank with st := st, phase := phase, pins := ⟨.selIdle, false, false, hold⟩ }

/-- The next state of an outcome. -/
def nextOf (o : Host.Outcome State Fault Refusal) : Option State :=
  match o with
  | .next s => some s
  | .fault _ => none
  | .refused _ => none

/-- The state an operation completes in. -/
def okOf {α : Type} (r : Res α) : Option State :=
  match r with
  | .ok _ s => some s
  | .raised _ _ => none
  | .reset _ => none
  | .stop _ => none

/-- The value an operation completes with. -/
def valueOf {α : Type} (r : Res α) : Option α :=
  match r with
  | .ok a _ => some a
  | .raised _ _ => none
  | .reset _ => none
  | .stop _ => none

/-- The fault an operation raises. -/
def raisedOf {α : Type} (r : Res α) : Option EngineFault :=
  match r with
  | .ok _ _ => none
  | .raised f _ => some f
  | .reset _ => none
  | .stop _ => none

/-- The packed vectors a state has written. -/
def writtenBy (s : State) : List (List GpioVector) :=
  s.trace.filterMap fun e => match e with
    | .write lvs => some (lvs.map fun lv => pack s.cfg lv .asserted)
    | _ => none

/-! ## WellFormed refuses -/

/-- Sector 0 has no `ERASE_SN` (R92); 9 is a sector of neither device (R91). -/
theorem test_wf_sector : (Instr.eraseSn 0x00#8).wf = false ∧ (Instr.eraseSn 0x09#8).wf = false
    ∧ (Instr.eraseSn 0x20#8).wf = false ∧ (Instr.eraseSn 0x1E#8).wf = true := by decide

/-- A record of 263 bytes (R60). -/
theorem test_wf_loadBuf : (Instr.loadBuf (List.replicate 263 0#8)).wf = false
    ∧ (Instr.loadBuf (List.replicate 264 0#8)).wf = true := by decide +kernel

/-- Page 1024 (R61). -/
theorem test_wf_commit : (Instr.commit 1024).wf = false ∧ (Instr.commit 1023).wf = true := by decide

/-! ## Words written out from the encodings -/

/-- R90: opcodes 9F and D7. -/
theorem test_decode_c1 : decode [0b10011111#8] = .ok .identify ∧ decode [0b11010111#8] = .ok .readStatus := by decide

/-- R90, R92: 7C 00 00 00 and 7C 00 10 00. -/
theorem test_decode_sector0 : decode [0b01111100#8, 0#8, 0#8, 0#8] = .ok .eraseS0a
    ∧ decode [0b01111100#8, 0#8, 0b00010000#8, 0#8] = .ok .eraseS0b := by decide

/-- R91: sector 15 of the larger device, 15 << 1 = 1E. -/
theorem test_decode_eraseSn : decode [0b01111100#8, 0#8, 0b00011110#8, 0#8] = .ok (.eraseSn 0x1E#8) := by decide

/-- 2.6: page 1000 is 07 D0. -/
theorem test_decode_commit : decode [0b10001000#8, 0b00000111#8, 0b11010000#8] = .ok (.commit 1000) := by decide

/-- R94: 84, three zero bytes, the data. -/
theorem test_decode_loadBuf :
    decode ([0b10000100#8, 0#8, 0#8, 0#8] ++ List.replicate 264 0xFF#8) = .ok (.loadBuf (List.replicate 264 0xFF#8)) := by
  decide +kernel

/-- 2.1: 0x2E is `LV(SEL_A,1,1)` with hold released, 0x05 is `LV(SEL_B,1,0)` with hold asserted. -/
theorem test_decode_vector : decode [0b00101110#8] = .ok (.gpioVector ⟨.selA, true, true⟩ .released false)
    ∧ decode [0b00000101#8] = .ok (.gpioVector ⟨.selB, true, false⟩ .asserted false)
    ∧ decode [0b00000000#8] = .ok .sentinel := by decide

/-- 2.3: the vectors of A5 under `SEL_B`. -/
theorem test_decode_frame :
    decode [0x09#8, 0x0D#8, 0x01#8, 0x05#8, 0x09#8, 0x0D#8, 0x01#8, 0x05#8, 0x01#8, 0x05#8, 0x09#8, 0x0D#8, 0x01#8,
      0x05#8, 0x09#8, 0x0D#8] = .ok (.byteFrame .selB 0xA5#8) := by decide +kernel

/-- R96: an unknown opcode, both selects active, an odd commit byte, an erase address with a nonzero first byte. -/
theorem test_decode_rejects : decode [0xAB#8] = .error (.opcode 0xAB#8) ∧ decode [0x04#8] = .error (.bothSelected 0x04#8)
    ∧ decode [0x88#8, 0x00#8, 0x01#8] = .error (.pageAddress 0x00#8 0x01#8)
    ∧ decode [0x7C#8, 0x01#8, 0x10#8, 0x00#8] = .error (.sectorAddress 0x01#8 0x10#8 0x00#8)
    ∧ decode [] = .error .noBytes := by decide

/-! ## Operations -/

/-- 2.1: packing with other parameters: positions 7 6 0 1 2 3, and active-high selects with hold asserted high. -/
theorem test_pack_parameters :
    pack { cfg with pCsa := 7, pCsb := 6, pSck := 0, pMosi := 1, pMiso := 2, pHold := 3 } ⟨.selB, true, false⟩ .asserted
        = 0x81
      ∧ pack { cfg with csActive := true, holdLevel := true } ⟨.selA, true, true⟩ .asserted = 0x2D := by decide

/-- 2.1 (c): these parameters break R84 and are refused. -/
theorem test_pack_refused : Config.pinsAdmitted { cfg with csActive := true } = false
    ∧ pack { cfg with csActive := true } ⟨.selIdle, false, false⟩ .asserted = 0 := by decide

/-- 2.2: `assert_hold()` from (A,1,1,RELEASED) moves only HOLD. -/
theorem test_assertHold :
    (okOf (assertHold { blank with pins := ⟨.selA, true, true, .released⟩ })).map State.pins
      = some ⟨.selA, true, true, .asserted⟩ := by decide

/-- 2.2: `read_pins()` returning EF: bit 4 is 0, the other seven bits ignored. -/
theorem test_readPins :
    valueOf (readPins { blank with env := { Env.empty with samples := [0xEF] } }) = some false := by decide

/-- 2.4: `decode(SEL_B)` of 1,0,1,0,0,1,0,1 is A5; the pins driven are 01, 8 x (05 01), 03. -/
theorem test_decodeBytes :
    valueOf (decodeBytes .selB 1 (receiving [0xA5#8])) = some [0xA5#8]
      ∧ (okOf (decodeBytes .selB 1 (receiving [0xA5#8]))).map writtenBy = some (List.replicate 8 [0x05, 0x01]) := by
  decide +kernel

/-- 2.4: a fault of the second `read_pins()` is raised, with one sample and one pulse in the trace (R128). -/
theorem test_decodeBytes_faults :
    raisedOf (decodeBytes .selA 1 { blank with env := { Env.empty with
        calls := [.completes, .completes, .completes, .faults ⟨.selB, true, false, .released⟩] } })
      = some (.transport .readPins) := by decide +kernel

/-- 2.5: `assemble([AB], 8, SEL_A)`, and 274 bytes, raise `StreamLengthError`; 273 bytes fit exactly. -/
theorem test_assemble_length :
    raisedOf (assemble [0xAB#8] 8 .selA blank) = some (.streamLength 8)
      ∧ raisedOf (assemble (List.replicate 274 0#8) 0 .selA blank) = some (.streamLength 0)
      ∧ valueOf (assemble (List.replicate 273 0#8) 0 .selA blank) = some 4368 := by decide +kernel

/-- 2.5: the identity 12 34 00 00 is 3412, neither stand-in; 78 56 FF FF is the larger device. -/
theorem test_classify : classifyIdent cfg (identOf [0x12#8, 0x34#8, 0x00#8, 0x00#8]) = .none
    ∧ classifyIdent cfg (identOf [0x78#8, 0x56#8, 0xFF#8, 0xFF#8]) = .large
    ∧ identOf [0x34#8, 0x12#8, 0xAA#8, 0xBB#8] = 0xBBAA1234#32 := by decide

/-- R60, P3: the last record of 2 bytes is padded to 264. -/
theorem test_padRecord : (padRecord [0x10#8, 0x11#8]).length = 264 ∧ (padRecord [0x10#8, 0x11#8])[2]? = some 0x00#8 := by
  decide +kernel

/-! ## Instructions, one step each -/

/-- 2.5: `IDENTIFY` answered 34 12 AA BB: `ident` BBAA1234, 82 vectors. -/
theorem test_identify :
    (nextOf (exec .identify (receiving [0x34#8, 0x12#8, 0xAA#8, 0xBB#8]))).map (fun t => (t.ident, vectorCount t.trace))
      = some (some 0xBBAA1234#32, 82) := by decide +kernel

/-- 2.5: `READ_STATUS` answered 1,0,1,0,1,1,0,0: AC, 34 vectors, idle selector and low clock after it. -/
theorem test_readStatus :
    (nextOf (exec .readStatus (receiving [0xAC#8]))).map (fun t => (t.status, vectorCount t.trace, t.pins.sel, t.pins.sck))
      = some (some 0xAC#8, 34, .selIdle, false) := by decide +kernel

/-- 2.5: `ERASE_S0A` is one write of 80 vectors. -/
theorem test_eraseS0a :
    (nextOf (exec .eraseS0a blank)).map (fun t => (t.trace.length, vectorCount t.trace)) = some (1, 80) := by
  decide +kernel

/-- 2.5: the `ERASE_S0B` burst in full; the pins hold 07 after it. -/
theorem test_eraseS0b :
    (nextOf (exec .eraseS0b blank)).map (fun t => (writtenBy t, t.pins.sel, t.pins.sck, t.pins.mosi))
      = some ([[0x02, 0x06, 0x0A, 0x0E, 0x0A, 0x0E, 0x0A, 0x0E, 0x0A, 0x0E, 0x0A, 0x0E, 0x02, 0x06, 0x02, 0x06]
          ++ (List.replicate 8 [0x02, 0x06]).flatten
          ++ [0x02, 0x06, 0x02, 0x06, 0x02, 0x06, 0x0A, 0x0E, 0x02, 0x06, 0x02, 0x06, 0x02, 0x06, 0x02, 0x06]
          ++ (List.replicate 8 [0x02, 0x06]).flatten ++ (List.replicate 8 [0x03, 0x07]).flatten],
        .selIdle, true, false) := by decide +kernel

/-- 2.5: `ERASE_SN(15)` on the larger device sends 1E third: vectors 32 to 47 of the burst are its frame. -/
theorem test_eraseSn :
    (nextOf (exec (.eraseSn (sectorAddr .large 15)) blank)).map (fun t => (writtenBy t).map fun w => (w.drop 32).take 16)
      = some [[0x02, 0x06, 0x02, 0x06, 0x02, 0x06, 0x0A, 0x0E, 0x0A, 0x0E, 0x0A, 0x0E, 0x0A, 0x0E, 0x02, 0x06]] := by
  decide +kernel

/-- 2.6: `COMMIT` of page 2 sends 04 last: vectors 32 to 47, and an idle pulse makes 64. -/
theorem test_commit :
    (nextOf (exec (.commit 2) blank)).map (fun t => (vectorCount t.trace, (writtenBy t).map fun w => (w.drop 32).take 16))
      = some (64, [[0x02, 0x06, 0x02, 0x06, 0x02, 0x06, 0x02, 0x06, 0x02, 0x06, 0x0A, 0x0E, 0x02, 0x06, 0x02, 0x06]]) := by
  decide +kernel

/-- R167: `LOAD_BUF` is one write of 16 x 269 vectors. -/
theorem test_loadBuf :
    (nextOf (exec (.loadBuf (List.replicate 264 0xFF#8)) blank)).map (fun t => vectorCount t.trace) = some 4304 := by
  decide +kernel

/-- R114, R117: one vector moves four lines and not HOLD. -/
theorem test_gpioVector :
    (nextOf (exec (.gpioVector ⟨.selA, true, true⟩ .asserted false) blank)).map State.pins
      = some ⟨.selA, true, true, .released⟩ := by decide

/-- 2.5: `assemble([], 0)` stores 00 at offset 0. -/
theorem test_sentinel : (nextOf (exec .sentinel blank)).map (fun t => (t.buf, t.blen)) = some ([(0, 0)], 0) := by decide

/-- 2.3, 2.5: the frame of D7 in offsets 0 to 15 and 00 at 16. -/
theorem test_byteFrame :
    (nextOf (exec (.byteFrame .selA 0xD7#8) blank)).map (fun t => (t.buf.map Prod.snd, t.blen))
      = some ([0x0A, 0x0E, 0x0A, 0x0E, 0x02, 0x06, 0x0A, 0x0E, 0x02, 0x06, 0x0A, 0x0E, 0x0A, 0x0E, 0x0A, 0x0E, 0x00],
        16) := by decide +kernel

/-- A step runs the word of a row placed for it. -/
theorem test_step_readStatus :
    (nextOf (step (blank.withFetchWord 8 0xD7))).map (fun t => vectorCount t.trace) = some 34 := by decide +kernel

/-- R207: a command at the port begins with `assert_hold()` and no vector; the pins go from 23 to 03. -/
theorem test_step_portBegins :
    (nextOf (step { blank with port := [0xD7#8] })).map (fun t => (t.trace, t.pins.hold, t.port))
      = some ([.hold .asserted], .asserted, [0xD7#8]) := by decide

/-- R270: a vector that leaves target A selected is followed by a deselect, with hold still asserted. -/
theorem test_step_portDeselects :
    (nextOf (step { inRun .idle .portDeselect .asserted with pins := ⟨.selA, true, true, .asserted⟩ })).map
        (fun t => (t.trace, t.pins, t.phase))
      = some ([.select .selIdle], ⟨.selIdle, false, false, .asserted⟩, .portRelease) := by decide

/-- R21, R270: the instruction decides what follows it, whatever selector stood on the lines before. -/
theorem test_portEnd :
    portEnd (.gpioVector ⟨.selA, true, true⟩ .asserted false) = .portDeselect
      ∧ portEnd (.gpioVector ⟨.selIdle, true, true⟩ .asserted false) = .portRelease
      ∧ portEnd (.byteFrame .selA 0xD7#8) = .portRelease := by decide

/-- R9, R237: a command at the port waits while a run is in progress. -/
theorem test_step_portWaits :
    (nextOf (step { inRun .erasing (.pollStart .erase) .asserted with port := [0xD7#8] })).map
        (fun t => (t.trace, t.phase, t.port)) = some ([], .pollAttempt .erase, [0xD7#8]) := by decide

/-- R116, R128: the third call of `READ_STATUS`, its first `read_pins()`, faults: the run fails after two calls. -/
theorem test_readStatus_faults :
    (nextOf (exec .readStatus { blank with env := { Env.empty with
        calls := [.completes, .completes, .faults ⟨.selB, true, false, .released⟩] } })).map
        (fun t => (t.st, t.err, t.trace.length)) = some (.failed, .transport, 2) := by decide +kernel

/-- R203: `End` ends a run with success. -/
theorem test_fetch_end :
    (nextOf (step { inRun .programming .fetch .released with
        env := { Env.empty with image := [.finished] } })).map
        (fun t => (t.st, t.result, t.env.image)) = some (.idle, .ok, []) := by decide

/-- R203, R279: a short record that is the last of its image is admitted, whatever image a later run has. -/
theorem test_fetch_shortLast :
    (nextOf (step { inRun .programming .fetch .released with
        env := { Env.empty with image := [.record [0x10#8]], laterImages := [[.record [0x11#8]]] } })).map
        (fun t => (t.phase, t.env.image, t.env.laterImages)) = some (.pageHold, [], [[.record [0x11#8]]]) := by
  decide +kernel

/-- R263, R279: a run takes an image of its own at its start; what an earlier one left is gone. -/
theorem test_start_takesTheNextImage :
    (nextOf (step { blank with env := { Env.empty with
        image := [.record [0x10#8]], laterImages := [[.record [0x11#8]], [.readError]], host := [.start] } })).map
        (fun t => (t.st, t.env.image, t.env.laterImages))
      = some (.identifying, [.record [0x11#8]], [[.readError]]) := by decide

/-! ## Witnesses: a state and operands that meet the hypotheses of each statement -/

/-- A buffered stream: the frame of D7 and its sentinel. -/
def loaded : State := { blank with buf := Memory.cells 0 (streamVectors cfg .selA [0xD7#8]), blen := 16 }

/-- A record of 264 bytes. -/
def record264 : List Byte := List.replicate 264 0xFF#8

/-- The state after reset meets the invariant of the bus, hence every statement over its states has an instance. -/
theorem blank_runInv : blank.runInv :=
  ⟨⟨by decide, .released, rfl, .inr rfl⟩, .inr (.inr rfl)⟩

theorem witness_DecodeOfEncodeIsTheInstruction :
    ([.identify, .eraseS0a, .eraseS0b, .eraseSn 0x01#8, .eraseSn 0x10#8, .eraseSn 0x1E#8, .loadBuf record264, .commit 0,
      .commit 1023, .readStatus, .gpioVector ⟨.selIdle, true, true⟩ .released true, .sentinel,
      .byteFrame .selIdle 0xFF#8] : List Instr).all Instr.wf = true := by decide +kernel

theorem witness_EncodeOfDecodeIsTheBytes : decode [0x88#8, 0x07#8, 0xFE#8] = .ok (.commit 1023) := by decide

theorem witness_PageAddressBytesNameOnePage : 0 < 1024 ∧ 1023 < 1024 ∧ pageHi 1023 = 0x07#8 ∧ pageLo 1023 = 0xFE#8
    ∧ 0 < 3 ∧ 2 < 3 ∧ 3 ≤ 3 ∧ 6 < 7 := by decide

theorem witness_SectorAddressByDevice : 1 ≤ 1 ∧ 1 ≤ 7 ∧ 7 ≤ 7 ∧ 15 ≤ 15 ∧ sectorAddr .small 7 = 0x07#8
    ∧ sectorAddr .large 1 = 0x02#8 ∧ sectorAddr .large 15 = 0x1E#8 := by decide

theorem witness_ByteFrameLayout : 0 < 16 ∧ 15 < 16 ∧ (frame .selA 0x01#8)[15]? = some ⟨.selA, true, true⟩ := by decide

theorem witness_PackedVectorBits : cfg.positions.Nodup ∧ 6 ∉ cfg.positions := by decide

theorem witness_NoVectorPacksToZeroExactlyWhen : cfg.csActive = false
    ∧ ∀ s : Selector, s = .selA ∨ s = .selB ∨ s = .selIdle → pack cfg ⟨s, false, false⟩ .asserted ≠ 0 := by
  refine ⟨rfl, ?_⟩
  rintro s (rfl | rfl | rfl) <;> decide

theorem witness_AtMostOneChipSelectActive : cfg.positions.Nodup := by decide

theorem witness_ResetFromAnyState :
    cfg.pinsAdmitted = true ∧ cfg.wf = true
      ∧ ({ inRun .failed .rest .asserted with env := { Env.empty with host := [.reset] } } : State).env.host
        = .reset :: []
      ∧ Instr.readStatus.wf = true ∧ Instr.readStatus ≠ .sentinel ∧ (∀ sel b, Instr.readStatus ≠ .byteFrame sel b)
      ∧ ({ blank with env := { Env.empty with calls := [.reset] } } : State).env.calls = .reset :: [] :=
  ⟨by decide, by decide, rfl, rfl, nofun, nofun, rfl⟩

theorem witness_StepRunsTheDecodedCommand :
    cfg.pinsAdmitted = true ∧ blank.st ≠ .failed ∧ blank.calm ∧ blank.phase = .rest ∧ blank.env.host = []
      ∧ decode ({ blank with port := [0xD7#8] } : State).port = .ok .readStatus
      ∧ (inRun .idle .portCommand .asserted).phase = .portCommand ∧ (inRun .idle .portCommand .asserted).st ≠ .failed
      ∧ (inRun .idle .portRelease .asserted).phase = .portRelease ∧ (inRun .idle .portRelease .asserted).calm
      ∧ (inRun .idle .portDeselect .asserted).phase = .portDeselect ∧ (inRun .idle .portDeselect .asserted).calm
      ∧ ({ blank with port := [0xD7#8], env := { Env.empty with host := [.quiet] } } : State).env.host
        = .quiet :: [] := by decide

theorem witness_FetchWordIsRunByTheNextStep :
    cfg.pinsAdmitted = true ∧ decodeTableWord 24 0x8807FE = some (.commit 1023) := by decide

theorem witness_ParametersNeverChange : nextOf (step blank) = some blank := by decide

theorem witness_TransportCallsDriveTheirLines : blank.calm := by decide

theorem witness_ReadPinsTakesTheDataInBit :
    ({ blank with env := { Env.empty with samples := [0x10] } } : State).calm
      ∧ ({ blank with env := { Env.empty with samples := [0x10] } } : State).env.samples = 0x10 :: [] := by decide

theorem witness_FaultingCallRaisesTransportFault :
    ({ blank with env := { Env.empty with calls := [.faults ⟨.selB, true, true, .asserted⟩] } } : State).env.calls
      = .faults ⟨.selB, true, true, .asserted⟩ :: [] := by decide

theorem witness_DecodeBytesReadsInOneSelection : 1 ≤ 1 ∧ (receiving [0xA5#8]).calm := by decide

theorem witness_EncodeThenDecodeRoundTrip :
    (receiving [0xA5#8]).calm ∧ 0 < 2 ∧ 1 < 2
      ∧ (List.range 8).all (fun k => (upcomingBits 8 (receiving [0xA5#8]))[k]?
        == ((frame .selA 0xA5#8)[2 * k]?).map LineVector.mosi) = true
      ∧ (List.range 8).all (fun k => (upcomingBits 8 (receiving [0xA5#8]))[k]?
        == ((frame .selA 0xA5#8)[2 * k + 1]?).map LineVector.mosi) = true := by decide +kernel

theorem witness_AssembleStoresFramesAndSentinel :
    4352 % 16 = 0 ∧ 4352 + 16 * [0xAB#8].length + 1 ≤ cfg.bufCap := by decide

theorem witness_AssembleChecksTheStreamLength :
    (8 % 16 ≠ 0) ∧ cfg.bufCap < 4368 + 16 * [0xAB#8].length + 1 := by decide

theorem witness_AssembleConcatenates :
    0 % 16 = 0 ∧ 0 + 16 * ([0x7C#8] ++ [0x00#8]).length + 1 ≤ cfg.bufCap := by decide

theorem witness_TransmitSendsTheStreamInOneWrite :
    loaded.calm ∧ loaded.cfg.pinsAdmitted = true ∧ loaded.buf.wf ∧ loaded.blen = ((frame .selA 0xD7#8).take 15).length + 1
      ∧ (List.range 16).all (fun k => loaded.buf.read k
        == ((((frame .selA 0xD7#8).take 15) ++ [⟨.selA, true, true⟩])[k]?).map fun lv => pack cfg lv .asserted)
        = true := by decide +kernel

theorem witness_PageBurstIsOneWrite : blank.calm ∧ cfg.wf = true ∧ record264.length = 264 := by decide +kernel

theorem witness_WriteCommandsComplete :
    ([.eraseS0a, .eraseS0b, .eraseSn 0x1E#8, .loadBuf record264, .commit 1023] : List Instr).all
        (fun i => isWriteCommand i && i.wf) = true ∧ blank.calm ∧ cfg.wf = true := by decide +kernel

theorem witness_IdentifyCompletes : (receiving [0x34#8, 0x12#8, 0xAA#8, 0xBB#8]).calm ∧ cfg.wf = true := by
  decide +kernel

theorem witness_ReadStatusCompletes : (receiving [0xAC#8]).calm ∧ cfg.wf = true := by decide

theorem witness_GpioVectorCompletes : blank.calm := by decide

theorem witness_SentinelCompletes :
    blank.blen % 16 = 0 ∧ blank.blen + 1 ≤ blank.cfg.bufCap
      ∧ ({ blank with blen := 4368 } : State).blen % 16 = 0
      ∧ ({ blank with blen := 4368 } : State).blen + 1 ≤ cfg.bufCap := by decide

theorem witness_ByteFrameCompletes :
    ({ blank with blen := 4352 } : State).blen % 16 = 0 ∧ ({ blank with blen := 4352 } : State).blen + 17 ≤ cfg.bufCap := by
  decide

theorem witness_WriteCommandsFrame :
    isWriteCommand .eraseS0a = true ∧ blank.unreset ∧ (nextOf (exec .eraseS0a blank)).isSome = true := by decide +kernel

theorem witness_ReadCommandsFrame :
    (receiving [0x34#8, 0x12#8, 0xAA#8, 0xBB#8]).unreset
      ∧ (nextOf (exec .identify (receiving [0x34#8, 0x12#8, 0xAA#8, 0xBB#8]))).isSome = true
      ∧ (nextOf (exec .readStatus (receiving [0x34#8, 0x12#8, 0xAA#8, 0xBB#8]))).isSome = true := by decide +kernel

theorem witness_GpioVectorFrame :
    blank.unreset ∧ (nextOf (exec (.gpioVector ⟨.selA, true, true⟩ .asserted false) blank)).isSome = true := by decide

theorem witness_StreamRowsFrame :
    blank.unreset ∧ (nextOf (exec .sentinel blank)).isSome = true
      ∧ (nextOf (exec (.byteFrame .selA 0xD7#8) blank)).isSome = true := by decide +kernel

theorem witness_VectorCountsOfTheTransactions : blank.calm ∧ cfg.wf = true ∧ record264.length = 264 := by
  decide +kernel

theorem witness_TransportFaultInACommandEndsTheRun :
    (Instr.commit 0).wf = true ∧ Instr.identify.wf = true ∧ cfg.wf = true ∧ ([] : List CallOutcome).length < callCount (.commit 0)
      ∧ (List.replicate 66 CallOutcome.completes).length < callCount .identify
      ∧ (∀ o ∈ List.replicate 66 CallOutcome.completes, o = .completes)
      ∧ ({ blank with env := { Env.empty with
          calls := List.replicate 66 .completes ++ [.faults ⟨.selB, true, true, .asserted⟩] } } : State).env.calls
        = List.replicate 66 .completes ++ .faults ⟨.selB, true, true, .asserted⟩ :: [] := by decide

/-- The transport faults the next call. -/
def faulting (s : State) : State := { s with env := { Env.empty with calls := [.faults ⟨.selB, true, true, .asserted⟩] } }

theorem witness_TransportFaultInARunStepEndsTheRun :
    (faulting blank).env.calls = .faults ⟨.selB, true, true, .asserted⟩ :: []
      ∧ (faulting (inRun .identifying .identifyHold .released)).running
      ∧ (faulting (inRun .identifying .identifyRelease .asserted)).running
      ∧ (faulting (inRun .erasing .eraseHold .released)).running
      ∧ (faulting (inRun .programming .pageHold .released)).running
      ∧ (faulting (inRun .programming .pageRelease .asserted)).running
      ∧ (faulting { inRun .erasing .eraseNext .asserted with dev := .small, estep := 9 }).running
      ∧ eraseCount .small = some 9 ∧ 9 ≤ 9
      ∧ (faulting { inRun .programming .pageBurst .asserted with record := some record264 }).running
      ∧ record264.length = 264 := by decide +kernel

theorem witness_FaultEntryWritesFourRegisters :
    blank.calm ∧ (EngineFault.identity 0#32).kind ≠ .transport ∧ (inRun .erasing .eraseNext .asserted).calm
      ∧ (inRun .erasing .eraseNext .asserted).pins.hold = .asserted ∧ blank.pins.hold = .released
      ∧ (EngineFault.transport .readPins).kind = .transport := by decide

theorem witness_CleanUpFaultIsDropped :
    (EngineFault.pollTimeout (.erase 2)).kind ≠ .transport
      ∧ (inRun .erasing .eraseNext .asserted).pins.hold = .asserted
      ∧ ({ inRun .erasing .eraseNext .asserted with
          env := { Env.empty with calls := [.faults ⟨.selB, true, true, .asserted⟩] } } : State).env.calls
        = .faults ⟨.selB, true, true, .asserted⟩ :: [] := by decide

theorem witness_FailedIsTerminal :
    cfg.pinsAdmitted = true ∧ (inRun .failed .rest .asserted).st = .failed
      ∧ (inRun .failed .rest .asserted).env.host = []
      ∧ ({ inRun .failed .rest .asserted with env := { Env.empty with host := [.start] } } : State).env.host
        = .start :: [] := by decide

theorem witness_StartBeginsARunOnlyFromIdle :
    cfg.pinsAdmitted = true ∧ cfg.idsAdmitted = true ∧ blank.st = .idle ∧ blank.phase = .rest
      ∧ ({ blank with env := { Env.empty with host := [.start] } } : State).env.host = .start :: []
      ∧ (inRun .erasing .eraseNext .asserted).st ≠ .idle ∧ (inRun .idle .portCommand .asserted).phase ≠ .rest := by decide

theorem witness_IdentifyStepInOrder :
    (inRun .identifying .identifyHold .released).running ∧ (inRun .identifying .identifyHold .released).calm
      ∧ (inRun .identifying .identifyCommand .asserted).running
      ∧ (inRun .identifying .identifyRelease .asserted).running := by decide

/-- A run that classifies this identity. -/
def classifying (ident : BitVec 32) : State := { inRun .identifying .classify .released with ident := some ident }

theorem witness_ClassificationSelectsTheDevice :
    (classifying 0xBBAA1234#32).running ∧ (classifying 0xBBAA1234#32).ident = some 0xBBAA1234#32
      ∧ (0xBBAA1234#32).setWidth 16 = cfg.idSmall
      ∧ (classifying 0xFFFF5678#32).running ∧ (0xFFFF5678#32).setWidth 16 = cfg.idLarge
      ∧ (classifying 0x12340000#32).running ∧ (classifying 0x12340000#32).pins.hold = .released
      ∧ (0x12340000#32).setWidth 16 ≠ cfg.idSmall ∧ (0x12340000#32).setWidth 16 ≠ cfg.idLarge := by decide

theorem witness_EraseLoopInOrder :
    ({ inRun .erasing .eraseNext .asserted with dev := .small } : State).running
      ∧ ({ inRun .erasing .eraseNext .asserted with dev := .small } : State).calm
      ∧ eraseCount .small = some 9 ∧ 8 < 9 ∧ 9 ≤ 9
      ∧ (inRun .erasing .eraseHold .released).running := by decide

theorem witness_PollTurn :
    (inRun .erasing (.pollStart .erase) .asserted).running
      ∧ ({ inRun .programming (.pollAttempt .write) .asserted with attempts := 3 } : State).running
      ∧ 3 ≠ pollBudget cfg .write
      ∧ ({ inRun .erasing (.pollTest .erase) .asserted with status := some 0x80#8 } : State).running
      ∧ (0x80#8).getLsbD 7 = true
      ∧ ({ inRun .programming (.pollTest .write) .asserted with status := some 0x7F#8 } : State).running
      ∧ (0x7F#8).getLsbD 7 = false := by decide

theorem witness_PollTimeoutEndsTheRun :
    ({ inRun .erasing (.pollAttempt .erase) .asserted with attempts := 4 } : State).running
      ∧ ({ inRun .erasing (.pollAttempt .erase) .asserted with attempts := 4 } : State).calm
      ∧ 4 = pollBudget cfg .erase ∧ phaseFits (.pollAttempt .erase) .erasing = true
      ∧ 4 = pollBudget cfg .write ∧ phaseFits (.pollAttempt .write) .programming = true := by decide

/-- A poll that will read these status bytes. -/
def polling (bs : List Byte) : State :=
  { inRun .erasing (.pollAttempt .erase) .asserted with env := { Env.empty with samples := samplesOfBytes bs } }

/-- 2.7: 3C, then BC: ready at the second attempt. -/
theorem witness_PollSucceedsAtTheReadyAttempt :
    (polling [0x3C#8, 0xBC#8]).running ∧ (polling [0x3C#8, 0xBC#8]).calm ∧ (polling [0x3C#8, 0xBC#8]).attempts = 0
      ∧ 2 ≤ pollBudget cfg .erase
      ∧ (upcomingBits 16 (polling [0x3C#8, 0xBC#8]))[0]? = some false
      ∧ (upcomingBits 16 (polling [0x3C#8, 0xBC#8]))[8]? = some true := by decide +kernel

/-- 2.7: 7F for ever: never ready within the budget of 4. -/
theorem witness_PollFailsAfterExactlyTheBudget :
    (polling (List.replicate 4 0x7F#8)).running ∧ (polling (List.replicate 4 0x7F#8)).calm
      ∧ pollBudget cfg .erase = 4
      ∧ (List.range 4).all (fun j => (upcomingBits 32 (polling (List.replicate 4 0x7F#8)))[8 * j]? == some false)
        = true := by decide +kernel

theorem witness_FetchTakesTheNextRecord :
    (inRun .programming .fetch .released).running ∧ (inRun .programming .fetch .released).phase = .fetch
      ∧ (inRun .programming .fetch .released).pins.hold = .released ∧ (inRun .programming .fetch .released).st = .programming
      ∧ 1 ≤ [0x10#8].length ∧ [0x10#8].length ≤ 264 ∧ record264.length = 264 ∧ 1023 ≤ 1023 ∧ 1023 < 1024
      ∧ ([] : List Byte).length = 0 ∧ 264 < (record264 ++ [0xFF#8]).length
      ∧ [0x10#8].length < 264
      ∧ ({ inRun .programming .fetch .released with env := { Env.empty with image := [.readError] } } : State).env.image
        = .readError :: []
      ∧ ({ inRun .programming .fetch .released with
          env := { Env.empty with image := [.record [0x10#8], .record [0x11#8]] } } : State).env.image
        = .record [0x10#8] :: [.record [0x11#8]]
      ∧ sourceAtEnd [] = true ∧ sourceAtEnd [.finished, .record [0x10#8]] = true := by decide +kernel

theorem witness_PageStepInOrder :
    (inRun .programming .pageHold .released).running ∧ (inRun .programming .pageHold .released).calm
      ∧ ({ inRun .programming .pageBurst .asserted with record := some record264 } : State).running
      ∧ record264.length = 264 ∧ (inRun .programming .pageRelease .asserted).running := by decide +kernel

theorem witness_EngineInvariantIsKept : blank.engineInv ∧ nextOf (step blank) = some blank := by decide

theorem witness_HoldInvariantIsKept :
    ({ blank with port := [0xD7#8] } : State).holdInv ∧ (nextOf (step { blank with port := [0xD7#8] })).isSome = true :=
  ⟨⟨by decide, .released, rfl, .inr rfl⟩, by decide⟩

theorem witness_RunInvariantIsKept : blank.runInv ∧ nextOf (step blank) = some blank
    ∧ ({ inRun .idle .portDeselect .asserted with
        pins := ⟨.selA, true, true, .asserted⟩, trace := [.hold .asserted, .write [⟨.selA, true, true⟩]] } : State).runInv :=
  ⟨blank_runInv, by decide, ⟨by decide, .asserted, rfl, .inr rfl⟩, .inl rfl⟩

theorem witness_NoModelFaultUnderTheInvariant : blank.engineInv := by decide

theorem witness_StateTransitionsOfTheTable :
    ({ blank with env := { Env.empty with host := [.start] } } : State).engineInv
      ∧ (nextOf (step { blank with env := { Env.empty with host := [.start] } })).map State.st = some .identifying
      ∧ (classifying 0xFFFF0000#32).engineInv
      ∧ (nextOf (step (classifying 0xFFFF0000#32))).map (fun t => (t.st, t.err, t.errstep))
        = some (.failed, .identity, .identify)
      ∧ (nextOf (step (classifying 0xBBAA1234#32))).map (fun t => (t.st, t.dev)) = some (.erasing, .small) := by decide

theorem witness_NoEraseBeforeIdentityNoPageBeforeErase :
    (inRun .identifying .identifyCommand .asserted).engineInv
      ∧ (nextOf (step (inRun .identifying .identifyCommand .asserted))).isSome = true ∧ blank.engineInv
      ∧ blank.phase = .rest ∧ blank.port = [] := by decide +kernel

end Sys2Proof.Tests
end

section
/-! SUPPORT. The step of the machine as a whole (00_scope.md): the parameters that no step changes (R8), and the command
at the port (R9, R207). -/

namespace Sys2Proof.Machine

/-! ### The parameters of an operation's result (R8) -/

/-- Every state the operation can end in has the parameters `c`. -/
def Res.HasCfg {α : Type} (c : Config) (r : Res α) : Prop :=
  r.Sat (fun _ t => t.cfg = c) (fun _ t => t.cfg = c) (fun t => t.cfg = c)

theorem HasCfg_ok {α : Type} (a : α) (s : State) : (Res.ok a s).HasCfg s.cfg := rfl

theorem HasCfg_bind {α β : Type} {c : Config} {r : Res α} {k : α → State → Res β} (h : r.HasCfg c)
    (hk : ∀ a t, (k a t).HasCfg t.cfg) : (r.bind k).HasCfg c :=
  Sat_bind h fun a t ht => ht ▸ hk a t

theorem HasCfg_of_Framed {α : Type} {s : State} {r : Res α} (h : Framed s r) : r.HasCfg s.cfg := by
  refine Sat_imp h (fun _ _ hok => hok.1.cfg) (fun _ _ hraised => hraised.1.cfg) ?_
  rintro _ ⟨⟨e, rfl⟩, -⟩
  rfl

theorem HasCfg_readReg {α : Type} (r : WorkReg) (v : Option α) (s : State) : (readReg r v s).HasCfg s.cfg := by
  cases v with
  | none => trivial
  | some a => exact HasCfg_ok a s

theorem HasCfg_classify (s : State) : (classify s).HasCfg s.cfg := by
  refine HasCfg_bind (HasCfg_readReg _ _ s) fun ident u => ?_
  cases classifyIdent u.cfg ident with
  | none => rfl
  | small => rfl
  | large => rfl

theorem afterPoll_cfg (k : PollKind) (s : State) : (afterPoll k s).cfg = s.cfg := by
  cases k <;> rfl

theorem HasCfg_pollTest (k : PollKind) (s : State) : (pollTest k s).HasCfg s.cfg := by
  refine HasCfg_bind (HasCfg_readReg _ _ s) fun status u => ?_
  split
  · exact afterPoll_cfg k u
  · rfl

/-! ### The parameters of a step's result (R8) -/

@[simp] theorem faultEntry_cfg (f : EngineFault) (s : State) : (faultEntry f s).cfg = s.cfg := by
  rcases faultEntry_cases f s with ⟨u, hu, rfl | ⟨-, -, rfl | ⟨h, rfl⟩⟩⟩ | ⟨hu, -⟩ <;> rw [hu] <;> rfl

theorem finish_cfg {α : Type} {c : Config} {r : Res α} {t : State} (hr : r.HasCfg c) (h : finish r = .next t) :
    t.cfg = c := by
  rcases finish_next_of_Sat hr h with ⟨_, ht⟩ | ⟨f, u, hu, rfl⟩ | ht
  · exact ht
  · rw [faultEntry_cfg, hu]
  · exact ht

/-- A transport call that completes and a following update that keeps the parameters; or its fault; or a reset. -/
theorem call_step_cfg {c : Call} {effect g : State → State} {s t : State}
    (h : finish ((transportCall c effect s).bind fun _ u => .ok () (g u)) = .next t)
    (hg : ∀ u, (g (effect u)).cfg = u.cfg) : t.cfg = s.cfg := by
  rcases finish_call_cases h with rfl | ⟨p, rfl⟩ | rfl
  · exact hg _
  · rfl
  · rfl

/-- No instruction changes a parameter, in any of the ways it can end. -/
theorem exec_cfg {i : Instr} {s t : State} (h : exec i s = .next t) : t.cfg = s.cfg := by
  cases exec_ends h with
  | done reach => exact reach.cfg
  | ident u v reach _ _ eq => rw [eq]; exact reach.cfg
  | status u v reach _ _ eq => rw [eq]; exact reach.cfg
  | fault f u reach _ eq => rw [eq, faultEntry_cfg, reach.cfg]
  | reset e eq => rw [eq]; rfl

theorem start_cfg {s t : State} (h : start s = .next t) : t.cfg = s.cfg := by
  unfold start at h
  split at h
  · split at h <;> cases h
    rfl
  · cases h; rfl

theorem portOpen_cfg {s t : State} (h : portOpen s = .next t) : t.cfg = s.cfg := by
  unfold portOpen at h
  split at h
  · cases h; rfl
  · split at h
    · exact call_step_cfg h fun _ => rfl
    · cases h

theorem portCommand_cfg {s t : State} (h : portCommand s = .next t) : t.cfg = s.cfg := by
  unfold portCommand at h
  split at h
  · exact (exec_cfg h :)
  · cases h

theorem eraseNext_cfg {s t : State} (h : eraseNext s = .next t) : t.cfg = s.cfg := by
  unfold eraseNext at h
  split at h
  · cases h
  · split at h
    · exact (exec_cfg h :)
    · exact call_step_cfg h fun _ => rfl

theorem pollAttempt_cfg {k : PollKind} {s t : State} (h : pollAttempt k s = .next t) : t.cfg = s.cfg := by
  unfold pollAttempt at h
  split at h
  · cases h; exact faultEntry_cfg _ s
  · exact (exec_cfg h :)

theorem fetch_cfg {s t : State} (h : fetch s = .next t) : t.cfg = s.cfg := by
  unfold fetch at h
  split at h
  · cases h; rfl
  · cases h; rfl
  · cases h; exact faultEntry_cfg _ _
  · split at h
    · cases h
    · split at h <;> cases h
      rfl

/-- No operation of the pseudocode changes a parameter, phase by phase. -/
theorem advance_cfg {s t : State} (h : advance s = .next t) : t.cfg = s.cfg := by
  unfold advance at h
  generalize s.phase = phase at h
  cases phase with
  | rest => exact portOpen_cfg h
  | portCommand => exact portCommand_cfg h
  | portDeselect => exact call_step_cfg h fun _ => rfl
  | portRelease => exact call_step_cfg h fun _ => rfl
  | identifyHold => exact call_step_cfg h fun _ => rfl
  | identifyCommand => exact (exec_cfg h :)
  | identifyRelease => exact call_step_cfg h fun _ => rfl
  | classify => exact finish_cfg (HasCfg_classify s) h
  | eraseHold => exact call_step_cfg h fun _ => rfl
  | eraseNext => exact eraseNext_cfg h
  | pollStart k => cases h; rfl
  | pollAttempt k => exact pollAttempt_cfg h
  | pollTest k => exact finish_cfg (HasCfg_pollTest k s) h
  | fetch => exact fetch_cfg h
  | pageHold => exact call_step_cfg h fun _ => rfl
  | pageBurst =>
    refine finish_cfg ?_ h
    exact HasCfg_bind (HasCfg_readReg _ _ s) fun record u =>
      HasCfg_bind (HasCfg_of_Framed (Framed_writePage _ record u)) fun _ _ => rfl
  | pageRelease => exact call_step_cfg h fun _ => rfl

theorem engineStep_cfg {s t : State} (h : engineStep s = .next t) : t.cfg = s.cfg := by
  unfold engineStep at h
  split at h
  · cases h; rfl
  · exact advance_cfg h

/-- Settles O14: the engine's operation, a start and a reset each keep the parameters. -/
theorem parametersNeverChange : Obligations.ParametersNeverChange := by
  intro s t h
  obtain ⟨-, ⟨_, he⟩ | ⟨_, hs⟩ | ⟨_, rfl⟩⟩ := step_next_cases h
  · exact (engineStep_cfg he :)
  · exact (start_cfg hs :)
  · rfl

/-! ### A step with the host quiet -/

theorem with_host_self {s : State} {host : List HostEvent} (h : s.env.host = host) :
    ({ s with env.host := host } : State) = s := by
  subst h; rfl

/-- With the host quiet and the engine not failed, a step uses up the host's entry and is the next operation. -/
theorem step_of_quiet {s : State} {host : List HostEvent} (hp : s.cfg.pinsAdmitted = true) (hf : s.st ≠ .failed)
    (hq : s.env.host = [] ∧ host = [] ∨ s.env.host = .quiet :: host) :
    step s = advance { s with env.host := host } := by
  rcases hq with ⟨hh, rfl⟩ | hh
  · rw [with_host_self hh]
    simp [step, stepBody, engineStep, hp, hh, hf]
  · simp [step, stepBody, engineStep, hp, hh, hf]

/-! ### The four places of a command at the port (R207, R270) -/

theorem portOpen_of_decode {s : State} {i : Instr} (h : decode s.port = .ok i) :
    portOpen s = finish ((assertHold s).bind fun _ s => .ok () { s with phase := .portCommand }) := by
  have hne : s.port ≠ [] := by
    intro hnil
    rw [hnil] at h
    cases h
  simp [portOpen, hne, h]

theorem advance_rest_calm {s : State} {i : Instr} (hph : s.phase = .rest) (h : decode s.port = .ok i) (hc : s.calm) :
    advance s = .next { s with
      pins := ⟨s.pins.sel, s.pins.sck, s.pins.mosi, .asserted⟩, trace := s.trace ++ [.hold .asserted]
      env := envAfter 1 0 s, phase := .portCommand } := by
  simp [advance, hph, portOpen_of_decode h, assertHold_calm hc]

theorem advance_portCommand {s : State} {i : Instr} (hph : s.phase = .portCommand) (h : decode s.port = .ok i) :
    advance s = exec i { s with port := [], phase := portEnd i } := by
  simp [advance, hph, portCommand, h]

theorem advance_portDeselect_calm {s : State} (hph : s.phase = .portDeselect) (hc : s.calm) :
    advance s = .next { s with
      pins := ⟨.selIdle, false, false, s.pins.hold⟩, trace := s.trace ++ [.select .selIdle]
      env := envAfter 1 0 s, phase := .portRelease } := by
  simp only [advance, hph, select_calm hc, bind_ok, finish_ok]
  rfl

theorem advance_portRelease_calm {s : State} (hph : s.phase = .portRelease) (hc : s.calm) :
    advance s = .next { s with
      pins := ⟨s.pins.sel, s.pins.sck, s.pins.mosi, .released⟩, trace := s.trace ++ [.hold .released]
      env := envAfter 1 0 s, phase := .rest } := by
  simp [advance, hph, releaseHold_calm hc]

/-- Settles O12: the step is the engine's next operation, read off at each of the four places of a port command. -/
theorem stepRunsTheDecodedCommand : Obligations.StepRunsTheDecodedCommand := by
  intro s host hp hf hq
  rw [step_of_quiet hp hf hq]
  exact ⟨fun i hi hph hc => advance_rest_calm hph hi hc, fun i hi hph => advance_portCommand hph hi,
    fun hph hc => advance_portDeselect_calm hph hc, fun hph hc => advance_portRelease_calm hph hc⟩

/-! ### A table word placed for the next step -/

theorem decode_tableBytes {nbits w : Nat} {i : Instr} (h : decodeTableWord nbits w = some i) :
    decode (tableBytes nbits w) = .ok i := by
  unfold decodeTableWord at h
  cases hd : decode (tableBytes nbits w) with
  | error e => rw [hd] at h; cases h
  | ok j => rw [hd] at h; cases h; rfl

/-- Settles O13: the placed word stands at the port in the phase that runs it, by the second place of a port command. -/
theorem fetchWordIsRunByTheNextStep : Obligations.FetchWordIsRunByTheNextStep := by
  intro s nbits w i hp hi
  have hidle : (s.withFetchWord nbits w).st ≠ .failed := nofun
  rw [step_of_quiet (s := s.withFetchWord nbits w) hp hidle (.inl ⟨rfl, rfl⟩)]
  exact advance_portCommand rfl (decode_tableBytes hi)

end Sys2Proof.Machine
end

section
/-! SUPPORT. The state (10_state.md): the chip selects of a packed vector (R26), the registers after reset (R44), the
invariant of the engine, which reset meets and every step keeps (R27, R34 to R37, R47, R207), and the faults of the model,
which no step from a state of the invariant ends in (R47). -/

namespace Sys2Proof

/-! ### The chip selects of a packed vector (R26, R82) -/

theorem csLevel_eq_active_iff (c : Config) (selected : Bool) : csLevel c selected = c.csActive ↔ selected = true := by
  cases selected <;> simp [csLevel]

theorem testBit_pack_pCsa {c : Config} (h : c.positions.Nodup) (lv : LineVector) (hold : HoldState) :
    (pack c lv hold).testBit c.pCsa = csLevel c (decide (lv.sel = .selA)) := by
  simp only [Config.positions, List.nodup_cons, List.mem_cons, not_or] at h
  obtain ⟨⟨hb, hsck, hmosi, -, hhold, -⟩, -⟩ := h
  simp [testBit_pack, hb, hsck, hmosi, hhold]

theorem testBit_pack_pCsb {c : Config} (h : c.positions.Nodup) (lv : LineVector) (hold : HoldState) :
    (pack c lv hold).testBit c.pCsb = csLevel c (decide (lv.sel = .selB)) := by
  simp only [Config.positions, List.nodup_cons, List.mem_cons, not_or] at h
  obtain ⟨⟨ha, -⟩, ⟨hsck, hmosi, -, hhold, -⟩, -⟩ := h
  simp [testBit_pack, Ne.symm ha, hsck, hmosi, hhold]

/-- Settles O9: an active line names the vector's selector, and a vector has one selector. -/
theorem atMostOneChipSelectActive : Obligations.AtMostOneChipSelectActive := by
  intro c lv h hn ⟨ha, hb⟩
  rw [testBit_pack_pCsa hn, csLevel_eq_active_iff, decide_eq_true_eq] at ha
  rw [testBit_pack_pCsb hn, csLevel_eq_active_iff, decide_eq_true_eq, ha] at hb
  cases hb

end Sys2Proof

namespace Sys2Proof.Machine

/-! ### The invariant, taken apart -/

/-- The part of the invariant that neither the phase nor the orchestrator state bears on: the parameters (R8), the
buffer (R27, R59) and the record (R60). -/
def State.storageInv (s : State) : Prop :=
  s.cfg.wf = true ∧ s.bufferInv ∧ ∀ r ∈ s.record, r.length = 264

/-- The part of the invariant that does not speak of the phase: a move to another phase of one orchestrator state
leaves it as it is. -/
def State.registersInv (s : State) : Prop :=
  s.storageInv ∧ deviceFits s = true ∧ resultFits s = true

theorem registersInv_of_engineInv {s : State} (h : s.engineInv) : s.registersInv := by
  obtain ⟨hcfg, hbuf, hrec, -, -, hdev, hres, -⟩ := h
  exact ⟨⟨hcfg, hbuf, hrec⟩, hdev, hres⟩

theorem phaseReady_of_engineInv {s : State} (h : s.engineInv) : phaseReady s = true := by
  obtain ⟨-, -, -, -, hready, -⟩ := h
  exact hready

/-- What the invariant gives at a known phase, the registers that phase relies on apart. -/
theorem engineInv_atPhase {s : State} {p : Phase} (h : s.engineInv) (hne : s.st ≠ .failed) (hph : s.phase = p) :
    s.registersInv ∧ phaseFits p s.st = true ∧ s.pins.hold = phaseHold p := by
  have hreg := registersInv_of_engineInv h
  obtain ⟨-, -, -, hfits, -, -, -, hhold⟩ := h
  subst hph
  exact ⟨hreg, hfits, hhold.resolve_left hne⟩

theorem engineInv_intro {s : State} (hreg : s.registersInv) (hfits : phaseFits s.phase s.st = true)
    (hready : phaseReady s = true) (hhold : s.pins.hold = phaseHold s.phase) : s.engineInv := by
  obtain ⟨⟨hcfg, hbuf, hrec⟩, hdev, hres⟩ := hreg
  exact ⟨hcfg, hbuf, hrec, hfits, hready, hdev, hres, .inr hhold⟩

/-! ### The three places of a poll (R220) -/

/-- What every place of a poll relies on: the erase position or the page that is polled is a valid one (R36, R37). -/
def pollPlaceFits (k : PollKind) (s : State) : Bool :=
  match k with
  | .erase => (eraseCount s.dev).any (s.estep < ·)
  | .write => decide (s.page ≤ 1023)

theorem phaseReady_pollStart {k : PollKind} {s : State} (hph : s.phase = .pollStart k) :
    phaseReady s = pollPlaceFits k s := by
  cases k <;> simp only [phaseReady, hph] <;> rfl

theorem phaseReady_pollAttempt {k : PollKind} {s : State} (hph : s.phase = .pollAttempt k) :
    phaseReady s = (pollPlaceFits k s && decide (s.attempts ≤ pollBudget s.cfg k)) := by
  cases k <;> simp only [phaseReady, hph] <;> rfl

theorem phaseReady_pollTest {k : PollKind} {s : State} (hph : s.phase = .pollTest k) :
    phaseReady s = (pollPlaceFits k s && decide (s.attempts ≤ pollBudget s.cfg k) && s.status.isSome) := by
  cases k <;> simp only [phaseReady, hph] <;> rfl

theorem phaseFits_pollAttempt (k : PollKind) (st : RunState) :
    phaseFits (.pollAttempt k) st = phaseFits (.pollStart k) st := by
  cases k <;> rfl

theorem phaseFits_pollTest (k : PollKind) (st : RunState) :
    phaseFits (.pollTest k) st = phaseFits (.pollAttempt k) st := by
  cases k <;> rfl

/-! ### Reset (R44, R260) -/

theorem engineInv_resetOf {c : Config} (h : c.wf = true) (e : Env) : (State.resetOf c e).engineInv := by
  have hcap := bufCap_of_wf h
  exact ⟨h, ⟨reset_buffer_wf, nofun, rfl, Nat.zero_lt_of_lt hcap⟩, nofun, rfl, rfl, rfl, rfl, .inr rfl⟩

/-- The two device identifiers differ by 1 to 65535, whatever the OPEN parameters are (R264). -/
theorem initial_idsAdmitted : Config.initial.idsAdmitted = true := by
  have hgap := Config.openIdGap.isLt
  have hne : Config.openIdSmall ≠ Config.openIdSmall + BitVec.ofNat 16 (Config.openIdGap.val + 1) := by
    bv_omega
  exact decide_eq_true hne

theorem initial_wf : Config.initial.wf = true := by
  have hpins : Config.initial.pinsAdmitted = true := rfl
  have hcap : 4369 ≤ Config.initial.bufCap := Nat.le_refl 4369
  simp [Config.wf, hpins, initial_idsAdmitted, hcap]

/-- Settles O10: each register's reset value is read off the state after reset. -/
theorem resetRegisterValues : Obligations.ResetRegisterValues :=
  ⟨rfl, rfl, rfl, rfl, rfl, rfl, rfl, rfl, rfl, rfl, rfl, rfl, rfl, rfl, rfl⟩

/-- Settles O53: the invariant after a reset asks only for admitted parameters. -/
theorem engineInvariantAtReset : Obligations.EngineInvariantAtReset :=
  engineInv_resetOf initial_wf _

/-- Settles O55: besides the engine's invariant, the trace is empty with hold released, and the selector is idle. -/
theorem runInvariantAtReset : Obligations.RunInvariantAtReset :=
  ⟨⟨engineInvariantAtReset, .released, rfl, .inr rfl⟩, .inr (.inr rfl)⟩

/-! ### The invariant after the shared operations -/

theorem engineInv_recordFault {k : ErrKind} {s : State} (hk : k ≠ .none) (h : s.storageInv) :
    (recordFault k s).engineInv := by
  obtain ⟨hcfg, hbuf, hrec⟩ := h
  exact ⟨hcfg, hbuf, hrec, rfl, rfl, rfl, by simp [resultFits, hk], .inl rfl⟩

/-- Fault entry leads to a state of the invariant, whatever becomes of its clean-up call (R240, R244). -/
theorem engineInv_faultEntry {s : State} (f : EngineFault) (h : s.storageInv) : (faultEntry f s).engineInv := by
  rcases faultEntry_cases f s with ⟨u, hu, hcase⟩ | ⟨hu, -⟩
  · have hstorage : u.storageInv := by
      rcases hcase with rfl | ⟨-, -, rfl | ⟨level, rfl⟩⟩ <;> exact h
    rw [hu]
    exact engineInv_recordFault (kind_ne_none f) hstorage
  · rw [hu]
    exact engineInv_resetOf h.1 _

/-- A step that is one transport call and an update: only the state of the completed call is left to look at. -/
theorem engineInv_call {c : Call} {effect g : State → State} {s t : State}
    (h : finish ((transportCall c effect s).bind fun _ u => .ok () (g u)) = .next t) (hs : s.storageInv)
    (hdone : (g (effect (dropCalls 1 s))).engineInv) : t.engineInv := by
  rcases finish_call_cases h with rfl | ⟨p, rfl⟩ | rfl
  · exact hdone
  · exact engineInv_recordFault nofun hs
  · exact engineInv_resetOf hs.1 _

/-! ### The invariant after an instruction -/

theorem storageInv_of_reach {s t : State} (h : Reach s t) (hs : s.storageInv) : t.storageInv := by
  obtain ⟨hcfg, hbuf, hrec⟩ := hs
  exact ⟨h.cfg ▸ hcfg, h.buffer hbuf, h.record ▸ hrec⟩

/-- The bit engine, the assembler and the command layer keep the invariant: they keep every register it speaks of but
the buffer, and that one's canonical form. -/
theorem engineInv_of_reach {s t : State} (h : Reach s t) (hhold : t.pins.hold = s.pins.hold) (hs : s.engineInv) :
    t.engineInv := by
  obtain ⟨hcfg, hbuf, hrec, hfits, hready, hdev, hres, hs⟩ := hs
  obtain ⟨hcfg', hbuf', hrec'⟩ := storageInv_of_reach h ⟨hcfg, hbuf, hrec⟩
  refine ⟨hcfg', hbuf', hrec', ?_, ?_, ?_, ?_, ?_⟩
  · rw [h.phase, h.st]; exact hfits
  · simpa only [phaseReady, h.phase, h.ident, h.dev, h.estep, h.attempts, h.cfg, h.status, h.page, h.record] using hready
  · simpa only [deviceFits, h.st, h.dev, h.estep] using hdev
  · simpa only [resultFits, h.st, h.result, h.err, h.errstep] using hres
  · rw [h.st, hhold, h.phase]; exact hs

/-- A step that is a framed operation and an update: only the states the operation completes in are left to look at. -/
theorem engineInv_framed {α : Type} {r : Res α} {g : State → State} {s t : State}
    (h : finish (r.bind fun _ u => .ok () (g u)) = .next t) (hr : Framed s r) (hs : s.storageInv)
    (hdone : ∀ u, Reach s u → u.pins.hold = s.pins.hold → (g u).engineInv) : t.engineInv := by
  cases r with
  | ok a u =>
    obtain ⟨hreach, hhold⟩ := hr
    cases h
    exact hdone u hreach hhold
  | raised f u =>
    obtain ⟨hreach, -⟩ := hr
    cases h
    exact engineInv_faultEntry f (storageInv_of_reach hreach hs)
  | reset u =>
    obtain ⟨⟨e, rfl⟩, -⟩ := hr
    cases h
    exact engineInv_resetOf hs.1 e
  | stop f => cases h

theorem Reach_withReads {s t : State} (h : Reach s t) (ident : Option (BitVec 32)) (status : Option Byte) :
    Reach { s with ident := ident, status := status } { t with ident := ident, status := status } :=
  ⟨h.cfg, h.dev, h.record, h.attempts, h.st, h.estep, h.page, h.result, h.err, h.errstep, h.phase, h.port, rfl, rfl,
    h.image, h.laterImages, h.host, h.calls, h.buffer, h.bracket⟩

/-- An instruction ends in a state of the invariant when the state before it is one, once the register that its
read-back writes holds a value. -/
theorem engineInv_exec {i : Instr} {s t : State} (h : exec i s = .next t)
    (hs : ∀ ident status, (i = .identify → ident.isSome = true) → (i = .readStatus → status.isSome = true) →
      ({ s with ident := ident, status := status } : State).engineInv) : t.engineInv := by
  have hstorage : s.storageInv :=
    (registersInv_of_engineInv (hs (some 0#32) (some 0#8) (fun _ => rfl) fun _ => rfl)).1
  cases exec_ends h with
  | done reach hold noIdent noStatus =>
    exact engineInv_of_reach reach hold
      (hs s.ident s.status (fun hi => absurd hi noIdent) fun hi => absurd hi noStatus)
  | ident u v reach hold is eq =>
    subst is eq
    exact engineInv_of_reach (Reach_withReads reach (some v) u.status) hold (hs _ _ (fun _ => rfl) nofun)
  | status u v reach hold is eq =>
    subst is eq
    exact engineInv_of_reach (Reach_withReads reach u.ident (some v)) hold (hs _ _ nofun fun _ => rfl)
  | fault f u reach hold eq =>
    rw [eq]
    exact engineInv_faultEntry f (storageInv_of_reach reach hstorage)
  | reset e eq =>
    rw [eq]
    exact engineInv_resetOf hstorage.1 e

/-! ### The invariant after each operation of the pseudocode -/

theorem idle_of_rest {s : State} (hs : s.engineInv) (hne : s.st ≠ .failed) (hph : s.phase = .rest) : s.st = .idle := by
  obtain ⟨-, hfits, -⟩ := engineInv_atPhase hs hne hph
  simpa [phaseFits, hne] using hfits

theorem engineInv_start {s t : State} (hs : s.engineInv) (h : start s = .next t) : t.engineInv := by
  unfold start at h
  split at h
  · rename_i hidle
    obtain ⟨hst, hph⟩ := hidle
    obtain ⟨⟨⟨hcfg, ⟨hwf, hcap, -, hlt⟩, hrec⟩, -⟩, -, hhold⟩ := engineInv_atPhase hs (by rw [hst]; nofun) hph
    split at h <;> cases h
    exact ⟨hcfg, ⟨hwf, hcap, rfl, Nat.zero_lt_of_lt hlt⟩, hrec, rfl, rfl, rfl, rfl, .inr hhold⟩
  · cases h
    exact hs

theorem padRecord_length {bytes : List Byte} {rest : List SourceItem} (h : recordAdmitted bytes rest = true) :
    (padRecord bytes).length = 264 := by
  simp only [recordAdmitted, Bool.and_eq_true, decide_eq_true_eq] at h
  obtain ⟨⟨-, hle⟩, -⟩ := h
  simp only [padRecord, List.length_append, List.length_replicate]
  omega

section Phases

variable {s t : State} (hs : s.engineInv) (hne : s.st ≠ .failed)
include hs hne

theorem engineInv_portOpen (hph : s.phase = .rest) (h : portOpen s = .next t) : t.engineInv := by
  have hfits : phaseFits .portCommand s.st = true := decide_eq_true (idle_of_rest hs hne hph)
  obtain ⟨hreg, -, -⟩ := engineInv_atPhase hs hne hph
  unfold portOpen at h
  split at h
  · cases h
    exact hs
  · split at h
    · exact engineInv_call h hreg.1 (engineInv_intro hreg hfits rfl rfl)
    · cases h

/-- Both ends of a command at the port stand in `ST_IDLE` with hold asserted and rely on no register. -/
theorem engineInv_portCommand (hph : s.phase = .portCommand) (h : portCommand s = .next t) : t.engineInv := by
  obtain ⟨hreg, hfits, hhold⟩ := engineInv_atPhase hs hne hph
  unfold portCommand at h
  split at h
  · rename_i i _
    refine engineInv_exec h fun ident status _ _ => ?_
    rcases portEnd_cases i with hend | ⟨hend, -⟩ <;> rw [hend] <;> exact engineInv_intro hreg hfits rfl hhold
  · cases h

/-- A match selects the device, whose erase list begins at position 0 (R170, R36); a mismatch fails the run. -/
theorem engineInv_classify (hph : s.phase = .classify) (h : finish (classify s) = .next t) : t.engineInv := by
  obtain ⟨⟨hstorage, -, hres⟩, hfits, hhold⟩ := engineInv_atPhase hs hne hph
  have hst : s.st = .identifying := of_decide_eq_true hfits
  simp only [resultFits, hst] at hres
  unfold classify at h
  cases hident : s.ident with
  | none => rw [hident] at h; cases h
  | some ident =>
    rw [hident] at h
    simp only [readReg, bind_ok] at h
    split at h <;> cases h
    · exact engineInv_faultEntry _ hstorage
    · exact engineInv_intro ⟨hstorage, rfl, hres⟩ rfl rfl hhold
    · exact engineInv_intro ⟨hstorage, rfl, hres⟩ rfl rfl hhold

/-- The loop's head runs the command at `estep` while that is inside the erase list; at its end `ST_PROGRAMMING` is
entered with `estep` one past the last position (R36, R196). -/
theorem engineInv_eraseNext (hph : s.phase = .eraseNext) (h : eraseNext s = .next t) : t.engineInv := by
  obtain ⟨⟨hstorage, hdev, hres⟩, hfits, hhold⟩ := engineInv_atPhase hs hne hph
  have hst : s.st = .erasing := of_decide_eq_true hfits
  unfold eraseNext at h
  cases hcount : eraseCount s.dev with
  | none => rw [hcount] at h; cases h
  | some n =>
    rw [hcount] at h
    simp only at h
    split at h
    · rename_i hlt
      have hready : (eraseCount s.dev).any (s.estep < ·) = true := by simpa [hcount] using hlt
      exact engineInv_exec h fun _ _ _ _ => engineInv_intro (by exact ⟨hstorage, hdev, hres⟩) hfits hready hhold
    · rename_i hge
      have hle : s.estep ≤ n := by simpa [deviceFits, hst, hcount] using hdev
      have hend : (eraseCount s.dev).any (s.estep = ·) = true := by
        rw [hcount]
        exact decide_eq_true (Nat.le_antisymm hle (Nat.le_of_not_lt hge))
      simp only [resultFits, hst] at hres
      exact engineInv_call h hstorage (engineInv_intro ⟨hstorage, hend, hres⟩ rfl rfl rfl)

theorem engineInv_pollStart {k : PollKind} (hph : s.phase = .pollStart k) :
    ({ s with attempts := 0, phase := .pollAttempt k } : State).engineInv := by
  obtain ⟨hreg, hfits, hhold⟩ := engineInv_atPhase hs hne hph
  have hready := phaseReady_of_engineInv hs
  rw [phaseReady_pollStart hph] at hready
  refine engineInv_intro hreg (by rw [phaseFits_pollAttempt]; exact hfits) ?_ hhold
  rw [phaseReady_pollAttempt rfl, Bool.and_eq_true]
  exact ⟨hready, decide_eq_true (Nat.zero_le _)⟩

/-- The counter is tested before it is raised, so it stays within the budget (R34, R220). -/
theorem engineInv_pollAttempt {k : PollKind} (hph : s.phase = .pollAttempt k) (h : pollAttempt k s = .next t) :
    t.engineInv := by
  obtain ⟨hreg, hfits, hhold⟩ := engineInv_atPhase hs hne hph
  have hready := phaseReady_of_engineInv hs
  rw [phaseReady_pollAttempt hph, Bool.and_eq_true, decide_eq_true_eq] at hready
  obtain ⟨hplace, hle⟩ := hready
  unfold pollAttempt at h
  split at h
  · cases h
    exact engineInv_faultEntry _ hreg.1
  · rename_i hbudget
    have hlt : s.attempts + 1 ≤ pollBudget s.cfg k := by omega
    refine engineInv_exec h fun ident status _ hstatus => ?_
    refine engineInv_intro hreg (by rw [phaseFits_pollTest]; exact hfits) ?_ hhold
    rw [phaseReady_pollTest rfl, Bool.and_eq_true, Bool.and_eq_true]
    exact ⟨⟨hplace, decide_eq_true hlt⟩, hstatus rfl⟩

/-- A poll that succeeded moves the erase one position on, or ends the page step (R196, R205). -/
theorem engineInv_afterPoll {k : PollKind} (hph : s.phase = .pollTest k) : (afterPoll k s).engineInv := by
  obtain ⟨⟨hstorage, hdev, hres⟩, hfits, hhold⟩ := engineInv_atPhase hs hne hph
  have hready := phaseReady_of_engineInv hs
  rw [phaseReady_pollTest hph, Bool.and_eq_true, Bool.and_eq_true] at hready
  obtain ⟨⟨hplace, -⟩, -⟩ := hready
  cases k with
  | erase =>
    have hst : s.st = .erasing := of_decide_eq_true hfits
    have hdev' : deviceFits (afterPoll .erase s) = true := by
      simp only [deviceFits, afterPoll, hst]
      exact hplace
    exact engineInv_intro ⟨hstorage, hdev', hres⟩ hfits rfl hhold
  | write => exact engineInv_intro ⟨hstorage, hdev, hres⟩ hfits hplace hhold

theorem engineInv_pollTest {k : PollKind} (hph : s.phase = .pollTest k) (h : finish (pollTest k s) = .next t) :
    t.engineInv := by
  obtain ⟨hreg, hfits, hhold⟩ := engineInv_atPhase hs hne hph
  have hready := phaseReady_of_engineInv hs
  rw [phaseReady_pollTest hph, Bool.and_eq_true] at hready
  obtain ⟨hcount, -⟩ := hready
  unfold pollTest at h
  cases hstatus : s.status with
  | none => rw [hstatus] at h; cases h
  | some status =>
    rw [hstatus] at h
    simp only [readReg, bind_ok] at h
    split at h <;> cases h
    · exact engineInv_afterPoll hs hne hph
    · refine engineInv_intro hreg (by rw [← phaseFits_pollTest]; exact hfits) ?_ hhold
      rw [phaseReady_pollAttempt rfl]
      exact hcount

theorem engineInv_endRun (hph : s.phase = .fetch) : (endRun s).engineInv := by
  obtain ⟨⟨hstorage, -, hres⟩, hfits, hhold⟩ := engineInv_atPhase hs hne hph
  have hst : s.st = .programming := of_decide_eq_true hfits
  simp only [resultFits, hst, Bool.and_eq_true, decide_eq_true_eq] at hres
  obtain ⟨⟨-, herr⟩, herrstep⟩ := hres
  have hres' : resultFits (endRun s) = true := by simp [resultFits, herr, herrstep]
  exact engineInv_intro ⟨hstorage, rfl, hres'⟩ rfl rfl hhold

/-- A record the engine admits is padded to 264 bytes, and it is fetched for a page of at most 1023 (R204, R209). -/
theorem engineInv_fetch (hph : s.phase = .fetch) (h : fetch s = .next t) : t.engineInv := by
  obtain ⟨⟨⟨hcfg, hbuf, hrec⟩, hdev, hres⟩, hfits, hhold⟩ := engineInv_atPhase hs hne hph
  unfold fetch at h
  split at h
  · cases h
    exact engineInv_endRun hs hne hph
  · cases h
    exact engineInv_endRun hs hne hph
  · cases h
    exact engineInv_faultEntry _ ⟨hcfg, hbuf, hrec⟩
  · rename_i bytes rest _
    split at h
    · cases h
    · rename_i hpage
      split at h <;> cases h
      rename_i hadmitted
      have hrec' : ∀ r ∈ some (padRecord bytes), r.length = 264 := by
        rintro r ⟨rfl⟩
        exact padRecord_length hadmitted
      exact engineInv_intro ⟨⟨hcfg, hbuf, hrec'⟩, hdev, hres⟩ hfits (decide_eq_true (Nat.le_of_not_lt hpage)) hhold

theorem engineInv_pageBurst (hph : s.phase = .pageBurst)
    (h : finish ((readReg .record s.record s).bind fun record u =>
      (writePage u.page record u).bind fun _ u => .ok () { u with phase := .pollStart .write }) = .next t) :
    t.engineInv := by
  obtain ⟨hreg, hfits, hhold⟩ := engineInv_atPhase hs hne hph
  have hready := phaseReady_of_engineInv hs
  simp only [phaseReady, hph, Bool.and_eq_true] at hready
  obtain ⟨-, hpage⟩ := hready
  cases hrecord : s.record with
  | none => rw [hrecord] at h; cases h
  | some record =>
    rw [hrecord] at h
    simp only [readReg, bind_ok] at h
    refine engineInv_framed h (Framed_writePage s.page record s) hreg.1 fun u hreach hsame => ?_
    obtain ⟨hreg', hfits', hhold'⟩ := engineInv_atPhase (engineInv_of_reach hreach hsame hs)
      (by rw [hreach.st]; exact hne) (hreach.phase.trans hph)
    have hready' : decide (u.page ≤ 1023) = true := by rw [hreach.page]; exact hpage
    exact engineInv_intro hreg' hfits' hready' hhold'

/-- Each operation of the pseudocode keeps the invariant, phase by phase. -/
theorem engineInv_advance (h : advance s = .next t) : t.engineInv := by
  have hready := phaseReady_of_engineInv hs
  unfold advance at h
  cases hph : s.phase <;> rw [hph] at h <;> obtain ⟨hreg, hfits, hhold⟩ := engineInv_atPhase hs hne hph
  case rest => exact engineInv_portOpen hs hne hph h
  case portCommand => exact engineInv_portCommand hs hne hph h
  case portDeselect => exact engineInv_call h hreg.1 (engineInv_intro hreg hfits rfl hhold)
  case portRelease =>
    have hidle : s.st = .idle := of_decide_eq_true hfits
    have hfits' : phaseFits .rest s.st = true := by rw [hidle]; rfl
    exact engineInv_call h hreg.1 (engineInv_intro hreg hfits' rfl rfl)
  case identifyHold => exact engineInv_call h hreg.1 (engineInv_intro hreg hfits rfl rfl)
  case identifyCommand =>
    exact engineInv_exec h fun _ _ hident _ => engineInv_intro (by exact hreg) hfits (hident rfl) hhold
  case identifyRelease =>
    simp only [phaseReady, hph] at hready
    exact engineInv_call h hreg.1 (engineInv_intro hreg hfits hready rfl)
  case classify => exact engineInv_classify hs hne hph h
  case eraseHold => exact engineInv_call h hreg.1 (engineInv_intro hreg hfits rfl rfl)
  case eraseNext => exact engineInv_eraseNext hs hne hph h
  case pollStart k => cases h; exact engineInv_pollStart hs hne hph
  case pollAttempt k => exact engineInv_pollAttempt hs hne hph h
  case pollTest k => exact engineInv_pollTest hs hne hph h
  case fetch => exact engineInv_fetch hs hne hph h
  case pageHold =>
    simp only [phaseReady, hph] at hready
    exact engineInv_call h hreg.1 (engineInv_intro hreg hfits hready rfl)
  case pageBurst => exact engineInv_pageBurst hs hne hph h
  case pageRelease =>
    simp only [phaseReady, hph, decide_eq_true_eq] at hready
    have hready' : decide (s.page + 1 ≤ 1024) = true := decide_eq_true (Nat.succ_le_succ hready)
    exact engineInv_call h hreg.1 (engineInv_intro hreg hfits hready' rfl)

end Phases

theorem engineInv_engineStep {s t : State} (hs : s.engineInv) (h : engineStep s = .next t) : t.engineInv := by
  unfold engineStep at h
  split at h
  · cases h
    exact hs
  · rename_i hne
    exact engineInv_advance hs hne h

/-- Settles O52: a reset, a start and the engine's operation of each phase keep the invariant; the host's schedule is
no part of it. -/
theorem engineInvariantIsKept : Obligations.EngineInvariantIsKept := by
  intro s t hs h
  obtain ⟨-, ⟨host, h⟩ | ⟨host, h⟩ | ⟨host, rfl⟩⟩ := step_next_cases h
  · exact engineInv_engineStep (s := { s with env.host := host }) hs h
  · exact engineInv_start (s := { s with env.host := host }) hs h
  · exact engineInv_resetOf (registersInv_of_engineInv hs).1.1 _

/-! ### No fault of the model under the invariant (R47) -/

/-- `write_txn` transmits what it has assembled, or raises `StreamLengthError` before: it never stops the machine. -/
theorem writeTxn_runs_of_pinsAdmitted {s : State} (hcfg : s.cfg.pinsAdmitted = true) (bytes : List Byte) :
    (writeTxn bytes s).runs := by
  by_cases hfit : 16 * (bytes.length + 1) + 1 ≤ s.cfg.bufCap
  · exact writeTxn_runs hcfg hfit
  · by_cases hcommand : 16 * bytes.length + 1 ≤ s.cfg.bufCap
    · rw [writeTxn, assemble_ok (by omega) (by omega), bind_ok, idlePulse,
        assemble_raised (by simp only [List.length_singleton]; omega)]
      nofun
    · rw [writeTxn, assemble_raised (by omega)]
      nofun

/-- A transaction transmits its own stream and the other rows transmit none, so no instruction ends in a fault of the
model. -/
theorem exec_ne_fault {s : State} (h : s.cfg.wf = true) (i : Instr) (f : Fault) : exec i s ≠ .fault f := by
  have hpins := pinsAdmitted_of_wf h
  have hcap : 17 ≤ s.cfg.bufCap := Nat.le_trans (by decide) (bufCap_of_wf h)
  have htxn : ∀ bytes, finish (writeTxn bytes s) ≠ .fault f :=
    fun bytes => finish_ne_fault (writeTxn_runs_of_pinsAdmitted hpins bytes) f
  cases i with
  | identify => exact finish_ne_fault (runs_bind (readTxn_runs _ _ hpins hcap) fun _ _ => runs_ok _ _) f
  | readStatus => exact finish_ne_fault (runs_bind (readTxn_runs _ _ hpins hcap) fun _ _ => runs_ok _ _) f
  | eraseS0a => exact htxn _
  | eraseS0b => exact htxn _
  | eraseSn addr => exact htxn _
  | loadBuf data => exact htxn _
  | commit page => exact htxn _
  | gpioVector lv hold miso => exact finish_ne_fault (transportCall_runs _ _ s) f
  | sentinel => exact finish_ne_fault (assemble_runs _ _ _ s) f
  | byteFrame sel byte => exact finish_ne_fault (assemble_runs _ _ _ s) f

theorem call_step_ne_fault (c : Call) (effect g : State → State) (s : State) (f : Fault) :
    finish ((transportCall c effect s).bind fun _ u => .ok () (g u)) ≠ .fault f :=
  finish_ne_fault (runs_bind (transportCall_runs c effect s) fun _ _ => runs_ok _ _) f

/-- A register that holds a value is read. -/
theorem readReg_runs {α : Type} {v : Option α} (h : v.isSome = true) (r : WorkReg) (s : State) :
    (readReg r v s).runs := by
  cases v with
  | none => cases h
  | some a => exact runs_ok a s

theorem start_ne_fault (s : State) (f : Fault) : start s ≠ .fault f := by
  unfold start
  split
  · split <;> nofun
  · nofun

theorem fetch_ne_fault (s : State) (f : Fault) : fetch s ≠ .fault f := by
  unfold fetch
  split
  · nofun
  · nofun
  · nofun
  · split
    · nofun
    · split <;> nofun

theorem portOpen_ne_fault (s : State) (f : Fault) : portOpen s ≠ .fault f := by
  unfold portOpen
  split
  · nofun
  · split
    · exact call_step_ne_fault _ _ _ s f
    · nofun

theorem portCommand_ne_fault {s : State} (h : s.cfg.wf = true) (f : Fault) : portCommand s ≠ .fault f := by
  unfold portCommand
  split
  · exact exec_ne_fault (by exact h) _ f
  · nofun

theorem classify_runs {s : State} (h : s.ident.isSome = true) : (classify s).runs := by
  refine runs_bind (readReg_runs h _ s) fun ident u => ?_
  split <;> nofun

theorem pollTest_runs {s : State} (h : s.status.isSome = true) (k : PollKind) : (pollTest k s).runs := by
  refine runs_bind (readReg_runs h _ s) fun status u => ?_
  split <;> nofun

/-- In `ST_ERASING` a device is selected, so there is an erase list (R166, R170). -/
theorem eraseNext_ne_fault {s : State} (hs : s.engineInv) (hne : s.st ≠ .failed) (hph : s.phase = .eraseNext) (f : Fault) :
    eraseNext s ≠ .fault f := by
  obtain ⟨⟨hstorage, hdev, -⟩, hfits, -⟩ := engineInv_atPhase hs hne hph
  have hst : s.st = .erasing := of_decide_eq_true hfits
  simp only [deviceFits, hst] at hdev
  unfold eraseNext
  split
  · rename_i hcount
    rw [hcount] at hdev
    cases hdev
  · split
    · exact exec_ne_fault (by exact hstorage.1) _ f
    · exact call_step_ne_fault _ _ _ s f

theorem pollAttempt_ne_fault {s : State} (h : s.cfg.wf = true) (k : PollKind) (f : Fault) : pollAttempt k s ≠ .fault f := by
  unfold pollAttempt
  split
  · nofun
  · exact exec_ne_fault (by exact h) _ f

/-- At the page burst the record holds 264 bytes, so the burst is the stream that is transmitted (R60, R148). -/
theorem pageBurst_runs {s : State} (hs : s.engineInv) (hph : s.phase = .pageBurst) :
    ((readReg .record s.record s).bind fun record u =>
      (writePage u.page record u).bind fun _ u => .ok () { u with phase := .pollStart .write }).runs := by
  obtain ⟨⟨hcfg, -, hrec⟩, -⟩ := registersInv_of_engineInv hs
  have hready := phaseReady_of_engineInv hs
  simp only [phaseReady, hph, Bool.and_eq_true] at hready
  obtain ⟨hsome, -⟩ := hready
  cases hrecord : s.record with
  | none => rw [hrecord] at hsome; cases hsome
  | some record =>
    simp only [readReg, bind_ok]
    exact runs_bind (writePage_runs (pinsAdmitted_of_wf hcfg) (hrec record hrecord) (bufCap_of_wf hcfg))
      fun _ _ => runs_ok _ _

/-- No operation of the pseudocode ends in a fault of the model, phase by phase. -/
theorem advance_ne_fault {s : State} (hs : s.engineInv) (hne : s.st ≠ .failed) (f : Fault) : advance s ≠ .fault f := by
  have hcfg : s.cfg.wf = true := (registersInv_of_engineInv hs).1.1
  have hready := phaseReady_of_engineInv hs
  unfold advance
  cases hph : s.phase
  case rest => exact portOpen_ne_fault s f
  case portCommand => exact portCommand_ne_fault hcfg f
  case portDeselect => exact call_step_ne_fault _ _ _ s f
  case portRelease => exact call_step_ne_fault _ _ _ s f
  case identifyHold => exact call_step_ne_fault _ _ _ s f
  case identifyCommand => exact exec_ne_fault (by exact hcfg) _ f
  case identifyRelease => exact call_step_ne_fault _ _ _ s f
  case classify =>
    simp only [phaseReady, hph] at hready
    exact finish_ne_fault (classify_runs hready) f
  case eraseHold => exact call_step_ne_fault _ _ _ s f
  case eraseNext => exact eraseNext_ne_fault hs hne hph f
  case pollStart k => nofun
  case pollAttempt k => exact pollAttempt_ne_fault hcfg k f
  case pollTest k =>
    rw [phaseReady_pollTest hph, Bool.and_eq_true] at hready
    obtain ⟨-, hstatus⟩ := hready
    exact finish_ne_fault (pollTest_runs hstatus k) f
  case fetch => exact fetch_ne_fault s f
  case pageHold => exact call_step_ne_fault _ _ _ s f
  case pageBurst => exact finish_ne_fault (pageBurst_runs hs hph) f
  case pageRelease => exact call_step_ne_fault _ _ _ s f

theorem engineStep_ne_fault {s : State} (hs : s.engineInv) (f : Fault) : engineStep s ≠ .fault f := by
  unfold engineStep
  split
  · nofun
  · rename_i hne
    exact advance_ne_fault hs hne f

/-- Settles O56: the host's acts stop nothing, and in each phase the invariant gives the value, the stream or the erase
list that the engine's operation takes. -/
theorem noModelFaultUnderTheInvariant : Obligations.NoModelFaultUnderTheInvariant := by
  intro s f hs
  unfold step stepBody
  split
  · split
    · exact engineStep_ne_fault hs f
    · exact engineStep_ne_fault (by exact hs) f
    · exact start_ne_fault _ f
    · nofun
  · nofun

end Sys2Proof.Machine
end

section
/-! SUPPORT. The bus (20_memory.md, 40_spi_bit_engine.md): what one operation of the engine does to the pins and to the
trace, the hold line along the trace (R207, R273), and the selector, which every transaction leaves idle (R70, R270). -/

namespace Sys2Proof.Machine

/-! ### What an operation of the engine does to the bus -/

/-- An update that leaves the bus alone: the parameters, the level of every line and the trace are as they were. -/
structure SameBus (s t : State) : Prop where
  cfg : t.cfg = s.cfg
  pins : t.pins = s.pins
  trace : t.trace = s.trace

/-- The ways an operation of the pseudocode can have a next state, as the bus sees them: nothing; a hold call; the
deselection after a vector at the port; an instruction or a page burst with hold asserted; fault entry; a reset. -/
inductive StepEnds (s t : State) : Prop
  | still (same : SameBus s t)
  | hold (level : HoldState) (pins : t.pins = ⟨s.pins.sel, s.pins.sck, s.pins.mosi, level⟩)
      (trace : t.trace = s.trace ++ [.hold level])
  | deselect (asserted : s.pins.hold = .asserted) (pins : t.pins = ⟨.selIdle, false, false, s.pins.hold⟩)
      (trace : t.trace = s.trace ++ [.select .selIdle])
  | exec (i : Instr) (u : State) (run : Machine.exec i u = .next t) (asserted : s.pins.hold = .asserted)
      (same : SameBus s u) (ends : portEnd i = .portDeselect → u.phase = .portDeselect)
  | burst (record : List Byte)
      (run : finish ((writePage s.page record s).bind fun _ u => .ok () { u with phase := .pollStart .write })
        = .next t)
      (asserted : s.pins.hold = .asserted) (full : record.length = 264)
  | fault (f : EngineFault) (u : State) (eq : t = faultEntry f u) (trace : u.trace = s.trace)
      (pins : f.kind = .transport ∨ u.pins = s.pins)
  | reset (c : Config) (e : Env) (eq : t = State.resetOf c e)

/-- A step that is one transport call and an update: only the state of the completed call is left to look at. -/
theorem stepEnds_of_call {c : Call} {effect g : State → State} {s t : State}
    (h : finish ((transportCall c effect s).bind fun _ u => .ok () (g u)) = .next t)
    (hdone : StepEnds s (g (effect (dropCalls 1 s)))) : StepEnds s t := by
  rcases finish_call_cases h with rfl | ⟨p, rfl⟩ | rfl
  · exact hdone
  · exact .fault (.transport c) { dropCalls 1 s with pins := p } rfl rfl (.inl rfl)
  · exact .reset _ _ rfl

theorem portEnd_eraseCmd (d : Device) (j : Nat) : portEnd (eraseCmd d j) = .portRelease := by
  unfold eraseCmd
  split
  · rfl
  · split <;> rfl

theorem stepEnds_portOpen {s t : State} (h : portOpen s = .next t) : StepEnds s t := by
  unfold portOpen at h
  split at h
  · cases h
    exact .still ⟨rfl, rfl, rfl⟩
  · split at h
    · exact stepEnds_of_call h (.hold .asserted rfl rfl)
    · cases h

theorem stepEnds_portCommand {s t : State} (hhold : s.pins.hold = .asserted) (h : portCommand s = .next t) :
    StepEnds s t := by
  unfold portCommand at h
  split at h
  · exact .exec _ _ h hhold ⟨rfl, rfl, rfl⟩ id
  · cases h

theorem stepEnds_classify {s t : State} (h : finish (classify s) = .next t) : StepEnds s t := by
  unfold classify at h
  cases hident : s.ident with
  | none => rw [hident] at h; cases h
  | some ident =>
    rw [hident] at h
    simp only [readReg, bind_ok] at h
    split at h <;> cases h
    · exact .fault _ _ rfl rfl (.inr rfl)
    · exact .still ⟨rfl, rfl, rfl⟩
    · exact .still ⟨rfl, rfl, rfl⟩

theorem stepEnds_eraseNext {s t : State} (hhold : s.pins.hold = .asserted) (h : eraseNext s = .next t) :
    StepEnds s t := by
  unfold eraseNext at h
  split at h
  · cases h
  · split at h
    · exact .exec _ _ h hhold ⟨rfl, rfl, rfl⟩ (by rw [portEnd_eraseCmd]; nofun)
    · exact stepEnds_of_call h (.hold .released rfl rfl)

theorem stepEnds_pollAttempt {k : PollKind} {s t : State} (hhold : s.pins.hold = .asserted)
    (h : pollAttempt k s = .next t) : StepEnds s t := by
  unfold pollAttempt at h
  split at h
  · cases h
    exact .fault _ s rfl rfl (.inr rfl)
  · exact .exec .readStatus _ h hhold ⟨rfl, rfl, rfl⟩ nofun

theorem sameBus_afterPoll (k : PollKind) (s : State) : SameBus s (afterPoll k s) := by
  cases k <;> exact ⟨rfl, rfl, rfl⟩

theorem stepEnds_pollTest {k : PollKind} {s t : State} (h : finish (pollTest k s) = .next t) : StepEnds s t := by
  unfold pollTest at h
  cases hstatus : s.status with
  | none => rw [hstatus] at h; cases h
  | some status =>
    rw [hstatus] at h
    simp only [readReg, bind_ok] at h
    split at h <;> cases h
    · exact .still (sameBus_afterPoll k s)
    · exact .still ⟨rfl, rfl, rfl⟩

theorem stepEnds_fetch {s t : State} (h : fetch s = .next t) : StepEnds s t := by
  unfold fetch at h
  split at h
  · cases h
    exact .still ⟨rfl, rfl, rfl⟩
  · cases h
    exact .still ⟨rfl, rfl, rfl⟩
  · cases h
    exact .fault _ _ rfl rfl (.inr rfl)
  · split at h
    · cases h
    · split at h <;> cases h
      exact .still ⟨rfl, rfl, rfl⟩

theorem stepEnds_pageBurst {s t : State} (hhold : s.pins.hold = .asserted) (hrec : ∀ r ∈ s.record, r.length = 264)
    (h : finish ((readReg .record s.record s).bind fun record u =>
      (writePage u.page record u).bind fun _ u => .ok () { u with phase := .pollStart .write }) = .next t) :
    StepEnds s t := by
  cases hrecord : s.record with
  | none => rw [hrecord] at h; cases h
  | some record =>
    rw [hrecord] at h
    exact .burst record h hhold (hrec record hrecord)

/-- What each operation of the pseudocode does to the bus, phase by phase; the invariant gives hold asserted where an
instruction is run, and a full record for the page burst. -/
theorem stepEnds_of_advance {s t : State} (hs : s.engineInv) (hne : s.st ≠ .failed) (h : advance s = .next t) :
    StepEnds s t := by
  unfold advance at h
  cases hph : s.phase <;> rw [hph] at h <;>
    obtain ⟨⟨⟨-, -, hrec⟩, -⟩, -, hhold⟩ := engineInv_atPhase hs hne hph
  case rest => exact stepEnds_portOpen h
  case portCommand => exact stepEnds_portCommand hhold h
  case portDeselect => exact stepEnds_of_call h (.deselect hhold rfl rfl)
  case portRelease => exact stepEnds_of_call h (.hold .released rfl rfl)
  case identifyHold => exact stepEnds_of_call h (.hold .asserted rfl rfl)
  case identifyCommand => exact .exec .identify _ h hhold ⟨rfl, rfl, rfl⟩ nofun
  case identifyRelease => exact stepEnds_of_call h (.hold .released rfl rfl)
  case classify => exact stepEnds_classify h
  case eraseHold => exact stepEnds_of_call h (.hold .asserted rfl rfl)
  case eraseNext => exact stepEnds_eraseNext hhold h
  case pollStart k => cases h; exact .still ⟨rfl, rfl, rfl⟩
  case pollAttempt k => exact stepEnds_pollAttempt hhold h
  case pollTest k => exact stepEnds_pollTest h
  case fetch => exact stepEnds_fetch h
  case pageHold => exact stepEnds_of_call h (.hold .asserted rfl rfl)
  case pageBurst => exact stepEnds_pageBurst hhold hrec h
  case pageRelease => exact stepEnds_of_call h (.hold .released rfl rfl)

/-- A start that has an effect moves no line and records no event. -/
theorem start_next_cases {s t : State} (h : start s = .next t) :
    t = s ∨ (s.st = .idle ∧ s.phase = .rest ∧ SameBus s t) := by
  unfold start at h
  split at h
  · rename_i hidle
    split at h <;> cases h
    exact .inr ⟨hidle.1, hidle.2, rfl, rfl, rfl⟩
  · cases h
    exact .inl rfl

/-! ### The hold line along the trace (R207, R273) -/

/-- The part of `holdInv` that speaks of the trace. -/
def State.traceInv (s : State) : Prop :=
  ∃ h ∈ holdAlong .released s.trace, s.st = .failed ∨ s.pins.hold = h

theorem holdAlong_trace_of_traceInv {s : State} (hs : s.traceInv) (hne : s.st ≠ .failed) :
    holdAlong .released s.trace = some s.pins.hold := by
  obtain ⟨h, htrace, hhold⟩ := hs
  rw [hhold.resolve_left hne]
  exact htrace

theorem traceInv_intro {s : State} (h : holdAlong .released s.trace = some s.pins.hold) : s.traceInv :=
  ⟨_, h, .inr rfl⟩

theorem traceInv_resetOf (c : Config) (e : Env) : (State.resetOf c e).traceInv := traceInv_intro rfl

/-- Fault entry adds a release at most, and in `ST_FAILED` nothing more is asked of the line (R241, R244). -/
theorem traceInv_faultEntry (f : EngineFault) {s : State} {h : HoldState} (hs : holdAlong .released s.trace = some h) :
    (faultEntry f s).traceInv := by
  rcases faultEntry_cases f s with ⟨u, hu, rfl | ⟨-, -, rfl | ⟨level, rfl⟩⟩⟩ | ⟨hu, -⟩ <;> rw [hu]
  · exact ⟨h, hs, .inl rfl⟩
  · refine ⟨.released, ?_, .inl rfl⟩
    rw [recordFault_trace, State_emit_trace, holdAlong_append]
    exact congrArg (Option.bind · _) hs
  · exact ⟨h, hs, .inl rfl⟩
  · exact traceInv_resetOf _ _

/-- An operation begun with hold asserted ends with hold asserted along the trace and on the line; an update that
leaves the bus alone may follow. -/
theorem traceInv_of_reach {s u t : State} (hhold : s.pins.hold = .asserted)
    (hs : holdAlong .released s.trace = some .asserted) (hreach : Reach s u) (hkeep : u.pins.hold = s.pins.hold)
    (hsame : SameBus u t) : t.traceInv := by
  refine traceInv_intro ?_
  rw [hsame.trace, hsame.pins, hkeep, hhold]
  exact hreach.bracket hhold _ hs

theorem traceInv_exec {i : Instr} {s t : State} (hhold : s.pins.hold = .asserted)
    (hs : holdAlong .released s.trace = some .asserted) (h : exec i s = .next t) : t.traceInv := by
  cases exec_ends h with
  | done reach hold => exact traceInv_of_reach hhold hs reach hold ⟨rfl, rfl, rfl⟩
  | ident u v reach hold _ eq => exact traceInv_of_reach hhold hs reach hold (by rw [eq]; exact ⟨rfl, rfl, rfl⟩)
  | status u v reach hold _ eq => exact traceInv_of_reach hhold hs reach hold (by rw [eq]; exact ⟨rfl, rfl, rfl⟩)
  | fault f u reach _ eq => rw [eq]; exact traceInv_faultEntry f (reach.bracket hhold _ hs)
  | reset e eq => rw [eq]; exact traceInv_resetOf _ e

theorem traceInv_burst {record : List Byte} {s t : State} (hhold : s.pins.hold = .asserted)
    (hs : holdAlong .released s.trace = some .asserted)
    (h : finish ((writePage s.page record s).bind fun _ u => .ok () { u with phase := .pollStart .write }) = .next t) :
    t.traceInv := by
  have hr : ((writePage s.page record s).bind fun _ u => .ok () { u with phase := .pollStart .write }).Sat
      (fun _ v => ∃ u, Reach s u ∧ u.pins.hold = s.pins.hold ∧ SameBus u v) _ _ :=
    Sat_bind (Framed_writePage s.page record s) fun _ u hu => ⟨u, hu.1, hu.2, rfl, rfl, rfl⟩
  rcases finish_next_of_Sat hr h with ⟨-, u, hreach, hkeep, hsame⟩ | ⟨f, u, ⟨hreach, -⟩, rfl⟩ | ⟨⟨e, rfl⟩, -⟩
  · exact traceInv_of_reach hhold hs hreach hkeep hsame
  · exact traceInv_faultEntry f (hreach.bracket hhold _ hs)
  · exact traceInv_resetOf _ e

/-- Every kind of operation keeps the hold line in step with the trace. -/
theorem traceInv_of_stepEnds {s t : State} (hs : s.traceInv) (hne : s.st ≠ .failed) (h : StepEnds s t) :
    t.traceInv := by
  have htrace := holdAlong_trace_of_traceInv hs hne
  cases h with
  | still same => exact traceInv_intro (by rw [same.trace, same.pins, htrace])
  | hold level pins trace =>
    refine traceInv_intro ?_
    rw [trace, pins, holdAlong_append, htrace]
    rfl
  | deselect asserted pins trace =>
    refine traceInv_intro ?_
    rw [trace, pins, holdAlong_append, htrace, asserted]
    rfl
  | exec i u run asserted same =>
    exact traceInv_exec (by rw [same.pins, asserted]) (by rw [same.trace, htrace, asserted]) run
  | burst record run asserted => exact traceInv_burst asserted (by rw [htrace, asserted]) run
  | fault f u eq trace => rw [eq]; exact traceInv_faultEntry f (by rw [trace, htrace])
  | reset c e eq => rw [eq]; exact traceInv_resetOf c e

theorem traceInv_engineStep {s t : State} (hs : s.engineInv) (htrace : s.traceInv) (h : engineStep s = .next t) :
    t.traceInv := by
  unfold engineStep at h
  split at h
  · cases h
    exact htrace
  · rename_i hne
    exact traceInv_of_stepEnds htrace hne (stepEnds_of_advance hs hne h)

theorem traceInv_start {s t : State} (htrace : s.traceInv) (h : start s = .next t) : t.traceInv := by
  rcases start_next_cases h with rfl | ⟨hidle, -, hsame⟩
  · exact htrace
  · exact traceInv_of_stepEnds htrace (by rw [hidle]; nofun) (.still hsame)

/-- The invariant of the hold line is kept: the engine's by its own lemma, the trace's by what an operation can do. -/
theorem holdInv_of_step {s t : State} (hs : s.holdInv) (h : step s = .next t) : t.holdInv := by
  obtain ⟨hengine, htrace⟩ := hs
  refine ⟨engineInvariantIsKept s t hengine h, ?_⟩
  obtain ⟨-, ⟨host, h⟩ | ⟨host, h⟩ | ⟨host, rfl⟩⟩ := step_next_cases h
  · exact traceInv_engineStep (s := { s with env.host := host }) hengine htrace h
  · exact traceInv_start (s := { s with env.host := host }) htrace h
  · exact traceInv_resetOf _ _

/-! ### Operations that leave the selector idle (R70, R126, R145) -/

/-- The operation completes only in a state of `done`, and every other end but a transport fault leaves the selector
idle: what raises another fault has driven nothing since. -/
def Res.Deselects {α : Type} (done : State → Prop) (r : Res α) : Prop :=
  r.Sat (fun _ t => done t) (fun f t => f.kind = .transport ∨ t.pins.sel = .selIdle) (fun t => t.pins.sel = .selIdle)

/-- The end that leaves the selector idle. -/
def State.selIdle (s : State) : Prop :=
  s.pins.sel = .selIdle

theorem Deselects_bind {α β : Type} {done done' : State → Prop} {r : Res α} {k : α → State → Res β}
    (h : r.Deselects done) (hk : ∀ a t, done t → (k a t).Deselects done') : (r.bind k).Deselects done' :=
  Sat_bind h hk

theorem Deselects_call {done : State → Prop} {c : Call} {effect : State → State} {s : State}
    (h : done (effect (dropCalls 1 s))) : (transportCall c effect s).Deselects done := by
  rcases transportCall_cases c effect s with hc | ⟨p, hc⟩ | hc <;> rw [hc]
  · exact h
  · exact .inl rfl
  · rfl

/-- An update that leaves the pins alone may follow. -/
theorem Deselects_update {α : Type} {r : Res α} {g : α → State → State} (h : r.Deselects State.selIdle)
    (hg : ∀ a u, (g a u).pins = u.pins) : (r.bind fun a u => .ok () (g a u)).Deselects State.selIdle :=
  Deselects_bind h fun a u hu => (congrArg Pins.sel (hg a u)).trans hu

theorem Deselects_readPins (s : State) : (readPins s).Deselects fun _ => True := by
  rcases readPins_cases s with ⟨m, h⟩ | ⟨p, h⟩ | h <;> rw [h]
  · trivial
  · exact .inl rfl
  · rfl

theorem Deselects_decodeBits (sel : Selector) (n : Nat) (acc : Byte) (s : State) :
    (decodeBits sel n acc s).Deselects fun _ => True := by
  induction n generalizing acc s with
  | zero => trivial
  | succ n ih =>
    exact Deselects_bind (Deselects_readPins s) fun _ _ _ =>
      Deselects_bind (done := fun _ => True) (Deselects_call trivial) fun _ u _ => ih _ u

theorem Deselects_decodeMany (sel : Selector) (n : Nat) (s : State) : (decodeMany sel n s).Deselects fun _ => True := by
  induction n generalizing s with
  | zero => trivial
  | succ n ih =>
    exact Deselects_bind (Deselects_decodeBits sel 8 _ _) fun _ t _ => Deselects_bind (ih t) fun _ _ _ => trivial

/-- The read-back returns the selector to idle (R126). -/
theorem Deselects_decodeBytes (sel : Selector) (n : Nat) (s : State) :
    (decodeBytes sel n s).Deselects State.selIdle :=
  Deselects_bind (done := fun _ => True) (Deselects_call trivial) fun _ t _ =>
    Deselects_bind (Deselects_decodeMany sel n t) fun _ _ _ =>
      Deselects_bind (done := State.selIdle) (Deselects_call rfl) fun _ _ hv => hv

theorem Deselects_assemble {s : State} (hs : s.selIdle) (bytes : List Byte) (off : Nat) (sel : Selector) :
    (assemble bytes off sel s).Deselects State.selIdle := by
  unfold assemble
  split
  · exact hs
  · exact .inr hs

/-- A stream that ends in an idle pulse leaves the selector idle (R145). -/
theorem selIdle_driveAll_idleFrame (s : State) (c : Config) (lvs : List LineVector) :
    (s.driveAll (lvs ++ idleFrame c)).selIdle := by
  have hlast : idleFrame c = (idleFrame c).take 15 ++ [⟨.selIdle, true, c.idleFill.getLsbD 0⟩] := rfl
  rw [hlast, ← List.append_assoc, driveAll_append_single]
  rfl

/-- One write of a stream that ends in an idle pulse, and the stream discarded (R147). -/
theorem Deselects_writeIdleFrame (s : State) (c : Config) (lvs : List LineVector) :
    ((write (lvs ++ idleFrame c) s).bind fun _ t => .ok () { t with blen := 0 }).Deselects State.selIdle :=
  Deselects_update (g := fun _ t => { t with blen := 0 }) (Deselects_call (selIdle_driveAll_idleFrame _ c lvs))
    fun _ _ => rfl

/-- `write_txn` when its check fails: raised before anything is driven (R144). -/
theorem writeTxn_raised {bytes : List Byte} {s : State} (hfit : ¬ 16 * (bytes.length + 1) + 1 ≤ s.cfg.bufCap) :
    ∃ off u, writeTxn bytes s = .raised (.streamLength off) u ∧ u.pins = s.pins := by
  by_cases hcommand : 16 * bytes.length + 1 ≤ s.cfg.bufCap
  · rw [writeTxn, assemble_ok (by omega) (by omega), bind_ok, idlePulse,
      assemble_raised (by simp only [List.length_singleton]; omega), bind_raised]
    exact ⟨_, _, rfl, rfl⟩
  · exact ⟨0, s, by rw [writeTxn, assemble_raised (by omega), bind_raised], rfl⟩

theorem Deselects_writeTxn {s : State} (hcfg : s.cfg.pinsAdmitted = true) (hs : s.selIdle) (bytes : List Byte) :
    (writeTxn bytes s).Deselects State.selIdle := by
  by_cases hfit : 16 * (bytes.length + 1) + 1 ≤ s.cfg.bufCap
  · rw [writeTxn_eq_write hcfg hfit]
    exact Deselects_writeIdleFrame _ _ _
  · obtain ⟨off, u, hraised, hpins⟩ := writeTxn_raised hfit
    rw [hraised]
    exact .inr (by rw [hpins]; exact hs)

theorem Deselects_readTxn (b : Byte) (n : Nat) {s : State} (hcfg : s.cfg.pinsAdmitted = true)
    (hfit : 17 ≤ s.cfg.bufCap) : (readTxn [b] n s).Deselects State.selIdle := by
  rw [readTxn_eq_write b n hcfg hfit]
  exact Deselects_bind (done := fun _ => True) (Deselects_call trivial) fun _ _ _ => Deselects_decodeBytes _ n _

theorem Deselects_writePage {p : Nat} {record : List Byte} {s : State} (hcfg : s.cfg.pinsAdmitted = true)
    (hlen : record.length = 264) (hfit : 4369 ≤ s.cfg.bufCap) :
    (writePage p record s).Deselects State.selIdle := by
  rw [writePage_eq_write hcfg hlen hfit]
  exact Deselects_writeIdleFrame _ _ _

/-! ### The selector between two operations (R70, R270) -/

/-- The part of `runInv` that speaks of the selector. -/
def State.selectorInv (s : State) : Prop :=
  s.phase = .portDeselect ∨ s.err = .transport ∨ s.pins.sel = .selIdle

theorem selectorInv_of_selIdle {s : State} (h : s.selIdle) : s.selectorInv := .inr (.inr h)

/-- Outside `ST_FAILED` no fault is recorded (R213). -/
theorem err_eq_none_of_engineInv {s : State} (hs : s.engineInv) (hne : s.st ≠ .failed) : s.err = .none := by
  obtain ⟨-, -, hres⟩ := registersInv_of_engineInv hs
  cases hst : s.st <;> simp only [resultFits, hst, Bool.and_eq_true, decide_eq_true_eq] at hres
  case failed => exact absurd hst hne
  all_goals
    obtain ⟨⟨-, herr⟩, -⟩ := hres
    exact herr

/-- Outside `ST_FAILED` the phase that deselects is the one exception left. -/
theorem selIdle_of_selectorInv {s : State} (hs : s.engineInv) (hsel : s.selectorInv) (hne : s.st ≠ .failed)
    (hph : s.phase ≠ .portDeselect) : s.selIdle := by
  rcases hsel with h | h | h
  · exact absurd h hph
  · rw [err_eq_none_of_engineInv hs hne] at h; cases h
  · exact h

/-- Fault entry records a transport fault, or leaves the selector to its clean-up call, which moves HOLD alone
(R244). -/
theorem selectorInv_faultEntry {f : EngineFault} {s : State} (h : f.kind = .transport ∨ s.selIdle) :
    (faultEntry f s).selectorInv := by
  rcases faultEntry_cases f s with ⟨u, hu, hcase⟩ | ⟨hu, -⟩ <;> rw [hu]
  · have hsel : u.pins.sel = s.pins.sel := by
      rcases hcase with rfl | ⟨-, -, rfl | ⟨level, rfl⟩⟩ <;> rfl
    exact .inr (h.imp id hsel.trans)
  · exact selectorInv_of_selIdle rfl

/-- However the operation ends the step, the selector's rule holds after it. -/
theorem selectorInv_finish {α : Type} {done : State → Prop} {r : Res α} {t : State} (hr : r.Deselects done)
    (hdone : ∀ u, done u → u.selectorInv) (h : finish r = .next t) : t.selectorInv := by
  rcases finish_next_of_Sat hr h with ⟨_, ht⟩ | ⟨f, u, hu, rfl⟩ | ht
  · exact hdone t ht
  · exact selectorInv_faultEntry hu
  · exact selectorInv_of_selIdle ht

/-- A vector on the pins: a vector of a target is run where the next operation deselects (log entry 36). -/
theorem selectorInv_gpioVector {lv : LineVector} {hold : HoldState} {miso : Bool} {s t : State}
    (hph : portEnd (.gpioVector lv hold miso) = .portDeselect → s.phase = .portDeselect)
    (h : finish (write [lv] s) = .next t) : t.selectorInv := by
  refine selectorInv_finish (done := State.selectorInv) (Deselects_call ?_) (fun _ hu => hu) h
  by_cases hsel : lv.sel = .selIdle
  · exact selectorInv_of_selIdle hsel
  · exact .inl (hph (if_neg hsel))

theorem selectorInv_assemble {bytes : List Byte} {off : Nat} {sel : Selector} {s t : State} (hs : s.selIdle)
    (h : finish (assemble bytes off sel s) = .next t) : t.selectorInv :=
  selectorInv_finish (Deselects_assemble hs bytes off sel) (fun _ => selectorInv_of_selIdle) h

theorem selectorInv_writeTxn {bytes : List Byte} {s t : State} (hcfg : s.cfg.wf = true) (hs : s.selIdle)
    (h : finish (writeTxn bytes s) = .next t) : t.selectorInv :=
  selectorInv_finish (Deselects_writeTxn (pinsAdmitted_of_wf hcfg) hs bytes) (fun _ => selectorInv_of_selIdle) h

theorem selectorInv_readTxn {b : Byte} {n : Nat} {g : List Byte → State → State} {s t : State}
    (hcfg : s.cfg.wf = true) (h : finish ((readTxn [b] n s).bind fun r u => .ok () (g r u)) = .next t)
    (hg : ∀ r u, (g r u).pins = u.pins) : t.selectorInv := by
  have hcap : 17 ≤ s.cfg.bufCap := Nat.le_trans (by decide) (bufCap_of_wf hcfg)
  exact selectorInv_finish (Deselects_update (Deselects_readTxn b n (pinsAdmitted_of_wf hcfg) hcap) hg)
    (fun _ => selectorInv_of_selIdle) h

theorem selectorInv_burst {record : List Byte} {s t : State} (hcfg : s.cfg.wf = true) (hlen : record.length = 264)
    (h : finish ((writePage s.page record s).bind fun _ u => .ok () { u with phase := .pollStart .write }) = .next t) :
    t.selectorInv := by
  have hburst := Deselects_writePage (p := s.page) (pinsAdmitted_of_wf hcfg) hlen (bufCap_of_wf hcfg)
  exact selectorInv_finish
    (Deselects_update (g := fun _ u => { u with phase := .pollStart .write }) hburst fun _ _ => rfl)
    (fun _ => selectorInv_of_selIdle) h

/-- An instruction begun with the selector idle leaves it so, or ends where the next operation deselects, or in a
transport fault. -/
theorem selectorInv_exec {i : Instr} {s t : State} (hcfg : s.cfg.wf = true) (hs : s.selIdle)
    (hph : portEnd i = .portDeselect → s.phase = .portDeselect) (h : exec i s = .next t) : t.selectorInv := by
  cases i with
  | identify => exact selectorInv_readTxn (g := fun r u => { u with ident := some (identOf r) }) hcfg h fun _ _ => rfl
  | readStatus => exact selectorInv_readTxn (g := fun r u => { u with status := r.head? }) hcfg h fun _ _ => rfl
  | eraseS0a => exact selectorInv_writeTxn hcfg hs h
  | eraseS0b => exact selectorInv_writeTxn hcfg hs h
  | eraseSn addr => exact selectorInv_writeTxn hcfg hs h
  | loadBuf data => exact selectorInv_writeTxn hcfg hs h
  | commit page => exact selectorInv_writeTxn hcfg hs h
  | gpioVector lv hold miso => exact selectorInv_gpioVector hph h
  | sentinel => exact selectorInv_assemble hs h
  | byteFrame sel byte => exact selectorInv_assemble hs h

/-- Every kind of operation begun with the selector idle keeps the selector's rule. -/
theorem selectorInv_of_stepEnds {s t : State} (hcfg : s.cfg.wf = true) (hs : s.selIdle) (h : StepEnds s t) :
    t.selectorInv := by
  cases h with
  | still same => exact selectorInv_of_selIdle (by rw [State.selIdle, same.pins]; exact hs)
  | hold level pins => exact selectorInv_of_selIdle (by rw [State.selIdle, pins]; exact hs)
  | deselect _ pins => exact selectorInv_of_selIdle (by rw [State.selIdle, pins])
  | exec i u run _ same ends =>
    exact selectorInv_exec (by rw [same.cfg]; exact hcfg) (by rw [State.selIdle, same.pins]; exact hs) ends run
  | burst record run _ full => exact selectorInv_burst hcfg full run
  | fault f u eq _ pins =>
    rw [eq]
    exact selectorInv_faultEntry (pins.imp id fun hpins => by rw [State.selIdle, hpins]; exact hs)
  | reset c e eq => rw [eq]; exact selectorInv_of_selIdle rfl

/-- The operation that deselects, whatever the selector is (R70; log entry 36). -/
theorem selectorInv_portDeselect {s t : State} (hph : s.phase = .portDeselect) (h : advance s = .next t) :
    t.selectorInv := by
  simp only [advance, hph] at h
  rcases finish_call_cases h with rfl | ⟨p, rfl⟩ | rfl
  · exact selectorInv_of_selIdle rfl
  · exact .inr (.inl rfl)
  · exact selectorInv_of_selIdle rfl

theorem selectorInv_engineStep {s t : State} (hs : s.engineInv) (hsel : s.selectorInv) (h : engineStep s = .next t) :
    t.selectorInv := by
  unfold engineStep at h
  split at h
  · cases h
    exact hsel
  · rename_i hne
    by_cases hph : s.phase = .portDeselect
    · exact selectorInv_portDeselect hph h
    · exact selectorInv_of_stepEnds (registersInv_of_engineInv hs).1.1 (selIdle_of_selectorInv hs hsel hne hph)
        (stepEnds_of_advance hs hne h)

theorem selectorInv_start {s t : State} (hs : s.engineInv) (hsel : s.selectorInv) (h : start s = .next t) :
    t.selectorInv := by
  rcases start_next_cases h with rfl | ⟨hidle, hrest, hsame⟩
  · exact hsel
  · have hstart : s.selIdle := selIdle_of_selectorInv hs hsel (by rw [hidle]; nofun) (by rw [hrest]; nofun)
    exact selectorInv_of_selIdle (by rw [State.selIdle, hsame.pins]; exact hstart)

/-- Settles O54: the hold line's invariant by its own lemma; for the selector, every operation but the one that
deselects begins with it idle and leaves it so, up to the two exceptions of the invariant. -/
theorem runInvariantIsKept : Obligations.RunInvariantIsKept := by
  rintro s t ⟨hhold, hsel⟩ h
  refine ⟨holdInv_of_step hhold h, ?_⟩
  obtain ⟨hengine, -⟩ := hhold
  obtain ⟨-, ⟨host, h⟩ | ⟨host, h⟩ | ⟨host, rfl⟩⟩ := step_next_cases h
  · exact selectorInv_engineStep (s := { s with env.host := host }) hengine hsel h
  · exact selectorInv_start (s := { s with env.host := host }) hengine hsel h
  · exact selectorInv_of_selIdle rfl

end Sys2Proof.Machine
end

section
/-! SUPPORT. The encodings (30_encoding.md): the bits of a packed vector (R83, R84), of a byte and of a byte frame (R56,
R87), the address fields (R91, R93), and the decoder as the inverse of the encoder (R89, R90, R96). -/

namespace Sys2Proof

/-! ### The packed vector (R83, R84) -/

theorem lineBit_eq_zero_iff (p : Nat) (d : Bool) : lineBit p d = 0 ↔ d = false := by
  cases d <;> simp [lineBit]

theorem csLevel_decide (c : Config) (p : Prop) [Decidable p] :
    csLevel c (decide p) = if p then c.csActive else !c.csActive := by
  simp [csLevel]

/-- A vector is zero exactly when every line it carries is low (R84). -/
theorem pack_eq_zero_iff (c : Config) (lv : LineVector) (h : HoldState) :
    pack c lv h = 0 ↔ csLevel c (decide (lv.sel = .selA)) = false ∧ csLevel c (decide (lv.sel = .selB)) = false
      ∧ lv.sck = false ∧ lv.mosi = false ∧ holdBit c h = false := by
  simp [pack, Nat.or_eq_zero_iff, lineBit_eq_zero_iff, and_assoc]

theorem testBit_pack_pSck {c : Config} (h : c.positions.Nodup) (lv : LineVector) (hold : HoldState) :
    (pack c lv hold).testBit c.pSck = lv.sck := by
  simp only [Config.positions, List.nodup_cons, List.mem_cons, not_or] at h
  obtain ⟨⟨-, hA, -⟩, ⟨hB, -⟩, ⟨hmosi, -, hhold, -⟩, -⟩ := h
  simp [testBit_pack, Ne.symm hA, Ne.symm hB, hmosi, hhold]

theorem testBit_pack_pMosi {c : Config} (h : c.positions.Nodup) (lv : LineVector) (hold : HoldState) :
    (pack c lv hold).testBit c.pMosi = lv.mosi := by
  simp only [Config.positions, List.nodup_cons, List.mem_cons, not_or] at h
  obtain ⟨⟨-, -, hA, -⟩, ⟨-, hB, -⟩, ⟨hsck, -⟩, ⟨-, hhold, -⟩, -⟩ := h
  simp [testBit_pack, Ne.symm hA, Ne.symm hB, Ne.symm hsck, hhold]

theorem testBit_pack_pHold {c : Config} (h : c.positions.Nodup) (lv : LineVector) (hold : HoldState) :
    (pack c lv hold).testBit c.pHold = holdBit c hold := by
  simp only [Config.positions, List.nodup_cons, List.mem_cons, not_or] at h
  obtain ⟨⟨-, -, -, -, hA, -⟩, ⟨-, -, -, hB, -⟩, ⟨-, -, hsck, -⟩, ⟨-, hmosi, -⟩, -⟩ := h
  simp [testBit_pack, Ne.symm hA, Ne.symm hB, Ne.symm hsck, Ne.symm hmosi]

/-- A position that drives no line is 0: the data-in line's, and every position outside the map (R83). -/
theorem testBit_pack_eq_false {c : Config} {i : Nat} (h : i ∉ [c.pCsa, c.pCsb, c.pSck, c.pMosi, c.pHold])
    (lv : LineVector) (hold : HoldState) : (pack c lv hold).testBit i = false := by
  simp only [List.mem_cons, List.not_mem_nil, or_false, not_or] at h
  simp [testBit_pack, h]

theorem testBit_pack_pMiso {c : Config} (h : c.positions.Nodup) (lv : LineVector) (hold : HoldState) :
    (pack c lv hold).testBit c.pMiso = false := by
  refine testBit_pack_eq_false ?_ lv hold
  simp only [Config.positions, List.nodup_cons, List.mem_cons, not_or] at h
  obtain ⟨⟨-, -, -, hA, -⟩, ⟨-, -, hB, -⟩, ⟨-, hsck, -⟩, ⟨hmosi, -⟩, ⟨hhold, -⟩, -⟩ := h
  simp [Ne.symm hA, Ne.symm hB, Ne.symm hsck, Ne.symm hmosi, hhold]

theorem testBit_pack_outside {c : Config} {i : Nat} (h : i ∉ c.positions) (lv : LineVector) (hold : HoldState) :
    (pack c lv hold).testBit i = false := by
  refine testBit_pack_eq_false (fun hi => h ?_) lv hold
  simp only [Config.positions, List.mem_cons, List.not_mem_nil, or_false] at hi ⊢
  tauto

/-- The two chip-select bits with the reference values, `cs(s)` of R83. -/
theorem chipSelects_tableMap (s : Selector) :
    lineBit tableMap.pCsa (csLevel tableMap (decide (s = .selA)))
        ||| lineBit tableMap.pCsb (csLevel tableMap (decide (s = .selB)))
      = match s with
        | .selA => 0x02
        | .selB => 0x01
        | .selIdle => 0x03 := by
  cases s <;> rfl

theorem lineBit_pHold_tableMap (h : HoldState) :
    lineBit tableMap.pHold (holdBit tableMap h) = if h = .released then 0x20 else 0 := by
  cases h <;> rfl

/-- Settles O7: each named bit by its own lemma; with the reference values the five lines are computed in two groups. -/
theorem packedVectorBits : Obligations.PackedVectorBits := by
  refine ⟨fun c lv h hn => ⟨?_, ?_, testBit_pack_pSck hn lv h, testBit_pack_pMosi hn lv h, testBit_pack_pHold hn lv h,
    testBit_pack_pMiso hn lv h, fun i hi => testBit_pack_outside hi lv h⟩, fun lv h => ?_⟩
  · rw [testBit_pack_pCsa hn, csLevel_decide]
  · rw [testBit_pack_pCsb hn, csLevel_decide]
  · rw [pack, chipSelects_tableMap, lineBit_pHold_tableMap]
    rfl

/-- Under the constraint of R84 a line is high in every vector with hold asserted: the hold line, or the chip select of
a target that is not selected. -/
theorem pack_asserted_ne_zero {c : Config} (hc : c.csActive = false ∨ c.holdLevel = true) (lv : LineVector) :
    pack c lv .asserted ≠ 0 := by
  rw [Ne, pack_eq_zero_iff]
  rintro ⟨hA, hB, -, -, hhold⟩
  rcases hc with hc | hc
  · rw [← hc, csLevel_eq_active_iff, decide_eq_true_eq] at hA hB
    rw [hA] at hB
    cases hB
  · simp [holdBit, hc] at hhold

theorem pack_selIdle_eq_zero {c : Config} (hcs : c.csActive = true) (hhold : c.holdLevel = false) :
    pack c ⟨.selIdle, false, false⟩ .asserted = 0 := by
  simp [pack_eq_zero_iff, csLevel, holdBit, hcs, hhold]

theorem polarities_of_ne_zero {c : Config} (h : ∀ s : Selector, pack c ⟨s, false, false⟩ .asserted ≠ 0) :
    c.csActive = false ∨ c.holdLevel = true := by
  by_contra hc
  simp only [not_or, Bool.not_eq_false, Bool.not_eq_true] at hc
  exact h .selIdle (pack_selIdle_eq_zero hc.1 hc.2)

/-- Settles O8: the one vector that can be zero is that of the idle selector. -/
theorem noVectorPacksToZeroExactlyWhen : Obligations.NoVectorPacksToZeroExactlyWhen := fun _ =>
  ⟨⟨polarities_of_ne_zero, fun hc _ => pack_asserted_ne_zero hc _⟩,
    fun h => pack_asserted_ne_zero (polarities_of_ne_zero h)⟩

/-! ### The bits of a byte (R56) -/

/-- A byte's bits, sent and received most significant first, make the byte again (R56, R123). -/
theorem byteOfBits_bitsMsbFirst (b : Byte) : byteOfBits (bitsMsbFirst b) = b := by
  revert b
  decide

theorem bitsMsbFirst_injective : Function.Injective bitsMsbFirst :=
  Function.LeftInverse.injective byteOfBits_bitsMsbFirst

/-! ### The page address bytes (R93) -/

theorem shiftRight_and_7 (p : Nat) : (p >>> 7) &&& 0x7 = p / 128 % 8 := by
  rw [Nat.shiftRight_eq_div_pow]
  exact Nat.and_two_pow_sub_one_eq_mod _ 3

theorem pageHi_toNat (p : Nat) : (pageHi p).toNat = p / 128 % 8 := by
  rw [pageHi, BitVec.toNat_ofNat, shiftRight_and_7]
  omega

theorem shiftLeft_and_0xFE (p : Nat) : (p <<< 1) &&& 0xFE = 2 * (p % 128) := by
  calc (p <<< 1) &&& 0xFE = (p <<< 1) &&& ((2 ^ 7 - 1) <<< 1) := rfl
    _ = (p &&& (2 ^ 7 - 1)) <<< 1 := Nat.shiftLeft_and_distrib.symm
    _ = 2 * (p % 128) := by rw [Nat.and_two_pow_sub_one_eq_mod, Nat.shiftLeft_eq]; omega

theorem pageLo_toNat (p : Nat) : (pageLo p).toNat = 2 * (p % 128) := by
  rw [pageLo, BitVec.toNat_ofNat, shiftLeft_and_0xFE]
  omega

theorem pageOf_eq (hi lo : Byte) : pageOf hi lo = 128 * hi.toNat + lo.toNat / 2 := by
  have hlo : lo.toNat / 2 < 2 ^ 7 := by omega
  rw [pageOf, Nat.shiftRight_eq_div_pow, ← Nat.shiftLeft_add_eq_or_of_lt hlo, Nat.shiftLeft_eq]
  omega

theorem pageOf_pageHi_pageLo {p : Nat} (hp : p < 1024) : pageOf (pageHi p) (pageLo p) = p := by
  rw [pageOf_eq, pageHi_toNat, pageLo_toNat]
  omega

theorem pageHi_shiftLeft_or_pageLo {p : Nat} (hp : p < 1024) :
    ((pageHi p).toNat <<< 8) ||| (pageLo p).toNat = p <<< 1 := by
  rw [← Nat.shiftLeft_add_eq_or_of_lt (pageLo p).isLt, pageHi_toNat, pageLo_toNat, Nat.shiftLeft_eq, Nat.shiftLeft_eq]
  omega

/-- `hi[2:0] = p[9:7]` and `hi[7:3] = 0` (R93). -/
theorem getLsbD_pageHi (p k : Nat) : (pageHi p).getLsbD k = (decide (k < 3) && p.testBit (7 + k)) := by
  rw [← BitVec.testBit_toNat, pageHi_toNat, show p / 128 % 8 = p / 2 ^ 7 % 2 ^ 3 from rfl, Nat.testBit_mod_two_pow,
    Nat.testBit_div_two_pow, Nat.add_comm k 7]

/-- `lo[7:1] = p[6:0]` (R93). -/
theorem getLsbD_pageLo_succ (p k : Nat) : (pageLo p).getLsbD (k + 1) = (decide (k < 7) && p.testBit k) := by
  rw [← BitVec.testBit_toNat, pageLo_toNat, Nat.testBit_succ, Nat.mul_div_cancel_left _ (by decide)]
  exact Nat.testBit_mod_two_pow p 7 k

/-- `lo[0] = 0` (R93). -/
theorem getLsbD_pageLo_zero (p : Nat) : (pageLo p).getLsbD 0 = false := by
  rw [← BitVec.testBit_toNat, pageLo_toNat, Nat.testBit_zero]
  simp

/-- Settles O4: the two bytes as quotient and remainder of the page, from which the page is made again. -/
theorem pageAddressBytesNameOnePage : Obligations.PageAddressBytesNameOnePage := by
  intro p hp
  refine ⟨?_, ?_, fun k hk => ?_, fun k hk => ?_, fun k hk => ?_, getLsbD_pageLo_zero p,
    pageHi_shiftLeft_or_pageLo hp, pageOf_pageHi_pageLo hp, fun q hq hhi hlo => ?_⟩
  · rw [pageHi_toNat, shiftRight_and_7]
  · rw [pageLo_toNat, shiftLeft_and_0xFE]
  · simp [getLsbD_pageHi, hk]
  · simp [getLsbD_pageHi, hk]
  · simp [getLsbD_pageLo_succ, hk]
  · rw [← pageOf_pageHi_pageLo hq, hhi, hlo, pageOf_pageHi_pageLo hp]

/-- The two bytes of a Page Address have no other bit set than R93 gives them. -/
theorem commit_masks_iff (hi lo : Byte) :
    (hi &&& 0xF8#8 = 0#8 ∧ lo &&& 0x01#8 = 0#8) ↔ hi.toNat < 8 ∧ lo.toNat % 2 = 0 := by
  have hhi : ∀ b : Byte, b &&& 0xF8#8 = 0#8 ↔ b.toNat < 8 := by decide
  have hlo : ∀ b : Byte, b &&& 0x01#8 = 0#8 ↔ b.toNat % 2 = 0 := by decide
  rw [hhi, hlo]

theorem pageOf_lt {hi : Byte} (h : hi.toNat < 8) (lo : Byte) : pageOf hi lo < 1024 := by
  rw [pageOf_eq]
  omega

theorem pageHi_pageOf {hi : Byte} (h : hi.toNat < 8) (lo : Byte) : pageHi (pageOf hi lo) = hi := by
  apply BitVec.eq_of_toNat_eq
  rw [pageHi_toNat, pageOf_eq]
  omega

theorem pageLo_pageOf {lo : Byte} (h : lo.toNat % 2 = 0) (hi : Byte) : pageLo (pageOf hi lo) = lo := by
  apply BitVec.eq_of_toNat_eq
  rw [pageLo_toNat, pageOf_eq]
  omega

/-! ### The byte frame (R87) -/

/-- Vector `j` of a frame (R87). -/
theorem frame_getElem? (s : Selector) (b : Byte) {j : Nat} (hj : j < 16) :
    (frame s b)[j]? = some ⟨s, decide (j % 2 = 1), b.getLsbD (7 - j / 2)⟩ := by
  interval_cases j <;> rfl

/-- Settles O6: the frame's sixteen vectors one by one, and the frame of D7 computed. -/
theorem byteFrameLayout : Obligations.ByteFrameLayout :=
  ⟨fun s b => ⟨frame_length s b, fun _ hj => frame_getElem? s b hj⟩, by decide⟩

/-! ### The byte of a GPIO vector -/

theorem getLsbD_vectorByte (lv : LineVector) (h : HoldState) (m : Bool) (i : Nat) :
    (vectorByte lv h m).getLsbD i
      = (decide (i < 8) && ((pack tableMap lv h).testBit i || (lineBit tableMap.pMiso m).testBit i)) := by
  rw [vectorByte, BitVec.getLsbD_ofNat, Nat.testBit_or]

/-- The bits of a vector's byte with the reference pin map: each line at its position of R8, the top two unused. -/
theorem bitsMsbFirst_vectorByte (lv : LineVector) (h : HoldState) (m : Bool) :
    bitsMsbFirst (vectorByte lv h m)
      = [false, false, decide (h = .released), m, lv.mosi, lv.sck, decide (lv.sel ≠ .selB), decide (lv.sel ≠ .selA)] := by
  have hhold : (!decide (h = .asserted)) = decide (h = .released) := by cases h <;> rfl
  simp only [bitsMsbFirst, List.map_cons, List.map_nil, getLsbD_vectorByte, testBit_pack, testBit_lineBit]
  simp [tableMap, Config.reference, csLevel, holdBit, hhold]

theorem getLsbD_vectorByte_positions (lv : LineVector) (h : HoldState) (m : Bool) :
    (vectorByte lv h m).getLsbD 7 = false ∧ (vectorByte lv h m).getLsbD 6 = false
      ∧ (vectorByte lv h m).getLsbD 5 = decide (h = .released) ∧ (vectorByte lv h m).getLsbD 4 = m
      ∧ (vectorByte lv h m).getLsbD 3 = lv.mosi ∧ (vectorByte lv h m).getLsbD 2 = lv.sck
      ∧ (vectorByte lv h m).getLsbD 1 = decide (lv.sel ≠ .selB)
      ∧ (vectorByte lv h m).getLsbD 0 = decide (lv.sel ≠ .selA) := by
  simpa only [bitsMsbFirst, List.map_cons, List.map_nil, List.cons.injEq, and_true] using bitsMsbFirst_vectorByte lv h m

theorem selectorOf_tableMap (b : Byte) :
    selectorOf tableMap b.toNat
      = if b.getLsbD 0 = false then .selA else if b.getLsbD 1 = false then .selB else .selIdle := rfl

theorem selectorOf_vectorByte (lv : LineVector) (h : HoldState) (m : Bool) :
    selectorOf tableMap (vectorByte lv h m).toNat = lv.sel := by
  obtain ⟨-, -, -, -, -, -, hB, hA⟩ := getLsbD_vectorByte_positions lv h m
  rw [selectorOf_tableMap, hB, hA]
  cases lv.sel <;> rfl

/-! ### One byte: the opcodes of format C1 and the vectors -/

/-- A byte that is a GPIO vector with the reference pin map: the unused bits are 0 and some chip select is not at its
active level (R26, R83). -/
def IsVectorByte (b : Byte) : Prop :=
  b &&& 0xC0#8 = 0#8 ∧ b &&& 0x03#8 ≠ 0#8

theorem isVectorByte_iff (b : Byte) :
    IsVectorByte b ↔ b.getLsbD 7 = false ∧ b.getLsbD 6 = false ∧ (b.getLsbD 1 = true ∨ b.getLsbD 0 = true) := by
  unfold IsVectorByte
  revert b
  decide

theorem isVectorByte_vectorByte (lv : LineVector) (h : HoldState) (m : Bool) : IsVectorByte (vectorByte lv h m) := by
  obtain ⟨h7, h6, -, -, -, -, hB, hA⟩ := getLsbD_vectorByte_positions lv h m
  rw [isVectorByte_iff, hB, hA]
  refine ⟨h7, h6, ?_⟩
  cases lv.sel <;> decide

theorem ne_opcode_of_isVectorByte {b : Byte} (h : IsVectorByte b) :
    b ≠ 0x9F#8 ∧ b ≠ 0xD7#8 ∧ b ≠ 0x00#8 ∧ b ≠ 0x84#8 := by
  refine ⟨?_, ?_, ?_, ?_⟩ <;>
    · rintro rfl
      revert h
      simp [IsVectorByte]

/-- The vector a byte is read as: its levels at the reference positions. -/
def vectorInstr (b : Byte) : Instr :=
  .gpioVector ⟨selectorOf tableMap b.toNat, b.getLsbD 2, b.getLsbD 3⟩
    (if b.getLsbD 5 then .released else .asserted) (b.getLsbD 4)

theorem decodeByte_of_isVectorByte {b : Byte} (h : IsVectorByte b) : decodeByte b = .ok (vectorInstr b) := by
  obtain ⟨h9F, hD7, h00, -⟩ := ne_opcode_of_isVectorByte h
  rw [decodeByte, if_neg h9F, if_neg hD7, if_neg h00, if_neg (not_not_intro h.1), if_neg h.2, vectorInstr]

theorem vectorInstr_vectorByte (lv : LineVector) (h : HoldState) (m : Bool) :
    vectorInstr (vectorByte lv h m) = .gpioVector lv h m := by
  obtain ⟨-, -, hhold, hmiso, hmosi, hsck, -, -⟩ := getLsbD_vectorByte_positions lv h m
  rw [vectorInstr, selectorOf_vectorByte, hhold, hmiso, hmosi, hsck]
  cases h <;> rfl

/-- Where some chip select is not at its active level, the selector read off a vector gives both bits back (R82). -/
theorem chipSelects_selectorOf {b : Byte} (h : b.getLsbD 1 = true ∨ b.getLsbD 0 = true) :
    decide (selectorOf tableMap b.toNat ≠ .selB) = b.getLsbD 1
      ∧ decide (selectorOf tableMap b.toNat ≠ .selA) = b.getLsbD 0 := by
  rw [selectorOf_tableMap]
  cases h1 : b.getLsbD 1 <;> cases h0 : b.getLsbD 0 <;> simp_all

theorem encode_vectorInstr {b : Byte} (h : IsVectorByte b) : encode (vectorInstr b) = [b] := by
  obtain ⟨h7, h6, hselects⟩ := (isVectorByte_iff b).1 h
  refine congrArg (· :: []) (bitsMsbFirst_injective ?_)
  obtain ⟨hB, hA⟩ := chipSelects_selectorOf hselects
  rw [bitsMsbFirst_vectorByte, hB, hA]
  simp only [bitsMsbFirst, List.map_cons, List.map_nil, h7, h6]
  cases b.getLsbD 5 <;> rfl

theorem encode_of_decodeByte {b : Byte} {i : Instr} (h : decodeByte b = .ok i) : i.wf = true ∧ encode i = [b] := by
  by_cases hv : IsVectorByte b
  · rw [decodeByte_of_isVectorByte hv] at h
    cases h
    exact ⟨rfl, encode_vectorInstr hv⟩
  · rw [decodeByte] at h
    split_ifs at h with h9F hD7 h00 hunused hselects <;> cases h
    · exact ⟨rfl, by rw [h9F]; rfl⟩
    · exact ⟨rfl, by rw [hD7]; rfl⟩
    · exact ⟨rfl, by rw [h00]; rfl⟩
    all_goals exact absurd ⟨not_not.1 hunused, hselects⟩ hv

/-! ### Commit and erase: formats C3 and C4 -/

theorem decodeCommit_of_page {p : Nat} (hp : p < 1024) : decodeCommit (pageHi p) (pageLo p) = .ok (.commit p) := by
  have hmask : pageHi p &&& 0xF8#8 = 0#8 ∧ pageLo p &&& 0x01#8 = 0#8 := by
    rw [commit_masks_iff, pageHi_toNat, pageLo_toNat]
    omega
  rw [decodeCommit, if_pos hmask, pageOf_pageHi_pageLo hp]

theorem encode_of_decodeCommit {hi lo : Byte} {i : Instr} (h : decodeCommit hi lo = .ok i) :
    i.wf = true ∧ encode i = [0x88#8, hi, lo] := by
  rw [decodeCommit] at h
  split_ifs at h with hmask
  cases h
  obtain ⟨hhi, hlo⟩ := (commit_masks_iff hi lo).1 hmask
  rw [encode, pageHi_pageOf hhi, pageLo_pageOf hlo]
  exact ⟨decide_eq_true (pageOf_lt hhi lo), rfl⟩

/-- The address byte of a sector is read as that sector's, but 10, which is read as sector 0B's (R95). -/
theorem decodeErase_of_sectorAddr {a : Byte} (ha : isSectorAddr a = true) :
    decodeErase 0x00#8 a 0x00#8 = .ok (if Instr.eraseSn a = .eraseSn 0x10#8 then .eraseS0b else .eraseSn a) := by
  have h0 : a ≠ 0x00#8 := by
    rintro rfl
    cases ha
  by_cases h10 : a = 0x10#8
  · subst h10
    rfl
  · simp [decodeErase, h0, h10, ha]

theorem encode_of_decodeErase {a1 a2 a3 : Byte} {i : Instr} (h : decodeErase a1 a2 a3 = .ok i) :
    i.wf = true ∧ encode i = [0x7C#8, a1, a2, a3] := by
  rw [decodeErase] at h
  split_ifs at h with hzero h0 h10 ha <;> obtain ⟨rfl, rfl⟩ := hzero <;> cases h
  · exact ⟨rfl, by rw [h0]; rfl⟩
  · exact ⟨rfl, by rw [h10]; rfl⟩
  · exact ⟨ha, rfl⟩

/-! ### The byte frame: format F16 -/

/-- The data-out levels of the first vectors of the pairs are the bits that were sent (R120). -/
theorem frameBits_bitVectors (s : Selector) (ds : List Bool) :
    frameBits ((ds.flatMap (bitVectors s)).map fun lv => vectorByte lv .asserted false) = ds := by
  induction ds with
  | nil => rfl
  | cons d ds ih =>
    obtain ⟨-, -, -, -, hmosi, -⟩ := getLsbD_vectorByte_positions ⟨s, false, d⟩ .asserted false
    rw [List.flatMap_cons, List.map_append]
    exact congrArg₂ List.cons hmosi ih

theorem decodeFrame_encode (s : Selector) (b : Byte) :
    decodeFrame (encode (.byteFrame s b)) = .ok (.byteFrame s b) := by
  have hsel : selectorOf tableMap ((encode (.byteFrame s b)).headD 0#8).toNat = s := selectorOf_vectorByte _ _ _
  have hbits : frameBits (encode (.byteFrame s b)) = bitsMsbFirst b := frameBits_bitVectors s _
  rw [decodeFrame, hsel, hbits, byteOfBits_bitsMsbFirst]
  exact if_pos rfl

theorem encode_of_decodeFrame {bs : List Byte} {i : Instr} (h : decodeFrame bs = .ok i) :
    i.wf = true ∧ encode i = bs := by
  simp only [decodeFrame] at h
  split_ifs at h with henc
  cases h
  exact ⟨rfl, henc⟩

/-! ### The whole decoder (R89, R90, R96) -/

/-- Five bytes or more are a frame, unless the first is the opcode of `LOAD_BUF`. -/
theorem decode_long {op a1 a2 a3 d : Byte} {ds : List Byte} (hop : op ≠ 0x84#8) :
    decode (op :: a1 :: a2 :: a3 :: d :: ds) = decodeFrame (op :: a1 :: a2 :: a3 :: d :: ds) := if_neg hop

theorem wf_loadBuf_iff {data : List Byte} : (Instr.loadBuf data).wf = true ↔ data.length = 264 := decide_eq_true_iff

theorem decode_loadBuf {data : List Byte} (h : data.length = 264) :
    decode (encode (.loadBuf data)) = .ok (.loadBuf data) := by
  obtain ⟨d, ds, rfl⟩ := List.exists_cons_of_length_eq_add_one h
  exact if_pos ⟨rfl, rfl, rfl, h⟩

theorem decode_byteFrame (s : Selector) (b : Byte) :
    decode (encode (.byteFrame s b)) = .ok (.byteFrame s b) := by
  obtain ⟨-, -, -, h84⟩ := ne_opcode_of_isVectorByte (isVectorByte_vectorByte ⟨s, false, b.getLsbD 7⟩ .asserted false)
  exact (decode_long h84).trans (decodeFrame_encode s b)

/-- Settles O2: row by row; a row of one fixed encoding is computed, and of the rows with an operand each decoder gives
the operand back. -/
theorem decodeOfEncodeIsTheInstruction : Obligations.DecodeOfEncodeIsTheInstruction := by
  intro i hwf
  cases i with
  | identify => rfl
  | eraseS0a => rfl
  | eraseS0b => rfl
  | eraseSn a => exact decodeErase_of_sectorAddr hwf
  | loadBuf data => exact decode_loadBuf (wf_loadBuf_iff.1 hwf)
  | commit p => exact decodeCommit_of_page (of_decide_eq_true hwf)
  | readStatus => rfl
  | gpioVector lv h m =>
    exact (decodeByte_of_isVectorByte (isVectorByte_vectorByte lv h m)).trans
      (congrArg Except.ok (vectorInstr_vectorByte lv h m))
  | sentinel => rfl
  | byteFrame s b => exact decode_byteFrame s b

/-- Five bytes or more: a `LOAD_BUF` command with its 264 data bytes, or a frame. -/
theorem encode_of_decode_long {op a1 a2 a3 d : Byte} {ds : List Byte} {i : Instr}
    (h : decode (op :: a1 :: a2 :: a3 :: d :: ds) = .ok i) :
    i.wf = true ∧ encode i = op :: a1 :: a2 :: a3 :: d :: ds := by
  by_cases hop : op = 0x84#8
  · subst hop
    simp only [decode, if_true] at h
    split_ifs at h with hdata
    obtain ⟨rfl, rfl, rfl, hlen⟩ := hdata
    cases h
    exact ⟨wf_loadBuf_iff.2 hlen, rfl⟩
  · rw [decode_long hop] at h
    exact encode_of_decodeFrame h

/-- Settles O3: by the number of bytes, which fixes the format; each format's decoder accepts only what it encodes. -/
theorem encodeOfDecodeIsTheBytes : Obligations.EncodeOfDecodeIsTheBytes := by
  intro bs i h
  match bs with
  | [] => cases h
  | [b] => exact encode_of_decodeByte h
  | [_, _] => cases h
  | [op, hi, lo] =>
    simp only [decode] at h
    split_ifs at h with hop
    exact hop ▸ encode_of_decodeCommit h
  | [op, a1, a2, a3] =>
    simp only [decode] at h
    split_ifs at h with hop
    exact hop ▸ encode_of_decodeErase h
  | op :: a1 :: a2 :: a3 :: d :: ds => exact encode_of_decode_long h

/-! ### The words of the table -/

/-- A word whose bytes encode an instruction is read as that instruction. -/
theorem decodeTableWord_of_encode {nbits w : Nat} {i : Instr} (hbytes : tableBytes nbits w = encode i)
    (hwf : i.wf = true) (hi : i ≠ .eraseSn 0x10#8) : decodeTableWord nbits w = some i := by
  rw [decodeTableWord, hbytes, decodeOfEncodeIsTheInstruction i hwf, if_neg hi]
  rfl

/-- The header word of `LOAD_BUF` stands for a command with 264 zero data bytes (log entry 16). -/
theorem tableBytes_loadBuf :
    tableBytes 32 0x84000000 = encode (.loadBuf (List.replicate 264 0x00#8)) := by
  have hhead : bytesMsbFirst 4 0x84000000 = [0x84#8, 0x00#8, 0x00#8, 0x00#8] := rfl
  simp only [tableBytes, hhead, encode]
  rfl

/-- Settles O1: each word's bytes are computed and compared with the encoding of its row. -/
theorem tableWordsDecodeToTheirRows : Obligations.TableWordsDecodeToTheirRows :=
  ⟨decodeTableWord_of_encode rfl rfl nofun,
    decodeTableWord_of_encode rfl rfl nofun,
    decodeTableWord_of_encode rfl rfl nofun,
    decodeTableWord_of_encode rfl rfl (by decide),
    decodeTableWord_of_encode tableBytes_loadBuf (wf_loadBuf_iff.2 List.length_replicate) nofun,
    decodeTableWord_of_encode rfl rfl nofun,
    decodeTableWord_of_encode rfl rfl nofun,
    decodeTableWord_of_encode rfl rfl nofun,
    decodeTableWord_of_encode rfl rfl nofun,
    decodeTableWord_of_encode (by decide) rfl nofun⟩

end Sys2Proof

namespace Sys2Proof.Machine

/-! ### The sector address byte (R91) -/

theorem sectorAddr_small_toNat {n : Nat} (h : n ≤ 7) : (sectorAddr .small n).toNat = n := by
  simp only [sectorAddr, BitVec.toNat_ofNat]
  omega

theorem sectorAddr_large_toNat {n : Nat} (h : n ≤ 15) : (sectorAddr .large n).toNat = n <<< 1 := by
  have hmask : (n <<< 1) &&& 0xFF = (n <<< 1) % 256 := Nat.and_two_pow_sub_one_eq_mod _ 8
  rw [sectorAddr, BitVec.toNat_ofNat, hmask, Nat.shiftLeft_eq]
  omega

/-- Settles O5: the two devices' bytes as numbers; the encoding is the definition's. -/
theorem sectorAddressByDevice : Obligations.SectorAddressByDevice := by
  refine ⟨fun n _ h => sectorAddr_small_toNat h, fun n _ h => sectorAddr_large_toNat h, fun n _ h => ?_, fun _ => rfl⟩
  rw [sectorAddr_large_toNat h, Nat.shiftLeft_eq]
  omega

/-! ### Reading the pins, and the end of a stream (R85, R86) -/

/-- Settles O16: the rule of a calm `read_pins()`, with the vector the environment gives next. -/
theorem readPinsTakesTheDataInBit : Obligations.ReadPinsTakesTheDataInBit := by
  intro s hcalm v vs hsamples
  have hnext : nextSample s.env = (v, { s.env with samples := vs }) := by rw [nextSample, hsamples]
  have henv : envAfter 1 1 s = { s.env with calls := s.env.calls.drop 1, samples := vs } := by
    rw [envAfter, skipSamples, skipSamples, hnext]
  rw [readPins_calm hcalm, hnext, henv]
  rfl

/-- Settles O29: `assemble` of no bytes stores one vector, the sentinel, where the stream stands. -/
theorem sentinelCompletes : Obligations.SentinelCompletes := by
  intro s hoff hfit
  refine ⟨s.buf.store s.blen [0], ?_, fun a ha => read_store_outside ?_, ?_⟩
  · exact read_store_inside (k := 0) (vs := [0]) (by decide)
  · simp only [List.length_singleton]
    omega
  · rw [exec, execSentinel, assemble_ok (bytes := []) hoff hfit]
    rfl

end Sys2Proof.Machine
end

section
/-! SUPPORT. The bit engine (40_spi_bit_engine.md): the five transport calls when they complete and when they fault (R111
to R117, R231), the decoder as the inverse of the encoder (R123 to R127), the two rows that are one operation of this layer
(R114, R120), and a command one of whose calls faults (R116, R240). -/

namespace Sys2Proof.Machine

/-! ### A command one of whose calls faults (R116, R128, R240) -/

/-- The step a fault is recorded against is fixed by registers that no operation below the orchestrator writes. -/
theorem currentStep_of_reach {s u : State} (h : Reach s u) : currentStep u = currentStep s := by
  simp only [currentStep, h.st, h.estep, h.page]

/-- The answer of a command begun in `s` whose calls `done` complete and whose next call faults with the pins at `p`: the
run has failed, with the later outcomes `rest` untouched and one event for each completed call. -/
def FailsRun (s : State) (p : Pins) (done rest : List CallOutcome) (o : Host.Outcome State Fault Refusal) : Prop :=
  ∃ (t : State) (evs : List Event), o = .next t ∧ t.st = .failed ∧ t.result = .fail ∧ t.err = .transport
    ∧ t.errstep = currentStep s ∧ t.pins = p ∧ t.env.calls = rest ∧ t.trace = s.trace ++ evs
    ∧ evs.length = done.length

section FaultedCall

variable {α : Type} {n : Nat} {s : State} {p : Pins} {done rest : List CallOutcome} {r : Res α}
  (hdone : ∀ o ∈ done, o = .completes) (hcalls : s.env.calls = done ++ .faults p :: rest)
  (hmeets : MeetsFault n s r) (hframed : Framed s r) (hlt : done.length < n)
include hdone hcalls hmeets hframed hlt

/-- The fault ends the operation and all that was to follow it; fault entry for it makes no call (R240). -/
theorem failsRun_bind {β : Type} (k : α → State → Res β) : FailsRun s p done rest (finish (r.bind k)) := by
  obtain ⟨hraises, -⟩ := hmeets p done rest hdone hcalls
  obtain ⟨c, u, evs, rfl, hpins, hrest, htrace, hlen⟩ := hraises hlt
  obtain ⟨hreach, -⟩ := hframed
  rw [bind_raised, finish_raised, faultEntry_plain (.inl rfl)]
  exact ⟨_, evs, rfl, rfl, rfl, rfl, currentStep_of_reach hreach, hpins, hrest, htrace, hlen⟩

theorem failsRun_finish : FailsRun s p done rest (finish r) := by
  have h := failsRun_bind hdone hcalls hmeets hframed hlt fun a u => .ok a u
  rwa [bind_pure] at h

end FaultedCall

/-- The bytes of a well-formed `LOAD_BUF` and its idle pulse fit the buffer, the longest single command. -/
theorem loadBuf_fits {data : List Byte} {c : Config} (hwf : (Instr.loadBuf data).wf = true) (hcfg : c.wf = true) :
    16 * (([0x84#8, 0x00#8, 0x00#8, 0x00#8] ++ data).length + 1) + 1 ≤ c.bufCap := by
  have hcap := bufCap_of_wf hcfg
  have hlen := wf_loadBuf_iff.1 hwf
  simp only [List.length_append, List.length_cons, List.length_nil, hlen]
  omega

/-- Settles O36: command by command, the number of calls of its transaction; what follows the transaction makes none. -/
theorem transportFaultInACommandEndsTheRun : Obligations.TransportFaultInACommandEndsTheRun := by
  intro i s p done rest hwf hcfg hdone hlt hcalls
  have hpins := pinsAdmitted_of_wf hcfg
  have hcap := bufCap_of_wf hcfg
  have hread : 17 ≤ s.cfg.bufCap := by omega
  have hwrite : ∀ bytes : List Byte, 16 * (bytes.length + 1) + 1 ≤ s.cfg.bufCap → done.length < 1 →
      FailsRun s p done rest (finish (writeTxn bytes s)) := fun bytes hfit =>
    failsRun_finish hdone hcalls (MeetsFault_writeTxn hpins hfit) (Framed_writeTxn bytes s)
  have hshort : ∀ k, k ≤ 4 → 16 * (k + 1) + 1 ≤ s.cfg.bufCap := by omega
  cases i with
  | identify => exact failsRun_bind hdone hcalls (MeetsFault_readTxn 0x9F#8 4 hpins hread) (Framed_readTxn _ 4 s) hlt _
  | readStatus => exact failsRun_bind hdone hcalls (MeetsFault_readTxn 0xD7#8 1 hpins hread) (Framed_readTxn _ 1 s) hlt _
  | eraseS0a => exact hwrite _ (hshort 4 (by decide)) hlt
  | eraseS0b => exact hwrite _ (hshort 4 (by decide)) hlt
  | eraseSn addr => exact hwrite _ (hshort 4 (by decide)) hlt
  | loadBuf data => exact hwrite _ (loadBuf_fits hwf hcfg) hlt
  | commit page => exact hwrite _ (hshort 3 (by decide)) hlt
  | gpioVector lv hold miso =>
    exact failsRun_finish hdone hcalls (MeetsFault_write [lv] s) (Framed_write [lv] s) hlt
  | sentinel => exact absurd hlt (Nat.not_lt_zero _)
  | byteFrame sel byte => exact absurd hlt (Nat.not_lt_zero _)

/-! ### The five transport calls (R110 to R117, R231) -/

/-- Settles O15: the rule of each call in a calm environment; a write leaves its last vector on the pins. -/
theorem transportCallsDriveTheirLines : Obligations.TransportCallsDriveTheirLines := by
  intro s hcalm
  refine ⟨assertHold_calm hcalm, releaseHold_calm hcalm, fun sel => select_calm hcalm sel, fun lvs last => ?_⟩
  rw [write_calm hcalm, driveAll_append_single]
  rfl

theorem nextOutcome_of_calls {s : State} {o : CallOutcome} {rest : List CallOutcome} (h : s.env.calls = o :: rest) :
    nextOutcome s = (o, { s with env.calls := rest }) := by
  simp only [nextOutcome, h]

theorem transportCall_faults {s : State} {p : Pins} {rest : List CallOutcome} (h : s.env.calls = .faults p :: rest)
    (c : Call) (effect : State → State) :
    transportCall c effect s = .raised (.transport c) { s with pins := p, env.calls := rest } := by
  rw [transportCall, nextOutcome_of_calls h]

theorem readPins_faults {s : State} {p : Pins} {rest : List CallOutcome} (h : s.env.calls = .faults p :: rest) :
    readPins s = .raised (.transport .readPins) { s with pins := p, env.calls := rest } := by
  rw [readPins, nextOutcome_of_calls h]

/-- Settles O17: a call that faults has no effect but its fault, whichever call it is. -/
theorem faultingCallRaisesTransportFault : Obligations.FaultingCallRaisesTransportFault := fun _ _ _ h =>
  ⟨transportCall_faults h _ _, transportCall_faults h _ _, fun _ => transportCall_faults h _ _,
    fun _ => transportCall_faults h _ _, readPins_faults h⟩

/-- A transport call before which no reset comes completes or faults (R116). -/
theorem transportCall_unreset_cases {s : State} (h : s.unreset) (c : Call) (effect : State → State) :
    transportCall c effect s = .ok () (effect (dropCalls 1 s))
      ∨ ∃ p, transportCall c effect s = .raised (.transport c) { dropCalls 1 s with pins := p } := by
  rcases nextOutcome_cases s with hnext | ⟨p, hnext⟩ | hnext
  · exact .inl (by rw [transportCall, hnext])
  · exact .inr ⟨p, by rw [transportCall, hnext]⟩
  · exact absurd h (nextOutcome_reset hnext)

/-! ### The decoder (R123 to R127) -/

@[simp] theorem bytesOfBits_length (n : Nat) (ms : List Bool) : (bytesOfBits n ms).length = n := by
  induction n generalizing ms with
  | zero => rfl
  | succ n ih => rw [bytesOfBits, List.length_cons, ih]

/-- Byte `k` is made of bits `8k` to `8k + 7` (R123, R124). -/
theorem bytesOfBits_getElem? {n k : Nat} (h : k < n) (ms : List Bool) :
    (bytesOfBits n ms)[k]? = some (byteOfBits ((ms.drop (8 * k)).take 8)) := by
  induction n generalizing k ms with
  | zero => exact absurd h (Nat.not_lt_zero k)
  | succ n ih =>
    cases k with
    | zero => rfl
    | succ k =>
      rw [bytesOfBits, List.getElem?_cons_succ, ih (Nat.lt_of_succ_lt_succ h), List.drop_drop, Nat.mul_succ, Nat.add_comm 8]

/-- After at least one byte, `rx` holds the last and not what it held before. -/
theorem getLast?_or_bytesOfBits {n : Nat} (h : 1 ≤ n) (ms : List Bool) (rx : Option Byte) :
    (bytesOfBits n ms).getLast?.or rx = (bytesOfBits n ms).getLast? := by
  cases n with
  | zero => exact absurd h (Nat.not_succ_le_zero 0)
  | succ n => rw [bytesOfBits, List.getLast?_cons, Option.some_or]

/-- Settles O18: the rule of a calm `decode_bytes`, whose value is the received bits cut into bytes. -/
theorem decodeBytesReadsInOneSelection : Obligations.DecodeBytesReadsInOneSelection := by
  intro sel n s hn hcalm
  refine ⟨_, _, decodeBytes_calm n hcalm, bytesOfBits_length _ _, fun k hk => bytesOfBits_getElem? hk _, ?_⟩
  rw [getLast?_or_bytesOfBits hn]

/-- Both vectors of pair `k` of a frame carry bit `7 - k` of the byte (R121). -/
theorem frame_pair_mosi (sel : Selector) (b : Byte) {k o : Nat} (hk : k < 8) (ho : o < 2) :
    ((frame sel b)[2 * k + o]?).map LineVector.mosi = some (b.getLsbD (7 - k)) := by
  have hpair : (2 * k + o) / 2 = k := by omega
  rw [frame_getElem? sel b (by omega), Option.map_some, hpair]

theorem bitsMsbFirst_getElem? (b : Byte) {k : Nat} (hk : k < 8) : (bitsMsbFirst b)[k]? = some (b.getLsbD (7 - k)) := by
  interval_cases k <;> rfl

/-- Settles O19: the received bits are the byte's bits, most significant first, and those make the byte again. -/
theorem encodeThenDecodeRoundTrip : Obligations.EncodeThenDecodeRoundTrip := by
  intro sel b s o hcalm ho hsamples
  have hbits : upcomingBits 8 s = bitsMsbFirst b := by
    refine List.ext_getElem? fun k => ?_
    by_cases hk : k < 8
    · rw [hsamples k hk, frame_pair_mosi sel b hk ho, bitsMsbFirst_getElem? b hk]
    · rw [List.getElem?_eq_none (by simpa using hk), List.getElem?_eq_none (Nat.le_of_not_lt hk)]
  have hbyte : bytesOfBits 1 (upcomingBits (8 * 1) s) = [b] := by
    rw [Nat.mul_one, hbits]
    exact congrArg (· :: []) (byteOfBits_bitsMsbFirst b)
  exact ⟨_, hbyte ▸ decodeBytes_calm 1 hcalm⟩

/-! ### One vector, and one byte frame (R114, R120) -/

/-- Settles O28: the row is one `write` of one vector, which completes. -/
theorem gpioVectorCompletes : Obligations.GpioVectorCompletes := by
  intro lv h m s hcalm
  rw [exec, execGpioVector, write_calm hcalm]
  rfl

/-- Settles O33: the one call completes or faults, and either way it writes no register but the pins and the trace. -/
theorem gpioVectorFrame : Obligations.GpioVectorFrame := by
  intro lv h m s t hs hnext
  have hnext : finish (write [lv] s) = .next t := hnext
  refine ⟨controlKept_of_Framed (Framed_write [lv] s) hs hnext, ?_⟩
  rcases transportCall_unreset_cases hs (.write [lv]) fun u => (u.driveAll [lv]).emit (.write [lv]) with hw | ⟨p, hw⟩ <;>
    · rw [write, hw] at hnext
      cases hnext
      exact ⟨rfl, rfl, rfl, rfl, rfl, rfl, rfl⟩

/-- Settles O30: `assemble` of the one byte stores its packed frame and the sentinel from the end of the stream on. -/
theorem byteFrameCompletes : Obligations.ByteFrameCompletes := by
  intro sel b s hoff hfit
  have hlen : (stored s.cfg (frame sel b)).length = 17 := stored_length _ _
  refine ⟨s.buf.store s.blen (stored s.cfg (frame sel b)), ?_, fun k hk => ?_, fun a ha => read_store_outside ?_, ?_⟩
  · rw [read_store_inside (by omega)]
    rfl
  · have hframe : k < ((frame sel b).map fun lv => pack s.cfg lv .asserted).length := by
      rw [List.length_map, frame_length]
      exact hk
    rw [read_store_inside (by omega), stored, List.getElem?_append_left hframe, List.getElem?_map]
  · omega
  · rw [exec, execByteFrame, assemble_ok (bytes := [b]) hoff hfit, frames_singleton]
    rfl

end Sys2Proof.Machine
end

section
/-! SUPPORT. The bulk assembler (41_bulk_assembler.md): what a stored stream reads as (R101, R141), two streams one after
the other (R146), the one write of a transmit and of a page burst (R147, R148), and what the two rows that only assemble
leave unchanged (R144, R240). -/

namespace Sys2Proof

/-! ### The vectors of a byte sequence (R101) -/

/-- Vector `t` of byte `j` stands at place `16j + t`, every frame being 16 vectors long. -/
theorem frames_getElem? (sel : Selector) {bytes : List Byte} {j t : Nat} {b : Byte} (hb : bytes[j]? = some b)
    (ht : t < 16) : (frames sel bytes)[16 * j + t]? = (frame sel b)[t]? := by
  induction bytes generalizing j with
  | nil => cases hb
  | cons x xs ih =>
    rw [frames_cons]
    cases j with
    | zero =>
      obtain rfl : x = b := Option.some.inj hb
      rw [Nat.mul_zero, Nat.zero_add, List.getElem?_append_left ht]
    | succ j =>
      have hplace : 16 * (j + 1) + t - (frame sel x).length = 16 * j + t := by
        rw [frame_length]
        omega
      rw [List.getElem?_append_right (by rw [frame_length]; omega), hplace, ih hb]

end Sys2Proof

namespace Sys2Proof.Machine

/-! ### Reads of a stored stream (R101, R141) -/

section StoredStream

variable (m : Memory) (c : Config) (off : Nat) (lvs : List LineVector)

theorem read_stored_vector {k : Nat} (hk : k < lvs.length) :
    (m.store off (stored c lvs)).read (off + k) = (lvs[k]?).map fun lv => pack c lv .asserted := by
  rw [read_store_inside (by rw [stored_length]; omega), stored, List.getElem?_append_left (by rwa [List.length_map]),
    List.getElem?_map]

theorem read_stored_sentinel : (m.store off (stored c lvs)).read (off + lvs.length) = some 0 := by
  have hlen : (lvs.map fun lv => pack c lv .asserted).length = lvs.length := List.length_map _
  rw [read_store_inside (by rw [stored_length]; omega), stored, ← hlen, List.getElem?_concat_length]

theorem read_stored_outside {a : Nat} (ha : a < off ∨ off + lvs.length < a) :
    (m.store off (stored c lvs)).read a = m.read a :=
  read_store_outside (by rw [stored_length]; omega)

end StoredStream

/-! ### Assembling (R141, R144, R146) -/

/-- Settles O20: the state of `assemble_ok`, its buffer read at each place of the stream and outside it. -/
theorem assembleStoresFramesAndSentinel : Obligations.AssembleStoresFramesAndSentinel := by
  intro bytes off sel s hoff hfit
  have hlen := frames_length sel bytes
  refine ⟨_, assemble_ok hoff hfit, fun j t ht b hb => ?_, ?_, fun a ha => ?_, fun hwf => store_wf hwf _ _⟩
  · have hj : j < bytes.length := (List.getElem?_eq_some_iff.1 hb).1
    rw [Nat.add_assoc, read_stored_vector _ _ _ _ (by omega), frames_getElem? sel hb ht]
  · rw [← hlen]
    exact read_stored_sentinel _ _ _ _
  · exact read_stored_outside _ _ _ _ (by omega)

/-- Settles O21: either condition makes the check of `assemble` fail. -/
theorem assembleChecksTheStreamLength : Obligations.AssembleChecksTheStreamLength := by
  intro bytes off sel s h
  exact assemble_raised (by omega)

/-- Settles O22: the second `assemble` begins where the sentinel of the first stands, and overwrites it. -/
theorem assembleConcatenates : Obligations.AssembleConcatenates := by
  intro x y off sel s hoff hfit
  have hlen : (x ++ y).length = x.length + y.length := List.length_append
  have hend : off + 16 * x.length + 16 * y.length = off + 16 * (x ++ y).length := by omega
  rw [assemble_ok hoff hfit, assemble_ok hoff (by omega), bind_ok, assemble_ok (by omega) (by dsimp only; omega), hend,
    store_continue _ _ _ _ off _ (by rw [frames_length]), ← frames_append]

/-! ### Transmitting (R147) -/

/-- A canonical buffer whose first `blen` offsets read as packed line vectors holds their stream. -/
theorem bufferedStream_of_reads {s : State} {lvs : List LineVector} (hcfg : s.cfg.pinsAdmitted = true) (hwf : s.buf.wf)
    (hne : lvs ≠ []) (hlen : s.blen = lvs.length)
    (hread : ∀ k, k < s.blen → s.buf.read k = (lvs[k]?).map fun lv => pack s.cfg lv .asserted) :
    bufferedStream s = some lvs := by
  have hpos : s.blen ≠ 0 := by rwa [hlen, Ne, List.length_eq_zero_iff]
  have hrun : s.buf.run 0 s.blen = some (lvs.map fun lv => pack s.cfg lv .asserted) :=
    (run_eq_some_iff hwf 0 s.blen _).2
      ⟨by rw [List.length_map, hlen], fun k hk => by rw [Nat.zero_add, hread k hk, List.getElem?_map]⟩
  rw [bufferedStream, if_neg hpos, hrun]
  exact unpackAll_pack hcfg lvs

/-- Settles O23: the stream read from the buffer is `lvs` and `last`, and the one write of it completes. -/
theorem transmitSendsTheStreamInOneWrite : Obligations.TransmitSendsTheStreamInOneWrite := by
  intro s lvs last hcalm hcfg hwf hblen hread
  have hstream : bufferedStream s = some (lvs ++ [last]) :=
    bufferedStream_of_reads hcfg hwf (by simp) (by rw [hblen, List.length_append]; rfl) hread
  rw [transmit, hstream]
  simp only [write_calm hcalm, driveAll_append_single, bind_ok]
  rfl

/-- Settles O24: the state of `writePage_calm`, its buffer read at each place of the burst and above it. -/
theorem pageBurstIsOneWrite : Obligations.PageBurstIsOneWrite := by
  intro p record s hcalm hcfg hrec
  have hlen : (pageBurst s.cfg p record).length = 4368 := pageBurst_length s.cfg p hrec
  refine ⟨s.buf.store 0 (stored s.cfg (pageBurst s.cfg p record)), pageBurst s.cfg p record, rfl, hlen, ?_,
    fun k hk => ?_, fun a ha => ?_, writePage_calm hcalm (pinsAdmitted_of_wf hcfg) hrec (bufCap_of_wf hcfg)⟩
  · have hzero := read_stored_sentinel s.buf s.cfg 0 (pageBurst s.cfg p record)
    rwa [hlen, Nat.zero_add] at hzero
  · have hvec := read_stored_vector s.buf s.cfg 0 (pageBurst s.cfg p record) (hlen ▸ hk)
    rwa [Nat.zero_add] at hvec
  · exact read_stored_outside _ _ _ _ (.inr (by omega))

/-! ### The rows that only assemble (R141, R144, R240) -/

/-- The registers and lines that neither an assembly nor the clean-up of its fault writes, and the samples, of which
neither takes one. -/
structure StreamKept (s t : State) : Prop where
  rx : t.rx = s.rx
  status : t.status = s.status
  ident : t.ident = s.ident
  sel : t.pins.sel = s.pins.sel
  sck : t.pins.sck = s.pins.sck
  mosi : t.pins.mosi = s.pins.mosi
  samples : t.env.samples = s.env.samples
  drawn : t.env.drawn = s.env.drawn

theorem streamKept_faultEntry {s : State} (hs : s.unreset) (f : EngineFault) :
    StreamKept s (faultEntry f s) ∧ (faultEntry f s).buf = s.buf ∧ (faultEntry f s).blen = s.blen := by
  rcases faultEntry_cases f s with ⟨u, hu, hcleanup⟩ | ⟨-, hreset⟩
  · rw [hu]
    rcases hcleanup with rfl | ⟨-, -, rfl | ⟨h, rfl⟩⟩ <;>
      exact ⟨⟨rfl, rfl, rfl, rfl, rfl, rfl, rfl, rfl⟩, rfl, rfl⟩
  · exact absurd hs hreset

/-- What a row that is one `assemble` at the end of the stream leaves unchanged, whether the check passes or not. -/
theorem assemble_at_blen_frame {bytes : List Byte} {sel : Selector} {s t : State} (hs : s.unreset)
    (h : finish (assemble bytes s.blen sel s) = .next t) :
    controlKept s t ∧ StreamKept s t ∧ (t.blen = s.blen + 16 * bytes.length ∨ t.blen = s.blen)
      ∧ ∀ a, a < s.blen ∨ s.blen + 16 * bytes.length < a → t.buf.read a = s.buf.read a := by
  refine ⟨controlKept_of_Framed (Framed_assemble _ _ _ s) hs h, ?_⟩
  by_cases hcheck : s.blen % 16 = 0 ∧ s.blen + 16 * bytes.length + 1 ≤ s.cfg.bufCap
  · rw [assemble_ok hcheck.1 hcheck.2] at h
    cases h
    exact ⟨⟨rfl, rfl, rfl, rfl, rfl, rfl, rfl, rfl⟩, .inl rfl,
      fun a ha => read_stored_outside _ _ _ _ (by rwa [frames_length])⟩
  · rw [assemble_raised hcheck] at h
    cases h
    obtain ⟨hkept, hbuf, hblen⟩ := streamKept_faultEntry hs (.streamLength s.blen)
    exact ⟨hkept, .inr hblen, fun a _ => by rw [hbuf]⟩

/-- Settles O34: both rows are one `assemble` at the end of the stream, of no byte and of one. -/
theorem streamRowsFrame : Obligations.StreamRowsFrame := by
  intro s t hs
  refine ⟨fun hnext => ?_, fun sel b hnext => ?_⟩
  · obtain ⟨hcontrol, hkept, hblen, hbuf⟩ := assemble_at_blen_frame (bytes := []) hs hnext
    exact ⟨hcontrol, hkept.rx, hkept.status, hkept.ident, hblen.elim id id, hkept.sel, hkept.sck, hkept.mosi,
      hkept.samples, hkept.drawn, fun a ha => hbuf a (Nat.lt_or_gt_of_ne ha)⟩
  · obtain ⟨hcontrol, hkept, -, hbuf⟩ := assemble_at_blen_frame (bytes := [b]) hs hnext
    exact ⟨hcontrol, hkept.rx, hkept.status, hkept.ident, hkept.sel, hkept.sck, hkept.mosi, hkept.samples,
      hkept.drawn, hbuf⟩

end Sys2Proof.Machine
end

section
/-! SUPPORT. The flash commands (42_flash_commands.md): what the write commands and the read commands do when their calls
complete (R161 to R169), what each leaves unchanged (R117, R240), the classification of the identity (R170) and the erase
lists (R172). -/

namespace Sys2Proof

/-! ### The bytes of a command (R88, R89) -/

/-- No instruction is longer than `LOAD_BUF` (R89). -/
theorem encode_length_le {i : Instr} (hwf : i.wf = true) : (encode i).length ≤ 268 := by
  cases i with
  | loadBuf data => exact (Laws.WireLength.loadBuf data hwf).le
  | _ => simp [encode]

/-! ### The first bit of a received byte (R97, R123) -/

theorem getLsbD_shiftIn_zero (acc : Byte) (m : Bool) : (shiftIn acc m).getLsbD 0 = m := by
  cases m <;> simp [shiftIn]

theorem getLsbD_shiftIn_succ (acc : Byte) (m : Bool) (k : Nat) :
    (shiftIn acc m).getLsbD (k + 1) = (decide (k + 1 < 8) && acc.getLsbD k) := by
  cases m <;> simp [shiftIn]

end Sys2Proof

namespace Sys2Proof.Machine

/-- Eight bits shifted in carry the first one to the ready flag (R97). -/
theorem readyFlag_byteOfBits {ms : List Bool} (h : ms.length = 8) : ms[0]? = some (readyFlag (byteOfBits ms)) := by
  match ms, h with
  | [m7, m6, m5, m4, m3, m2, m1, m0], _ =>
    simp [readyFlag, byteOfBits, -BitVec.getLsbD_eq_getElem, getLsbD_shiftIn_zero, getLsbD_shiftIn_succ]

/-- The identity of four bytes, the first least significant (R58). -/
theorem identOf_four (r0 r1 r2 r3 : Byte) :
    identOf [r0, r1, r2, r3] = r0.zeroExtend 32 ||| (r1.zeroExtend 32 <<< 8) ||| (r2.zeroExtend 32 <<< 16)
      ||| (r3.zeroExtend 32 <<< 24) := by
  simp only [identOf, BitVec.zero_shiftLeft, BitVec.zero_or, BitVec.shiftLeft_or_distrib, ← BitVec.shiftLeft_add,
    Nat.reduceAdd]
  rw [BitVec.or_comm _ (r0.zeroExtend 32), BitVec.or_comm _ (r1.zeroExtend 32 <<< 8),
    BitVec.or_comm _ (r2.zeroExtend 32 <<< 16), ← BitVec.or_assoc, ← BitVec.or_assoc]

/-! ### The commands complete (R161 to R169) -/

/-- The buffer after a transaction, read at the sentinel, at each vector of its stream and above them (R101, R141). -/
theorem reads_of_store_zero (m : Memory) (c : Config) (lvs : List LineVector) :
    (m.store 0 (stored c lvs)).read lvs.length = some 0
      ∧ (∀ k, k < lvs.length → (m.store 0 (stored c lvs)).read k = (lvs[k]?).map fun lv => pack c lv .asserted)
      ∧ ∀ a, lvs.length < a → (m.store 0 (stored c lvs)).read a = m.read a := by
  refine ⟨?_, fun k hk => ?_, fun a ha => read_stored_outside m c 0 lvs (.inr (by omega))⟩
  · simpa only [Nat.zero_add] using read_stored_sentinel m c 0 lvs
  · simpa only [Nat.zero_add] using read_stored_vector m c 0 lvs hk

/-- A command with no read-back is the write transaction of its bytes (R164 to R168). -/
theorem exec_of_isWriteCommand {i : Instr} (h : isWriteCommand i = true) (s : State) :
    exec i s = finish (writeTxn (encode i) s) := by
  cases i with
  | eraseS0a | eraseS0b | eraseSn _ | loadBuf _ | commit _ => rfl
  | identify | readStatus | gpioVector _ _ _ | sentinel | byteFrame _ _ => exact Bool.noConfusion h

/-- Settles O25: each is the write transaction of its bytes, which fits the buffer. -/
theorem writeCommandsComplete : Obligations.WriteCommandsComplete := by
  intro i s hi hwf hcalm hcfg
  have hlen := encode_length_le hwf
  have hcap := bufCap_of_wf hcfg
  obtain ⟨hsentinel, hvectors, habove⟩ :=
    reads_of_store_zero s.buf s.cfg (frames s.cfg.flashSel (encode i) ++ idleFrame s.cfg)
  refine ⟨_, _, rfl, ?_, hsentinel, hvectors, habove, ?_⟩
  · rw [List.length_append, frames_length, idleFrame, frame_length, Nat.mul_succ]
  · rw [exec_of_isWriteCommand hi, writeTxn_calm hcalm (pinsAdmitted_of_wf hcfg) (by omega), finish_ok]

/-- A read command that completes: the state of its transaction, and the register that takes the bytes received. -/
theorem finish_readTxn_calm (b : Byte) (n : Nat) (g : List Byte → State → State) {s : State} (hcalm : s.calm)
    (hcfg : s.cfg.wf = true) :
    finish ((readTxn [b] n s).bind fun r u => .ok () (g r u)) =
      .next (g (bytesOfBits n (upcomingBits (8 * n) s)) { s with
        pins := ⟨.selIdle, false, false, s.pins.hold⟩
        buf := s.buf.store 0 (stored s.cfg (frame s.cfg.flashSel b))
        blen := 0
        rx := (bytesOfBits n (upcomingBits (8 * n) s)).getLast?.or s.rx
        trace := s.trace ++ [.write (frame s.cfg.flashSel b), .select s.cfg.flashSel]
          ++ bitCycleEvents s.cfg.flashSel (upcomingBits (8 * n) s) ++ [.select .selIdle]
        env := envAfter (16 * n + 3) (8 * n) s }) := by
  have hcap := bufCap_of_wf hcfg
  have hread := readTxn_calm (bytes := []) (b := b) n hcalm (pinsAdmitted_of_wf hcfg)
    (by rw [List.length_nil]; omega)
  rw [List.nil_append, frames_singleton] at hread
  rw [hread, bind_ok, finish_ok]

/-- Settles O26: the read transaction of 9F, whose four bytes make the identity. -/
theorem identifyCompletes : Obligations.IdentifyCompletes := by
  intro s hcalm hcfg
  obtain ⟨hsentinel, hvectors, habove⟩ := reads_of_store_zero s.buf s.cfg (frame s.cfg.flashSel 0x9F#8)
  refine ⟨_, _, _, _, _, rfl, hvectors, hsentinel, habove, ?_⟩
  rw [← identOf_four]
  exact finish_readTxn_calm 0x9F#8 4 (fun r u => { u with ident := some (identOf r) }) hcalm hcfg

/-- Settles O27: the read transaction of D7, whose one byte is the status. -/
theorem readStatusCompletes : Obligations.ReadStatusCompletes := by
  intro s hcalm hcfg
  have hbits := upcomingBits_length 8 s
  have hbytes : bytesOfBits 1 (upcomingBits 8 s) = [byteOfBits (upcomingBits 8 s)] := by
    rw [bytesOfBits, bytesOfBits, List.take_of_length_le hbits.le]
  obtain ⟨hsentinel, hvectors, habove⟩ := reads_of_store_zero s.buf s.cfg (frame s.cfg.flashSel 0xD7#8)
  refine ⟨_, _, rfl, readyFlag_byteOfBits hbits, hvectors, hsentinel, habove, ?_⟩
  have hexec := finish_readTxn_calm 0xD7#8 1 (fun r u => { u with status := r.head? }) hcalm hcfg
  rw [Nat.mul_one, hbytes] at hexec
  exact hexec

/-! ### What a transaction leaves unchanged (R117, R240) -/

/-- Every state the operation can complete or raise in has the property. -/
def Res.Leaves {α : Type} (P : State → Prop) (r : Res α) : Prop :=
  r.Sat (fun _ => P) (fun _ => P) (fun _ => True)

/-- A property of every state that an operation can complete or raise in, which fault entry keeps, holds of the state the
step ends in, when no reset comes between the calls. -/
theorem finish_keeps {α : Type} {P : State → Prop} {s t : State} {r : Res α} (hframed : Framed s r) (hs : s.unreset)
    (hP : r.Leaves P) (hfault : ∀ f u, u.unreset → P u → P (faultEntry f u)) (h : finish r = .next t) : P t := by
  rcases finish_eq_next_iff.1 h with ⟨a, rfl⟩ | ⟨f, u, rfl, rfl⟩ | rfl
  · exact hP
  · obtain ⟨hreach, -⟩ := hframed
    exact hfault f u (hreach.unreset hs) hP
  · obtain ⟨-, hreset⟩ := hframed
    exact absurd hs hreset

/-- `status` and `ident` are written after a transaction and never in it (R163, R169). -/
theorem status_ident_of_Framed {α : Type} {s t : State} {r : Res α} (hframed : Framed s r) (hs : s.unreset)
    (h : finish r = .next t) : t.status = s.status ∧ t.ident = s.ident := by
  refine finish_keeps (P := fun u => u.status = s.status ∧ u.ident = s.ident) hframed hs ?_
    (fun f u hu ⟨hstatus, hident⟩ => ?_) h
  · exact Sat_imp hframed (fun _ _ ⟨hreach, _⟩ => ⟨hreach.status, hreach.ident⟩)
      (fun _ _ ⟨hreach, _⟩ => ⟨hreach.status, hreach.ident⟩) fun _ _ => trivial
  · obtain ⟨hkept, -, -⟩ := streamKept_faultEntry hu f
    exact ⟨hkept.status.trans hstatus, hkept.ident.trans hident⟩

/-- The buffer above an offset is as it was. -/
def KeptAbove (top : Nat) (s t : State) : Prop :=
  ∀ a, top < a → t.buf.read a = s.buf.read a

/-- What a transaction with no read-back writes nothing of: the last byte received, the samples to come, and the buffer
above an offset. -/
structure NoReadBack (top : Nat) (s t : State) : Prop where
  rx : t.rx = s.rx
  samples : t.env.samples = s.env.samples
  drawn : t.env.drawn = s.env.drawn
  above : KeptAbove top s t

theorem noReadBack_faultEntry {top : Nat} {s u : State} (f : EngineFault) (hu : u.unreset) (h : NoReadBack top s u) :
    NoReadBack top s (faultEntry f u) := by
  obtain ⟨hkept, hbuf, -⟩ := streamKept_faultEntry hu f
  exact ⟨hkept.rx.trans h.rx, hkept.samples.trans h.samples, hkept.drawn.trans h.drawn,
    fun a ha => by rw [hbuf, h.above a ha]⟩

/-- A stream and its sentinel that end at or below the offset, and the offset that `assemble` answers (R141). -/
theorem noReadBack_assemble {top off : Nat} {bytes : List Byte} {s u : State} (h : NoReadBack top s u)
    (hfit : off + 16 * bytes.length ≤ top) (sel : Selector) :
    (assemble bytes off sel u).Sat (fun next t => next = off + 16 * bytes.length ∧ NoReadBack top s t)
      (fun _ => NoReadBack top s) (fun _ => True) := by
  by_cases hcheck : off % 16 = 0 ∧ off + 16 * bytes.length + 1 ≤ u.cfg.bufCap
  · rw [assemble_ok hcheck.1 hcheck.2]
    refine ⟨rfl, h.rx, h.samples, h.drawn, fun a ha => ?_⟩
    exact (read_stored_outside _ _ _ _ (.inr (by rw [frames_length]; omega))).trans (h.above a ha)
  · rw [assemble_raised hcheck]
    exact h

theorem noReadBack_transmit {top : Nat} {s u : State} (h : NoReadBack top s u) :
    (transmit u).Leaves (NoReadBack top s) := by
  unfold transmit
  cases bufferedStream u with
  | none => trivial
  | some lvs =>
    obtain ⟨p, -, hdrive⟩ := driveAll_pins (dropCalls 1 u) lvs
    rcases transportCall_cases (.write lvs) (fun v => (v.driveAll lvs).emit (.write lvs)) u with hw | ⟨q, hw⟩ | hw
    · simp only [write, hw, hdrive]
      exact ⟨h.rx, h.samples, h.drawn, h.above⟩
    · simp only [write, hw]
      exact ⟨h.rx, h.samples, h.drawn, h.above⟩
    · simp only [write, hw]
      trivial

/-- A write transaction stores its stream from offset 0 and the idle pulse after it (R161). -/
theorem noReadBack_writeTxn (bytes : List Byte) (s : State) :
    (writeTxn bytes s).Leaves (NoReadBack (16 * (bytes.length + 1)) s) := by
  have hself : NoReadBack (16 * (bytes.length + 1)) s s := ⟨rfl, rfl, rfl, fun _ _ => rfl⟩
  refine Sat_bind (noReadBack_assemble hself (by omega) _) fun off u ⟨hoff, hu⟩ => ?_
  refine Sat_bind (noReadBack_assemble hu ?_ _) fun _ v ⟨_, hv⟩ => noReadBack_transmit hv
  rw [hoff, List.length_singleton]
  omega

/-- Settles O31: each is the write transaction of its bytes. -/
theorem writeCommandsFrame : Obligations.WriteCommandsFrame := by
  intro i s t hi hs hnext
  rw [exec_of_isWriteCommand hi] at hnext
  have hframed := Framed_writeTxn (encode i) s
  obtain ⟨hstatus, hident⟩ := status_ident_of_Framed hframed hs hnext
  obtain ⟨hrx, hsamples, hdrawn, habove⟩ :=
    finish_keeps hframed hs (noReadBack_writeTxn _ s) (fun f _ => noReadBack_faultEntry f) hnext
  exact ⟨controlKept_of_Framed hframed hs hnext, hrx, hstatus, hident, hsamples, hdrawn, habove⟩

/-! ### The buffer under a read-back (R123, R124) -/

/-- Every state the operation can complete or raise in has the buffer `m`. -/
def Res.HasBuf {α : Type} (m : Memory) (r : Res α) : Prop :=
  r.Leaves fun t => t.buf = m

theorem HasBuf_bind {α β : Type} {m : Memory} {r : Res α} {k : α → State → Res β} (h : r.HasBuf m)
    (hk : ∀ a t, (k a t).HasBuf t.buf) : (r.bind k).HasBuf m :=
  Sat_bind h fun a t ht => ht ▸ hk a t

theorem HasBuf_call {c : Call} {effect : State → State} {s : State} (h : ∀ u, (effect u).buf = u.buf) :
    (transportCall c effect s).HasBuf s.buf := by
  rcases transportCall_cases c effect s with hc | ⟨p, hc⟩ | hc <;> rw [hc]
  · exact h _
  · rfl
  · trivial

theorem HasBuf_select (sel : Selector) (s : State) : (select sel s).HasBuf s.buf :=
  HasBuf_call fun _ => rfl

theorem HasBuf_write (lvs : List LineVector) (s : State) : (write lvs s).HasBuf s.buf := by
  refine HasBuf_call fun u => ?_
  obtain ⟨p, -, hdrive⟩ := driveAll_pins u lvs
  rw [State_emit_buf, hdrive]

theorem HasBuf_readPins (s : State) : (readPins s).HasBuf s.buf := by
  rcases readPins_cases s with ⟨m, h⟩ | ⟨p, h⟩ | h <;> rw [h]
  · rfl
  · rfl
  · trivial

theorem HasBuf_decodeBits (sel : Selector) (n : Nat) (acc : Byte) (s : State) :
    (decodeBits sel n acc s).HasBuf s.buf := by
  induction n generalizing acc s with
  | zero => rfl
  | succ n ih =>
    exact HasBuf_bind (HasBuf_readPins s) fun _ _ => HasBuf_bind (HasBuf_write _ _) fun _ u => ih _ u

theorem HasBuf_decodeMany (sel : Selector) (n : Nat) (s : State) : (decodeMany sel n s).HasBuf s.buf := by
  induction n generalizing s with
  | zero => rfl
  | succ n ih => exact HasBuf_bind (HasBuf_decodeBits sel 8 _ _) fun _ t => HasBuf_bind (ih t) fun _ _ => rfl

theorem HasBuf_decodeBytes (sel : Selector) (n : Nat) (s : State) : (decodeBytes sel n s).HasBuf s.buf :=
  HasBuf_bind (HasBuf_select sel s) fun _ t => HasBuf_bind (HasBuf_decodeMany sel n t) fun _ u =>
    HasBuf_bind (HasBuf_select _ u) fun _ _ => rfl

theorem HasBuf_transmit (s : State) : (transmit s).HasBuf s.buf := by
  unfold transmit
  cases bufferedStream s with
  | none => trivial
  | some lvs => exact HasBuf_bind (HasBuf_write lvs s) fun _ _ => rfl

/-- A read transaction of one byte stores its frame and sentinel at offsets 0 to 16, or nothing (R162). -/
theorem keptAbove_readTxn (b : Byte) (n : Nat) (s : State) :
    (readTxn [b] n s).Leaves (KeptAbove 16 s) := by
  by_cases hfit : 17 ≤ s.cfg.bufCap
  · have hbuf : (readTxn [b] n s).HasBuf (s.buf.store 0 (stored s.cfg (frames s.cfg.flashSel [b]))) := by
      rw [readTxn, assemble_ok rfl (by rw [List.length_singleton]; omega), bind_ok]
      exact HasBuf_bind (HasBuf_transmit _) fun _ u => HasBuf_decodeBytes _ n u
    have habove : ∀ t : State, t.buf = s.buf.store 0 (stored s.cfg (frames s.cfg.flashSel [b])) → KeptAbove 16 s t :=
      fun t ht a ha => by
        rw [ht, read_stored_outside _ _ _ _ (.inr (by rw [frames_length, List.length_singleton]; omega))]
    exact Sat_imp hbuf (fun _ => habove) (fun _ => habove) fun _ h => h
  · rw [readTxn, assemble_raised (by rw [List.length_singleton]; omega), bind_raised]
    exact fun _ _ => rfl

/-- What a read transaction leaves unchanged: all but the pins, `rx`, the trace, the samples and the one frame in the
buffer (R162). -/
theorem readTxn_frame {b : Byte} {n : Nat} {s t : State} (hs : s.unreset) (h : finish (readTxn [b] n s) = .next t) :
    controlKept s t ∧ t.status = s.status ∧ t.ident = s.ident ∧ KeptAbove 16 s t := by
  have hframed := Framed_readTxn [b] n s
  obtain ⟨hstatus, hident⟩ := status_ident_of_Framed hframed hs h
  refine ⟨controlKept_of_Framed hframed hs h, hstatus, hident,
    finish_keeps hframed hs (keptAbove_readTxn b n s) (fun f u hu hkept a ha => ?_) h⟩
  obtain ⟨-, hbuf, -⟩ := streamKept_faultEntry hu f
  rw [hbuf, hkept a ha]

/-- An operation and an update of its last state end as the operation does, updated or not. -/
theorem finish_update_cases {α : Type} {r : Res α} {g : α → State → State} {t : State}
    (h : finish (r.bind fun a u => .ok () (g a u)) = .next t) :
    ∃ u, finish r = .next u ∧ (t = u ∨ ∃ a, t = g a u) := by
  cases r with
  | ok a u => cases h; exact ⟨u, rfl, .inr ⟨a, rfl⟩⟩
  | raised f u => cases h; exact ⟨_, rfl, .inl rfl⟩
  | reset u => cases h; exact ⟨_, rfl, .inl rfl⟩
  | stop f => cases h

/-- Settles O32: each is a read transaction and the write of its one register. -/
theorem readCommandsFrame : Obligations.ReadCommandsFrame := by
  intro s t hs
  refine ⟨fun hnext => ?_, fun hnext => ?_⟩
  · obtain ⟨u, hu, htu⟩ := finish_update_cases (g := fun r u => { u with ident := some (identOf r) }) hnext
    obtain ⟨hcontrol, hstatus, -, habove⟩ := readTxn_frame hs hu
    rcases htu with rfl | ⟨r, rfl⟩ <;> exact ⟨hcontrol, hstatus, habove⟩
  · obtain ⟨u, hu, htu⟩ := finish_update_cases (g := fun (r : List Byte) u => { u with status := r.head? }) hnext
    obtain ⟨hcontrol, -, hident, habove⟩ := readTxn_frame hs hu
    rcases htu with rfl | ⟨r, rfl⟩ <;> exact ⟨hcontrol, hident, habove⟩

/-! ### The classification and the erase lists (R170, R172) -/

theorem classify_small {s : State} {ident : BitVec 32} (hident : s.ident = some ident)
    (hdev : classifyIdent s.cfg ident = .small) :
    classify s = .ok () { s with dev := .small, st := .erasing, estep := 0, phase := .eraseHold } := by
  simp only [classify, hident, readReg, bind_ok, hdev]

theorem classify_large {s : State} {ident : BitVec 32} (hident : s.ident = some ident)
    (hdev : classifyIdent s.cfg ident = .large) :
    classify s = .ok () { s with dev := .large, st := .erasing, estep := 0, phase := .eraseHold } := by
  simp only [classify, hident, readReg, bind_ok, hdev]

theorem classify_mismatch {s : State} {ident : BitVec 32} (hident : s.ident = some ident)
    (hdev : classifyIdent s.cfg ident = .none) :
    classify s = .raised (.identity ident) { s with dev := .none } := by
  simp only [classify, hident, readReg, bind_ok, hdev]

/-- The classification compares the low 16 bits (R170). -/
theorem identLow_eq_setWidth (ident : BitVec 32) : identLow ident = ident.setWidth 16 :=
  (BitVec.setWidth_eq_extractLsb' (by decide)).symm

theorem idSmall_ne_idLarge {c : Config} (h : c.wf = true) : c.idSmall ≠ c.idLarge :=
  of_decide_eq_true (idsAdmitted_of_wf h)

/-- Settles O43: the two identifiers differ, so the three outcomes exclude each other. -/
theorem classificationSelectsTheDevice : Obligations.ClassificationSelectsTheDevice := by
  intro s ident hrun hphase hident
  have hne := idSmall_ne_idLarge hrun.1
  have hclass : classifyIdent s.cfg ident = if ident.setWidth 16 = s.cfg.idSmall then .small
      else if ident.setWidth 16 = s.cfg.idLarge then .large else .none := by
    rw [classifyIdent, identLow_eq_setWidth]
  have hstep : step s = finish (classify s) := by rw [step_of_running hrun, advance, hphase]
  rw [hstep]
  refine ⟨fun hsmall => ?_, fun hlarge => ?_, fun hsmall hlarge hst hhold => ?_⟩
  · rw [if_pos hsmall] at hclass
    rw [classify_small hident hclass, finish_ok]
  · rw [if_neg (hlarge ▸ hne.symm), if_pos hlarge] at hclass
    rw [classify_large hident hclass, finish_ok]
  · rw [if_neg hsmall, if_neg hlarge] at hclass
    have hstep : currentStep s = .identify := by rw [currentStep, hst]
    have hentry := faultEntry_plain (f := .identity ident) (s := { s with dev := .none }) (.inr hhold)
    rw [classify_mismatch hident hclass, finish_raised, hentry, ← hstep]
    rfl

/-- Settles O44: the two lists are closed, so they are computed. -/
theorem eraseListInOrder : Obligations.EraseListInOrder :=
  ⟨rfl, rfl, by decide, by decide⟩

end Sys2Proof.Machine
end

section
/-! SUPPORT. The orchestrator (43_orchestrator.md): a start (R192), the operations of the identify step, the erase and a page
step in their order (R193, R196, R203 to R205), a transport fault in one of their calls (R231, R240), and what any operation
can do to the orchestrator state and to the trace (R194, R208, R215). -/

namespace Sys2Proof.Machine

/-! ### The hold line (R207, R273) -/

/-- Settles O60: the engine's part is its own invariant, the trace's part follows from what each operation does to the
bus. -/
theorem holdInvariantIsKept : Obligations.HoldInvariantIsKept :=
  fun _ _ hs h => holdInv_of_step hs h

/-! ### A start (R192) -/

theorem step_of_start {s : State} {rest : List HostEvent} (hp : s.cfg.pinsAdmitted = true)
    (h : s.env.host = .start :: rest) : step s = start { s with env.host := rest } := by
  simp only [step, stepBody, hp, h, if_true]

theorem start_at_rest {s : State} (hst : s.st = .idle) (hph : s.phase = .rest) (hids : s.cfg.idsAdmitted = true) :
    start s = .next { s with
      dev := .none, estep := 0, page := 0, attempts := 0, result := .none, err := .none, errstep := .none
      blen := 0, st := .identifying, phase := .identifyHold, env := s.env.atStart } := by
  rw [start, if_pos ⟨hst, hph⟩, if_pos hids]

theorem start_elsewhere {s : State} (h : ¬(s.st = .idle ∧ s.phase = .rest)) : start s = .next s :=
  if_neg h

/-- Settles O41: the two cases of a start, and the host's entry used up in both. -/
theorem startBeginsARunOnlyFromIdle : Obligations.StartBeginsARunOnlyFromIdle := by
  intro s rest hp hhost
  rw [step_of_start hp hhost]
  refine ⟨fun hst hph hids => ?_, fun hbusy => start_elsewhere (not_and_or.2 hbusy)⟩
  exact start_at_rest (s := { s with env.host := rest }) hst hph hids

/-! ### The calls that end a step, when they complete and when they fault (R207, R231, R240) -/

theorem finish_assertHold_calm {s : State} (h : s.calm) (g : State → State) :
    finish ((assertHold s).bind fun _ u => .ok () (g u)) = .next (g { s with
      pins := ⟨s.pins.sel, s.pins.sck, s.pins.mosi, .asserted⟩, trace := s.trace ++ [.hold .asserted]
      env := envAfter 1 0 s }) := by
  rw [assertHold_calm h, bind_ok, finish_ok]

theorem finish_releaseHold_calm {s : State} (h : s.calm) (g : State → State) :
    finish ((releaseHold s).bind fun _ u => .ok () (g u)) = .next (g { s with
      pins := ⟨s.pins.sel, s.pins.sck, s.pins.mosi, .released⟩, trace := s.trace ++ [.hold .released]
      env := envAfter 1 0 s }) := by
  rw [releaseHold_calm h, bind_ok, finish_ok]

/-- The state after a step whose first transport call faults with the pins at `p` (R240, R241). -/
def State.callFailed (s : State) (p : Pins) (rest : List CallOutcome) : State :=
  { s with
    pins := p, env := { s.env with calls := rest }
    st := .failed, result := .fail, err := .transport, errstep := currentStep s, phase := .rest }

theorem finish_call_faults {β : Type} {s : State} {p : Pins} {rest : List CallOutcome}
    (h : s.env.calls = .faults p :: rest) (c : Call) (effect : State → State) (k : Unit → State → Res β) :
    finish ((transportCall c effect s).bind k) = .next (s.callFailed p rest) := by
  rw [transportCall_faults h, bind_raised, finish_raised, faultEntry_plain (.inl rfl)]
  rfl

/-! ### The identify step (R193) -/

/-- Settles O42: the operations of the three phases, the hold calls completing. -/
theorem identifyStepInOrder : Obligations.IdentifyStepInOrder := by
  intro s hrun hcalm
  rw [step_of_running hrun]
  refine ⟨fun hph => ?_, fun hph => ?_, fun hph => ?_⟩ <;> rw [advance, hph]
  · exact finish_assertHold_calm hcalm _
  · exact finish_releaseHold_calm hcalm _

/-! ### The erase (R196) -/

section EraseLoop

variable {s : State} {n : Nat} (hcount : eraseCount s.dev = some n)
include hcount

theorem eraseNext_inside (h : s.estep < n) :
    eraseNext s = exec (eraseCmd s.dev s.estep) { s with phase := .pollStart .erase } := by
  simp only [eraseNext, hcount, if_pos h]

theorem eraseNext_past (h : n ≤ s.estep) :
    eraseNext s = finish ((releaseHold s).bind fun _ s =>
      .ok () { s with st := .programming, page := 0, phase := .fetch }) := by
  simp only [eraseNext, hcount, if_neg (Nat.not_lt.2 h)]

end EraseLoop

/-- Settles O45: the assertion of hold, and the two branches of the loop's head. -/
theorem eraseLoopInOrder : Obligations.EraseLoopInOrder := by
  intro s n hrun hcalm hcount
  rw [step_of_running hrun]
  refine ⟨fun hph => ?_, fun hph hlt => ?_, fun hph hle => ?_⟩ <;> rw [advance, hph]
  · exact finish_assertHold_calm hcalm _
  · exact eraseNext_inside hcount hlt
  · exact (eraseNext_past hcount hle).trans (finish_releaseHold_calm hcalm _)

/-! ### The fetch (R203, R204, R209, R212, R234) -/

theorem recordAdmitted_iff (bytes : List Byte) (rest : List SourceItem) :
    recordAdmitted bytes rest = true ↔ 1 ≤ bytes.length ∧ bytes.length ≤ 264
      ∧ (bytes.length = 264 ∨ ∀ next rest', rest ≠ .record next :: rest') := by
  simp only [recordAdmitted, Bool.and_eq_true, Bool.or_eq_true, decide_eq_true_eq, and_assoc]
  refine and_congr_right fun _ => and_congr_right fun _ => or_congr_right ?_
  cases rest with
  | nil => simp
  | cons item rest => cases item <;> simp

theorem fetch_record {s : State} {bytes : List Byte} {rest : List SourceItem}
    (himage : s.env.image = .record bytes :: rest) (hpage : s.page ≤ 1023) :
    fetch s = if recordAdmitted bytes rest then
      .next { s with record := some (padRecord bytes), env.image := rest, phase := .pageHold }
    else .refused .badRecord := by
  simp only [fetch, himage, if_neg (Nat.not_lt.2 hpage)]

theorem fetch_pastLastPage {s : State} {bytes : List Byte} {rest : List SourceItem}
    (himage : s.env.image = .record bytes :: rest) (hpage : 1023 < s.page) : fetch s = .refused .tooManyRecords := by
  simp only [fetch, himage, if_pos hpage]

theorem fetch_readError {s : State} {rest : List SourceItem} (himage : s.env.image = .readError :: rest) :
    fetch s = .next (faultEntry (.source (.page s.page)) { s with env.image := rest }) := by
  simp only [fetch, himage]

theorem fetch_atEnd {s : State} (h : sourceAtEnd s.env.image = true) :
    fetch s = .next (endRun { s with env.image := s.env.image.tail }) := by
  cases himage : s.env.image with
  | nil =>
    have hself : ({ s with env.image := [] } : State) = s := by rw [← himage]
    simp only [fetch, himage, List.tail_nil, hself]
  | cons item rest =>
    rw [himage] at h
    cases item with
    | finished => simp only [fetch, himage, List.tail_cons]
    | readError | record _ => cases h

/-- Settles O50: an item by item reading of the source; a record is tested against R209 and then against R203. -/
theorem fetchTakesTheNextRecord : Obligations.FetchTakesTheNextRecord := by
  intro s hrun hph
  have hstep : step s = fetch s := by rw [step_of_running hrun, advance, hph]
  rw [hstep]
  refine ⟨fun bytes rest himage hpage hpos hle hlast => ?_, fun bytes rest himage hpage hbad => ?_,
    fun bytes rest himage hpage => fetch_pastLastPage himage hpage, fun rest himage hst hhold => ?_, fun hend => ?_⟩
  · rw [fetch_record himage hpage, if_pos ((recordAdmitted_iff bytes rest).2 ⟨hpos, hle, hlast⟩)]
    rfl
  · have hrefused : ¬ recordAdmitted bytes rest = true := by
      rw [recordAdmitted_iff]
      rintro ⟨hpos, hle, hlast⟩
      rcases hbad with hzero | hlong | ⟨hshort, next, rest', hnext⟩
      · omega
      · omega
      · exact hlast.elim (by omega) fun hno => hno next rest' hnext
    rw [fetch_record himage hpage, if_neg hrefused]
  · have hcurrent : currentStep s = .page s.page := by rw [currentStep, hst]
    rw [fetch_readError himage, faultEntry_plain (s := { s with env.image := rest }) (.inr hhold), ← hcurrent]
    rfl
  · rw [fetch_atEnd hend]
    rfl

/-! ### The page step (R205, R207) -/

/-- The operation of the phase `pageBurst`, the record being in its register. -/
theorem advance_pageBurst {s : State} {record : List Byte} (hph : s.phase = .pageBurst)
    (hrecord : s.record = some record) :
    advance s = finish ((writePage s.page record s).bind fun _ u => .ok () { u with phase := .pollStart .write }) := by
  rw [advance, hph]
  simp only [hrecord, readReg, bind_ok]

/-- Settles O51: the hold calls and the burst of the record, each completing. -/
theorem pageStepInOrder : Obligations.PageStepInOrder := by
  intro s hrun hcalm
  rw [step_of_running hrun]
  refine ⟨fun hph => ?_, fun record hph hrecord hlen => ?_, fun hph => ?_⟩
  · rw [advance, hph]
    exact finish_assertHold_calm hcalm _
  · have hburst := writePage_calm (p := s.page) hcalm (pinsAdmitted_of_wf hrun.1) hlen (bufCap_of_wf hrun.1)
    exact ⟨_, hburst, by rw [advance_pageBurst hph hrecord, hburst, bind_ok, finish_ok]⟩
  · rw [advance, hph]
    exact finish_releaseHold_calm hcalm _

/-! ### A transport fault in a run's own calls (R116, R215, R231, R240) -/

/-- The one call of the page burst faults: the assembled stream stays in the buffer (log entry 32). -/
theorem finish_writePage_faults {s : State} {p : Pins} {rest : List CallOutcome} {record : List Byte}
    (hcfg : s.cfg.wf = true) (hlen : record.length = 264) (h : s.env.calls = .faults p :: rest)
    (k : Unit → State → Res Unit) :
    finish ((writePage s.page record s).bind k) = .next { s.callFailed p rest with
      buf := s.buf.store 0 (stored s.cfg (pageBurst s.cfg s.page record)), blen := 4368 } := by
  rw [writePage_eq_write (pinsAdmitted_of_wf hcfg) hlen (bufCap_of_wf hcfg), bind_assoc]
  exact finish_call_faults (s := { s with
    buf := s.buf.store 0 (stored s.cfg (pageBurst s.cfg s.page record)), blen := 4368 }) h _ _ _

/-- Settles O59: in each of these phases the faulted call is the first of the step, and fault entry for it makes no
call. -/
theorem transportFaultInARunStepEndsTheRun : Obligations.TransportFaultInARunStepEndsTheRun := by
  intro s p rest hrun hcalls
  rw [step_of_running hrun]
  refine ⟨fun hph => ?_, fun n hph hcount hle => ?_, fun record hph hrecord hlen => ?_⟩
  · rcases hph with hph | hph | hph | hph | hph <;> rw [advance, hph] <;> exact finish_call_faults hcalls _ _ _
  · rw [advance, hph]
    exact (eraseNext_past hcount hle).trans (finish_call_faults hcalls _ _ _)
  · refine ⟨_, assemblePageBurst_ok hlen (bufCap_of_wf hrun.1), ?_⟩
    rw [advance_pageBurst hph hrecord]
    exact finish_writePage_faults hrun.1 hlen hcalls _

/-! ### The writes that an orchestrator state allows (R194, R208) -/

/-- No erase burst before the identity has matched, and no page burst before the erase is over (R161, R148). -/
def lengthFits (st : RunState) (n : Nat) : Prop :=
  (st = .identifying → n ≤ 16) ∧ (st = .erasing → n ≤ 80)

theorem lengthFits_mono {st : RunState} {m n : Nat} (h : lengthFits st n) (hmn : m ≤ n) : lengthFits st m :=
  ⟨fun hst => hmn.trans (h.1 hst), fun hst => hmn.trans (h.2 hst)⟩

theorem lengthFits_frame (st : RunState) : lengthFits st 16 :=
  ⟨fun _ => by decide, fun _ => by decide⟩

/-- A write of any length, outside the two states that bound it. -/
theorem lengthFits_of_ne {st : RunState} (hi : st ≠ .identifying) (he : st ≠ .erasing) (n : Nat) : lengthFits st n :=
  ⟨fun hst => absurd hst hi, fun hst => absurd hst he⟩

/-- The trace has only grown, and each new write is of a length that the state at the start allows. -/
def Appends (s t : State) : Prop :=
  ∃ evs, t.trace = s.trace ++ evs ∧ ∀ lvs, .write lvs ∈ evs → lengthFits s.st lvs.length

theorem appends_nothing {s t : State} (h : t.trace = s.trace) : Appends s t :=
  ⟨[], by rw [h, List.append_nil], nofun⟩

theorem appends_event {s t : State} {ev : Event} (h : t.trace = s.trace ++ [ev])
    (hev : ∀ lvs, ev = .write lvs → lengthFits s.st lvs.length) : Appends s t :=
  ⟨[ev], h, fun lvs hmem => hev lvs (List.mem_singleton.1 hmem).symm⟩

theorem appends_trans {s t u : State} (h1 : Appends s t) (hst : t.st = s.st) (h2 : Appends t u) : Appends s u := by
  obtain ⟨xs, hxs, hfitsx⟩ := h1
  obtain ⟨ys, hys, hfitsy⟩ := h2
  refine ⟨xs ++ ys, by rw [hys, hxs, List.append_assoc], fun lvs hmem => ?_⟩
  rcases List.mem_append.1 hmem with hx | hy
  · exact hfitsx lvs hx
  · exact hst ▸ hfitsy lvs hy

/-! ### What an operation below the orchestrator records and raises (R230, R240) -/

/-- The run is in the step it was in (R240), and the trace has grown by what that step allows. -/
structure SameStep (s t : State) : Prop where
  st : t.st = s.st
  estep : t.estep = s.estep
  page : t.page = s.page
  trace : Appends s t

/-- A state that differs in none of these registers. -/
theorem sameStep_of_eq {s t : State} (hst : t.st = s.st) (hestep : t.estep = s.estep) (hpage : t.page = s.page)
    (htrace : t.trace = s.trace) : SameStep s t :=
  ⟨hst, hestep, hpage, appends_nothing htrace⟩

theorem SameStep.trans {s t u : State} (h1 : SameStep s t) (h2 : SameStep t u) : SameStep s u :=
  ⟨h2.st.trans h1.st, h2.estep.trans h1.estep, h2.page.trans h1.page, appends_trans h1.trace h1.st h2.trace⟩

theorem SameStep.currentStep_eq {s t : State} (h : SameStep s t) : currentStep t = currentStep s := by
  simp only [currentStep, h.st, h.estep, h.page]

/-- However the operation ends, the run is in the same step; a raise is one of the two faults of the layers below the
orchestrator (R231, R235); a reset gives the state after reset. -/
def Res.InStep {α : Type} (s : State) (r : Res α) : Prop :=
  r.Sat (fun _ t => SameStep s t) (fun f t => SameStep s t ∧ (f.kind = .transport ∨ f.kind = .streamLength))
    (fun t => t = State.resetOf t.cfg t.env)

theorem InStep_after {α : Type} {s t : State} {r : Res α} (h : r.InStep t) (ht : SameStep s t) : r.InStep s :=
  Sat_imp h (fun _ _ hu => ht.trans hu) (fun _ _ ⟨hu, hkind⟩ => ⟨ht.trans hu, hkind⟩) fun _ hreset => hreset

theorem InStep_bind {α β : Type} {s : State} {r : Res α} {k : α → State → Res β} (h : r.InStep s)
    (hk : ∀ a t, (k a t).InStep t) : (r.bind k).InStep s :=
  Sat_bind h fun a t ht => InStep_after (hk a t) ht

theorem InStep_ok {α : Type} {s t : State} (a : α) (h : SameStep s t) : (Res.ok a t).InStep s := h

theorem InStep_call {c : Call} {effect : State → State} {s : State} (h : SameStep s (effect (dropCalls 1 s))) :
    (transportCall c effect s).InStep s := by
  rcases transportCall_cases c effect s with hc | ⟨p, hc⟩ | hc <;> rw [hc]
  · exact h
  · exact ⟨sameStep_of_eq rfl rfl rfl rfl, .inl rfl⟩
  · exact rfl

theorem InStep_select (sel : Selector) (s : State) : (select sel s).InStep s :=
  InStep_call ⟨rfl, rfl, rfl, appends_event (ev := .select sel) rfl nofun⟩

theorem InStep_write {lvs : List LineVector} {s : State} (h : lengthFits s.st lvs.length) : (write lvs s).InStep s := by
  obtain ⟨p, -, hdrive⟩ := driveAll_pins (dropCalls 1 s) lvs
  refine InStep_call ?_
  simp only [hdrive]
  refine ⟨rfl, rfl, rfl, appends_event (ev := .write lvs) rfl ?_⟩
  rintro _ ⟨rfl⟩
  exact h

theorem InStep_readPins (s : State) : (readPins s).InStep s := by
  rcases readPins_cases s with ⟨m, h⟩ | ⟨p, h⟩ | h <;> rw [h]
  · exact ⟨rfl, rfl, rfl, appends_event (ev := .sample m) rfl nofun⟩
  · exact ⟨sameStep_of_eq rfl rfl rfl rfl, .inl rfl⟩
  · exact rfl

theorem InStep_decodeBits (sel : Selector) (n : Nat) (acc : Byte) (s : State) : (decodeBits sel n acc s).InStep s := by
  induction n generalizing acc s with
  | zero => exact InStep_ok acc (sameStep_of_eq rfl rfl rfl rfl)
  | succ n ih =>
    have hpulse : ∀ st, lengthFits st 2 := fun st => lengthFits_mono (lengthFits_frame st) (by decide)
    exact InStep_bind (InStep_readPins s) fun m t => InStep_after
      (InStep_bind (InStep_write (hpulse _)) fun _ u => ih _ u) (sameStep_of_eq rfl rfl rfl rfl)

theorem InStep_decodeMany (sel : Selector) (n : Nat) (s : State) : (decodeMany sel n s).InStep s := by
  induction n generalizing s with
  | zero => exact InStep_ok [] (sameStep_of_eq rfl rfl rfl rfl)
  | succ n ih =>
    have hone : (decodeOne sel s).InStep s :=
      InStep_after (InStep_decodeBits sel 8 0#8 _) (sameStep_of_eq rfl rfl rfl rfl)
    exact InStep_bind hone fun b t => InStep_bind (ih t) fun bs u => InStep_ok _ (sameStep_of_eq rfl rfl rfl rfl)

theorem InStep_decodeBytes (sel : Selector) (n : Nat) (s : State) : (decodeBytes sel n s).InStep s :=
  InStep_bind (InStep_select sel s) fun _ t => InStep_bind (InStep_decodeMany sel n t) fun bs u =>
    InStep_bind (InStep_select _ u) fun _ _ => InStep_ok bs (sameStep_of_eq rfl rfl rfl rfl)

/-- `assemble` in full: besides the step, the offset it answers is the length of the stream (R141). -/
theorem Sat_assemble (bytes : List Byte) (off : Nat) (sel : Selector) (s : State) :
    (assemble bytes off sel s).Sat
      (fun next t => SameStep s t ∧ next = off + 16 * bytes.length ∧ t.blen = off + 16 * bytes.length)
      (fun f t => SameStep s t ∧ (f.kind = .transport ∨ f.kind = .streamLength))
      (fun t => t = State.resetOf t.cfg t.env) := by
  by_cases hcheck : off % 16 = 0 ∧ off + 16 * bytes.length + 1 ≤ s.cfg.bufCap
  · rw [assemble_ok hcheck.1 hcheck.2]
    exact ⟨sameStep_of_eq rfl rfl rfl rfl, rfl, rfl⟩
  · rw [assemble_raised hcheck]
    exact ⟨sameStep_of_eq rfl rfl rfl rfl, .inr rfl⟩

theorem InStep_assemble (bytes : List Byte) (off : Nat) (sel : Selector) (s : State) :
    (assemble bytes off sel s).InStep s :=
  Sat_imp (Sat_assemble bytes off sel s) (fun _ _ ⟨ht, _⟩ => ht) (fun _ _ h => h) fun _ h => h

theorem run_length_le {m : Memory} {off n : Nat} {vs : List GpioVector} (h : m.run off n = some vs) :
    vs.length ≤ n := by
  unfold Memory.run at h
  split at h
  · cases h
    rw [List.length_map]
    exact List.length_take_le _ _
  · cases h

theorem bufferedStream_length_le {s : State} {lvs : List LineVector} (h : bufferedStream s = some lvs) :
    lvs.length ≤ s.blen := by
  obtain ⟨-, hrun⟩ := bufferedStream_eq_some h
  simpa only [List.length_map] using run_length_le hrun

/-- A transmission is one write of `blen` vectors (R147). -/
theorem InStep_transmit {s : State} (h : lengthFits s.st s.blen) : (transmit s).InStep s := by
  unfold transmit
  cases hstream : bufferedStream s with
  | none => trivial
  | some lvs =>
    exact InStep_bind (InStep_write (lengthFits_mono h (bufferedStream_length_le hstream))) fun _ _ =>
      InStep_ok () (sameStep_of_eq rfl rfl rfl rfl)

/-- A write transaction transmits the command and an idle pulse (R161). -/
theorem InStep_writeTxn {bytes : List Byte} {s : State} (h : lengthFits s.st (16 * (bytes.length + 1))) :
    (writeTxn bytes s).InStep s := by
  refine Sat_bind (Sat_assemble bytes 0 _ s) fun off t ⟨ht, hoff, _⟩ => InStep_after ?_ ht
  refine Sat_bind (Sat_assemble _ off _ t) fun _ u ⟨hu, _, hblen⟩ => InStep_after (InStep_transmit ?_) hu
  rw [hu.st, ht.st, hblen, hoff, List.length_singleton]
  exact lengthFits_mono h (by omega)

/-- A read transaction of one byte transmits its frame (R162). -/
theorem InStep_readTxn (b : Byte) (n : Nat) (s : State) : (readTxn [b] n s).InStep s := by
  refine Sat_bind (Sat_assemble [b] 0 _ s) fun _ t ⟨ht, _, hblen⟩ => InStep_after ?_ ht
  refine InStep_bind (InStep_transmit ?_) fun _ u => InStep_decodeBytes _ n u
  rw [hblen]
  exact lengthFits_frame _

theorem InStep_assemblePageBurst (p : Nat) (record : List Byte) (s : State) :
    (assemblePageBurst p record s).InStep s :=
  InStep_bind (InStep_assemble _ _ _ s) fun _ t => InStep_bind (InStep_assemble _ _ _ t) fun _ u =>
    InStep_bind (InStep_assemble _ _ _ u) fun _ v => InStep_bind (InStep_assemble _ _ _ v) fun off w => by
      split
      · exact InStep_ok off (sameStep_of_eq rfl rfl rfl rfl)
      · exact ⟨sameStep_of_eq rfl rfl rfl rfl, .inr rfl⟩

/-- The page burst is longer than any other write, so it is only for the states that do not bound one (R173). -/
theorem InStep_writePage {p : Nat} {record : List Byte} {s : State} (h : ∀ n, lengthFits s.st n) :
    (writePage p record s).InStep s :=
  Sat_bind (InStep_assemblePageBurst p record s) fun _ t ht =>
    InStep_after (InStep_transmit (by rw [ht.st]; exact h _)) ht

/-! ### Fault entry (R240) -/

/-- What fault entry leaves when no reset comes before its clean-up call. -/
structure Fails (f : EngineFault) (s t : State) : Prop where
  st : t.st = .failed
  result : t.result = .fail
  err : t.err = f.kind
  errstep : t.errstep = currentStep s
  trace : Appends s t

theorem faultEntry_fails (f : EngineFault) (s : State) :
    Fails f s (faultEntry f s) ∨ faultEntry f s = State.resetOf (faultEntry f s).cfg (faultEntry f s).env := by
  rcases faultEntry_cases f s with ⟨u, hu, rfl | ⟨-, -, rfl | ⟨level, rfl⟩⟩⟩ | ⟨hu, -⟩ <;> rw [hu]
  · exact .inl ⟨rfl, rfl, rfl, rfl, appends_nothing rfl⟩
  · exact .inl ⟨rfl, rfl, rfl, rfl, appends_event (ev := .hold .released) rfl nofun⟩
  · exact .inl ⟨rfl, rfl, rfl, rfl, appends_nothing rfl⟩
  · exact .inr rfl

/-! ### What an operation of the pseudocode does to the orchestrator state (R215) -/

/-- Where an error of each kind can arise (R231 to R236): the layers below the orchestrator raise the other two. -/
def ErrArises (s : State) : ErrKind → Prop
  | .identity => s.st = .identifying
    ∧ ∃ v, s.ident = some v ∧ v.setWidth 16 ≠ s.cfg.idSmall ∧ v.setWidth 16 ≠ s.cfg.idLarge
  | .pollTimeout => s.st = .erasing ∧ s.attempts = s.cfg.eraseBudget
    ∨ s.st = .programming ∧ s.attempts = s.cfg.writeBudget
  | .source => s.st = .programming ∧ ∃ rest, s.env.image = .readError :: rest
  | .transport => True
  | .streamLength => True
  | .none => True

theorem errArises_below {s : State} {k : ErrKind} (h : k = .transport ∨ k = .streamLength) : ErrArises s k := by
  rcases h with rfl | rfl <;> trivial

/-- The ways an operation of the pseudocode can have a next state, as the orchestrator state and the trace see them: the
rows of R215 that a run takes by itself, fault entry, and a reset between two calls. -/
inductive Moves (s t : State) : Prop
  | stays (st : t.st = s.st) (trace : Appends s t)
  | identified (v : BitVec 32) (before : s.st = .identifying) (after : t.st = .erasing) (estep : t.estep = 0)
      (ident : s.ident = some v)
      (device : v.setWidth 16 = s.cfg.idSmall ∧ t.dev = .small ∨ v.setWidth 16 = s.cfg.idLarge ∧ t.dev = .large)
      (trace : Appends s t)
  | erased (before : s.st = .erasing) (after : t.st = .programming) (last : eraseCount s.dev = some s.estep)
      (page : t.page = 0) (trace : Appends s t)
  | finished (before : s.st = .programming) (after : t.st = .idle) (result : t.result = .ok)
      (atEnd : sourceAtEnd s.env.image = true) (trace : Appends s t)
  | fault (f : EngineFault) (u : State) (same : SameStep s u) (arises : ErrArises s f.kind) (eq : t = faultEntry f u)
  | reset (eq : t = State.resetOf t.cfg t.env)

theorem moves_of_inStep {α : Type} {s t : State} {r : Res α} (h : finish r = .next t) (hr : r.InStep s) :
    Moves s t := by
  rcases finish_next_of_Sat hr h with ⟨-, ht⟩ | ⟨f, u, ⟨hu, hkind⟩, rfl⟩ | ht
  · exact .stays ht.st ht.trace
  · exact .fault f u hu (errArises_below hkind) rfl
  · exact .reset ht

/-- A step that is one transport call and an update: only the state of the completed call is left to look at. -/
theorem moves_of_call {c : Call} {effect g : State → State} {s t : State}
    (h : finish ((transportCall c effect s).bind fun _ u => .ok () (g u)) = .next t)
    (hdone : Moves s (g (effect (dropCalls 1 s)))) : Moves s t := by
  rcases finish_call_cases h with rfl | ⟨p, rfl⟩ | rfl
  · exact hdone
  · exact .fault (.transport c) { dropCalls 1 s with pins := p } (sameStep_of_eq rfl rfl rfl rfl) trivial rfl
  · exact .reset rfl

/-- The longest write of an instruction (R161, R162): a write transaction, or one frame. -/
def longestWrite (i : Instr) : Nat :=
  if isWriteCommand i then 16 * ((encode i).length + 1) else 16

theorem longestWrite_eraseCmd (d : Device) (j : Nat) : longestWrite (eraseCmd d j) = 80 := by
  unfold eraseCmd
  split
  · rfl
  · split <;> rfl

/-- An instruction begun in the step of `s` moves the orchestrator state only by fault entry or a reset. -/
theorem moves_exec {i : Instr} {s u t : State} (h : exec i u = .next t) (hu : SameStep s u)
    (hfits : lengthFits s.st (longestWrite i)) : Moves s t := by
  rw [← hu.st] at hfits
  have hwrite : ∀ lv, (write [lv] u).InStep u := fun lv =>
    InStep_write (lengthFits_mono (lengthFits_frame u.st) (by rw [List.length_singleton]; decide))
  cases i with
  | identify =>
    exact moves_of_inStep h (InStep_after (InStep_bind (InStep_readTxn 0x9F#8 4 u) fun _ _ =>
      InStep_ok () (sameStep_of_eq rfl rfl rfl rfl)) hu)
  | readStatus =>
    exact moves_of_inStep h (InStep_after (InStep_bind (InStep_readTxn 0xD7#8 1 u) fun _ _ =>
      InStep_ok () (sameStep_of_eq rfl rfl rfl rfl)) hu)
  | eraseS0a | eraseS0b | eraseSn _ | loadBuf _ | commit _ =>
    exact moves_of_inStep h (InStep_after (InStep_writeTxn hfits) hu)
  | gpioVector lv hold miso => exact moves_of_inStep h (InStep_after (hwrite lv) hu)
  | sentinel | byteFrame _ _ => exact moves_of_inStep h (InStep_after (InStep_assemble _ _ _ u) hu)

/-! ### The operations of the pseudocode (R193, R196, R205, R220) -/

theorem moves_portOpen {s t : State} (h : portOpen s = .next t) : Moves s t := by
  unfold portOpen at h
  split at h
  · cases h
    exact .stays rfl (appends_nothing rfl)
  · split at h
    · exact moves_of_call h (.stays rfl (appends_event (ev := .hold .asserted) rfl nofun))
    · cases h

theorem moves_portCommand {s t : State} (hidle : s.st = .idle) (h : portCommand s = .next t) : Moves s t := by
  unfold portCommand at h
  split at h
  · exact moves_exec h (sameStep_of_eq rfl rfl rfl rfl)
      (lengthFits_of_ne (by rw [hidle]; nofun) (by rw [hidle]; nofun) _)
  · cases h

/-- The classification, by the 16 bits it compares (R170). -/
theorem classifyIdent_cases (c : Config) (v : BitVec 32) :
    v.setWidth 16 = c.idSmall ∧ classifyIdent c v = .small ∨ v.setWidth 16 = c.idLarge ∧ classifyIdent c v = .large
      ∨ v.setWidth 16 ≠ c.idSmall ∧ v.setWidth 16 ≠ c.idLarge ∧ classifyIdent c v = .none := by
  rw [classifyIdent, identLow_eq_setWidth]
  split
  · rename_i hsmall
    exact .inl ⟨hsmall, rfl⟩
  · rename_i hsmall
    split
    · rename_i hlarge
      exact .inr (.inl ⟨hlarge, rfl⟩)
    · rename_i hlarge
      exact .inr (.inr ⟨hsmall, hlarge, rfl⟩)

theorem moves_classify {s t : State} (hst : s.st = .identifying) (h : finish (classify s) = .next t) : Moves s t := by
  cases hident : s.ident with
  | none => rw [classify, hident] at h; cases h
  | some v =>
    rcases classifyIdent_cases s.cfg v with ⟨hv, hdev⟩ | ⟨hv, hdev⟩ | ⟨hsmall, hlarge, hdev⟩
    · rw [classify_small hident hdev] at h
      cases h
      exact .identified v hst rfl rfl hident (.inl ⟨hv, rfl⟩) (appends_nothing rfl)
    · rw [classify_large hident hdev] at h
      cases h
      exact .identified v hst rfl rfl hident (.inr ⟨hv, rfl⟩) (appends_nothing rfl)
    · rw [classify_mismatch hident hdev] at h
      cases h
      exact .fault (.identity v) { s with dev := .none } (sameStep_of_eq rfl rfl rfl rfl)
        ⟨hst, v, hident, hsmall, hlarge⟩ rfl

theorem moves_eraseNext {s t : State} (hs : s.engineInv) (hst : s.st = .erasing) (h : eraseNext s = .next t) :
    Moves s t := by
  obtain ⟨-, hdev, -⟩ := registersInv_of_engineInv hs
  cases hcount : eraseCount s.dev with
  | none => simp only [eraseNext, hcount] at h; cases h
  | some n =>
    rcases Nat.lt_or_ge s.estep n with hlt | hge
    · rw [eraseNext_inside hcount hlt] at h
      refine moves_exec h (sameStep_of_eq rfl rfl rfl rfl) ?_
      rw [hst, longestWrite_eraseCmd]
      exact ⟨nofun, fun _ => Nat.le_refl 80⟩
    · rw [eraseNext_past hcount hge] at h
      have hle : s.estep ≤ n := by simpa [deviceFits, hst, hcount] using hdev
      have hlast : eraseCount s.dev = some s.estep := by rw [hcount, Nat.le_antisymm hle hge]
      exact moves_of_call h (.erased hst rfl hlast rfl (appends_event (ev := .hold .released) rfl nofun))

theorem moves_pollAttempt {k : PollKind} {s t : State} (hfits : phaseFits (.pollAttempt k) s.st = true)
    (h : pollAttempt k s = .next t) : Moves s t := by
  unfold pollAttempt at h
  split at h
  · rename_i hbudget
    cases h
    refine .fault (.pollTimeout (pollStep s k)) s (sameStep_of_eq rfl rfl rfl rfl) ?_ rfl
    cases k with
    | erase => exact .inl ⟨of_decide_eq_true hfits, hbudget⟩
    | write => exact .inr ⟨of_decide_eq_true hfits, hbudget⟩
  · exact moves_exec (i := .readStatus) h (sameStep_of_eq rfl rfl rfl rfl) (lengthFits_frame s.st)

theorem moves_pollTest {k : PollKind} {s t : State} (h : finish (pollTest k s) = .next t) : Moves s t := by
  unfold pollTest at h
  cases hstatus : s.status with
  | none => rw [hstatus] at h; cases h
  | some status =>
    rw [hstatus] at h
    simp only [readReg, bind_ok] at h
    split at h <;> cases h
    · cases k <;> exact .stays rfl (appends_nothing rfl)
    · exact .stays rfl (appends_nothing rfl)

theorem moves_fetch {s t : State} (hst : s.st = .programming) (h : fetch s = .next t) : Moves s t := by
  have hfinish : sourceAtEnd s.env.image = true → Moves s t := fun hend => by
    rw [fetch_atEnd hend] at h
    cases h
    exact .finished hst rfl rfl hend (appends_nothing rfl)
  cases himage : s.env.image with
  | nil => exact hfinish (by rw [himage]; rfl)
  | cons item rest =>
    cases item with
    | finished => exact hfinish (by rw [himage]; rfl)
    | readError =>
      rw [fetch_readError himage] at h
      cases h
      exact .fault (.source (.page s.page)) { s with env.image := rest } (sameStep_of_eq rfl rfl rfl rfl)
        ⟨hst, rest, himage⟩ rfl
    | record bytes =>
      rcases Nat.lt_or_ge 1023 s.page with hpast | hpage
      · rw [fetch_pastLastPage himage hpast] at h
        cases h
      · rw [fetch_record himage hpage] at h
        split at h <;> cases h
        exact .stays rfl (appends_nothing rfl)

theorem moves_pageBurst {s t : State} (hst : s.st = .programming)
    (h : finish ((readReg .record s.record s).bind fun record u =>
      (writePage u.page record u).bind fun _ u => .ok () { u with phase := .pollStart .write }) = .next t) :
    Moves s t := by
  have hfits : ∀ n, lengthFits s.st n := lengthFits_of_ne (by rw [hst]; nofun) (by rw [hst]; nofun)
  cases hrecord : s.record with
  | none => rw [hrecord] at h; cases h
  | some record =>
    rw [hrecord] at h
    simp only [readReg, bind_ok] at h
    exact moves_of_inStep h (InStep_bind (InStep_writePage hfits) fun _ _ =>
      InStep_ok () (sameStep_of_eq rfl rfl rfl rfl))

/-- Each operation of the pseudocode, phase by phase; the invariant gives the orchestrator state of each phase. -/
theorem moves_of_advance {s t : State} (hs : s.engineInv) (hne : s.st ≠ .failed) (h : advance s = .next t) :
    Moves s t := by
  unfold advance at h
  cases hph : s.phase <;> rw [hph] at h <;> obtain ⟨-, hfits, -⟩ := engineInv_atPhase hs hne hph
  case rest => exact moves_portOpen h
  case portCommand => exact moves_portCommand (of_decide_eq_true hfits) h
  case portDeselect => exact moves_of_call h (.stays rfl (appends_event (ev := .select .selIdle) rfl nofun))
  case portRelease => exact moves_of_call h (.stays rfl (appends_event (ev := .hold .released) rfl nofun))
  case identifyHold => exact moves_of_call h (.stays rfl (appends_event (ev := .hold .asserted) rfl nofun))
  case identifyCommand =>
    exact moves_exec (i := .identify) h (sameStep_of_eq rfl rfl rfl rfl) (lengthFits_frame s.st)
  case identifyRelease => exact moves_of_call h (.stays rfl (appends_event (ev := .hold .released) rfl nofun))
  case classify => exact moves_classify (of_decide_eq_true hfits) h
  case eraseHold => exact moves_of_call h (.stays rfl (appends_event (ev := .hold .asserted) rfl nofun))
  case eraseNext => exact moves_eraseNext hs (of_decide_eq_true hfits) h
  case pollStart k => cases h; exact .stays rfl (appends_nothing rfl)
  case pollAttempt k => exact moves_pollAttempt hfits h
  case pollTest k => exact moves_pollTest h
  case fetch => exact moves_fetch (of_decide_eq_true hfits) h
  case pageHold => exact moves_of_call h (.stays rfl (appends_event (ev := .hold .asserted) rfl nofun))
  case pageBurst => exact moves_pageBurst (of_decide_eq_true hfits) h
  case pageRelease => exact moves_of_call h (.stays rfl (appends_event (ev := .hold .released) rfl nofun))

/-! ### The step, and the table of R215 -/

/-- A step with a next state by what the host did before it, the entry used up. -/
theorem step_next_by_host {s t : State} (h : step s = .next t) :
    (∃ host, engineStep { s with env.host := host } = .next t)
      ∨ (∃ rest, s.env.host = .start :: rest ∧ start { s with env.host := rest } = .next t)
      ∨ ∃ rest, t = State.toReset { s with env.host := rest } := by
  obtain ⟨hp, -⟩ := step_next_cases h
  cases hhost : s.env.host with
  | nil =>
    have hself : engineStep { s with env.host := [] } = step s := by
      rw [with_host_self hhost]
      simp only [step, stepBody, hp, hhost, if_true]
    exact .inl ⟨[], hself.trans h⟩
  | cons event rest =>
    simp only [step, stepBody, hp, hhost, if_true] at h
    cases event with
    | quiet => exact .inl ⟨rest, h⟩
    | start => exact .inr (.inl ⟨rest, rfl, h⟩)
    | reset => cases h; exact .inr (.inr ⟨rest, rfl⟩)

theorem engineStep_cases {s t : State} (h : engineStep s = .next t) :
    t = s ∨ (s.st ≠ .failed ∧ advance s = .next t) := by
  unfold engineStep at h
  split at h
  · cases h
    exact .inl rfl
  · rename_i hne
    exact .inr ⟨hne, h⟩

theorem advance_rest_of_nil {s : State} (hph : s.phase = .rest) (hport : s.port = []) : advance s = .next s := by
  rw [advance, hph]
  exact if_pos hport

/-- Outside a run only a command handed in from outside moves the orchestrator state (log entries 1 and 9). -/
theorem port_in_use {s t : State} (hs : s.engineInv) (h : advance s = .next t) (hmoved : s.st ≠ t.st)
    (hidle : s.st = .idle) : s.port ≠ [] ∨ s.phase = .portDeselect ∨ s.phase = .portRelease := by
  obtain ⟨-, hfits, -⟩ := engineInv_atPhase hs (by rw [hidle]; nofun) rfl
  rw [hidle] at hfits
  cases hph : s.phase <;> rw [hph] at hfits
  case rest =>
    refine .inl fun hport => hmoved ?_
    rw [advance_rest_of_nil hph hport] at h
    cases h
    rfl
  case portCommand =>
    refine .inl fun hport => ?_
    rw [advance, hph] at h
    simp only [portCommand, hport, decode] at h
    cases h
  case portDeselect => exact .inr (.inl rfl)
  case portRelease => exact .inr (.inr rfl)
  case pollStart k | pollAttempt k | pollTest k => cases k <;> cases hfits
  all_goals cases hfits

/-- Settles O57: a start, a reset, or one row of the table for each way an operation of the pseudocode can move the
orchestrator state. -/
theorem stateTransitionsOfTheTable : Obligations.StateTransitionsOfTheTable := by
  intro s t hs h hmoved
  rcases step_next_by_host h with ⟨host, h⟩ | ⟨rest, hhost, h⟩ | ⟨rest, rfl⟩
  · rcases engineStep_cases h with rfl | ⟨hne, h⟩
    · exact absurd rfl hmoved
    · cases moves_of_advance (s := { s with env.host := host }) hs hne h with
      | stays st => exact absurd st.symm hmoved
      | identified v before after estep ident device => exact .inr (.inl ⟨before, after, estep, v, ident, device⟩)
      | erased before after last page => exact .inr (.inr (.inl ⟨before, after, last, page⟩))
      | finished before after result atEnd => exact .inr (.inr (.inr (.inl ⟨before, after, result, atEnd⟩)))
      | fault f u same arises eq =>
        have hfails := faultEntry_fails f u
        rw [← eq] at hfails
        rcases hfails with hfails | hreset
        · have herrstep : t.errstep = currentStep s := hfails.errstep.trans same.currentStep_eq
          have herr : t.err ≠ .none := by rw [hfails.err]; exact kind_ne_none f
          have hkind : ∀ k, t.err = k → ErrArises { s with env.host := host } k := by
            rintro _ rfl
            rw [hfails.err]
            exact arises
          exact .inr (.inr (.inr (.inr (.inl ⟨hne, hfails.st, hfails.result, herrstep, herr, hkind .identity,
            hkind .pollTimeout, hkind .source, port_in_use (s := { s with env.host := host }) hs h hmoved⟩))))
        · exact .inr (.inr (.inr (.inr (.inr hreset))))
      | reset eq => exact .inr (.inr (.inr (.inr (.inr eq))))
  · by_cases hrest : s.st = .idle ∧ s.phase = .rest
    · rw [start_at_rest (s := { s with env.host := rest }) hrest.1 hrest.2 (idsAdmitted_of_wf hs.1)] at h
      cases h
      exact .inl ⟨hrest.1, rfl, ⟨rest, hhost⟩, rfl, rfl, rfl, rfl, rfl, rfl, rfl, rfl⟩
    · rw [start_elsewhere (s := { s with env.host := rest }) hrest] at h
      cases h
      exact absurd rfl hmoved
  · exact .inr (.inr (.inr (.inr (.inr rfl))))

/-! ### What a step adds to the trace (R194, R208) -/

theorem appends_of_moves {s t : State} (h : Moves s t) : t = State.resetOf t.cfg t.env ∨ Appends s t := by
  cases h with
  | stays _ trace => exact .inr trace
  | identified _ _ _ _ _ _ trace => exact .inr trace
  | erased _ _ _ _ trace => exact .inr trace
  | finished _ _ _ _ trace => exact .inr trace
  | fault f u same _ eq =>
    rw [eq]
    exact (faultEntry_fails f u).symm.imp_right fun hfails => appends_trans same.trace same.st hfails.trace
  | reset eq => exact .inl eq

/-- Settles O58: a failed engine, an idle port and a start add nothing; every other operation adds what its orchestrator
state allows. -/
theorem noEraseBeforeIdentityNoPageBeforeErase : Obligations.NoEraseBeforeIdentityNoPageBeforeErase := by
  intro s t hs h
  have hnothing : t.trace = s.trace → ∃ evs, t.trace = s.trace ++ evs ∧ (s.st = .failed → evs = [])
      ∧ (s.phase = .rest → s.port = [] → evs = []) ∧ ∀ lvs, .write lvs ∈ evs → lengthFits s.st lvs.length :=
    fun htrace => ⟨[], by rw [htrace, List.append_nil], fun _ => rfl, fun _ _ => rfl, nofun⟩
  rcases step_next_by_host h with ⟨host, h⟩ | ⟨rest, -, h⟩ | ⟨rest, rfl⟩
  · rcases engineStep_cases h with rfl | ⟨hne, h⟩
    · exact .inr (hnothing rfl)
    · by_cases hquiet : s.phase = .rest ∧ s.port = []
      · rw [advance_rest_of_nil (s := { s with env.host := host }) hquiet.1 hquiet.2] at h
        cases h
        exact .inr (hnothing rfl)
      · refine (appends_of_moves (moves_of_advance (s := { s with env.host := host }) hs hne h)).imp_right ?_
        rintro ⟨evs, htrace, hwrites⟩
        exact ⟨evs, htrace, fun hfailed => absurd hfailed hne, fun hph hport => absurd ⟨hph, hport⟩ hquiet, hwrites⟩
  · rcases start_next_cases h with rfl | ⟨-, -, hsame⟩
    · exact .inr (hnothing rfl)
    · exact .inr (hnothing hsame.trace)
  · exact .inl rfl

end Sys2Proof.Machine
end

section
/-! SUPPORT. The poll (44_poll.md): one turn of the loop (R220, R239), the two steps of an attempt, several busy
attempts in a row, and how a poll ends, at the ready attempt or at its budget (R223). -/

namespace Sys2Proof.Machine

/-! ### One turn of the loop (R220, R239) -/

theorem advance_pollAttempt_inside {k : PollKind} {s : State} (hph : s.phase = .pollAttempt k)
    (h : s.attempts ≠ pollBudget s.cfg k) :
    advance s = exec .readStatus { s with attempts := s.attempts + 1, phase := .pollTest k } := by
  rw [advance, hph]
  exact if_neg h

theorem advance_pollAttempt_spent {k : PollKind} {s : State} (hph : s.phase = .pollAttempt k)
    (h : s.attempts = pollBudget s.cfg k) :
    advance s = .next (faultEntry (.pollTimeout (pollStep s k)) s) := by
  rw [advance, hph]
  exact if_pos h

/-- The ready test with a status byte to test: success, or the head of the loop again. -/
theorem advance_pollTest {k : PollKind} {s : State} {b : Byte} (hph : s.phase = .pollTest k)
    (hstatus : s.status = some b) :
    advance s = .next (if readyFlag b then afterPoll k s else { s with phase := .pollAttempt k }) := by
  rw [advance, hph]
  simp only [pollTest, hstatus, readReg, bind_ok]
  cases readyFlag b <;> rfl

/-- Settles O46: the counter's reset, an attempt within the budget, and the two branches of the ready test. -/
theorem pollTurn : Obligations.PollTurn := by
  intro s k hrun
  rw [step_of_running hrun]
  refine ⟨fun hph => ?_, advance_pollAttempt_inside, fun b hph hstatus hready => ?_, fun b hph hstatus hbusy => ?_⟩
  · rw [advance, hph]
  · rw [advance_pollTest hph hstatus, readyFlag, if_pos hready]
    cases k <;> rfl
  · rw [advance_pollTest hph hstatus, readyFlag, hbusy]
    rfl

/-! ### The bits that the attempts will read (R97) -/

/-- The data-in bit of the sample that comes after `i` others. -/
def upcomingBit (i : Nat) (s : State) : Bool :=
  dataIn s.cfg (nextSample (skipSamples i s.env)).1

theorem upcomingBits_getElem? {i n : Nat} (h : i < n) (s : State) :
    (upcomingBits n s)[i]? = some (upcomingBit i s) := by
  obtain ⟨m, rfl⟩ : ∃ m, n = i + (m + 1) := ⟨n - i - 1, by omega⟩
  rw [upcomingBits, upcomingSamples_add, List.getElem?_map,
    List.getElem?_append_right (upcomingSamples_length i s.env).le, upcomingSamples_length, Nat.sub_self]
  rfl

theorem upcomingBit_eq_of_getElem? {i n : Nat} {m : Bool} {s : State} (hi : i < n)
    (h : (upcomingBits n s)[i]? = some m) :
    upcomingBit i s = m :=
  Option.some.inj ((upcomingBits_getElem? hi s).symm.trans h)

/-! ### What attempts leave of the state -/

/-- `n` attempts of a poll, each of 19 calls and 8 samples, lie between two states; the phase is not spoken of. -/
structure Attempted (n : Nat) (s t : State) : Prop where
  cfg : t.cfg = s.cfg
  st : t.st = s.st
  estep : t.estep = s.estep
  attempts : t.attempts = s.attempts + n
  env : t.env = envAfter (19 * n) (8 * n) s

namespace Attempted

theorem refl (s : State) : Attempted 0 s s :=
  ⟨rfl, rfl, rfl, rfl, rfl⟩

variable {m n : Nat} {s t u : State}

theorem trans (h : Attempted m s t) (h' : Attempted n t u) : Attempted (m + n) s u where
  cfg := h'.cfg.trans h.cfg
  st := h'.st.trans h.st
  estep := h'.estep.trans h.estep
  attempts := by rw [h'.attempts, h.attempts, Nat.add_assoc]
  env := by rw [h'.env, envAfter_envAfter _ _ _ _ h.env, Nat.mul_add, Nat.mul_add]

theorem running (h : Attempted n s t) (hs : s.running) : t.running := by
  obtain ⟨hcfg, hhost, hst⟩ := hs
  refine ⟨h.cfg ▸ hcfg, ?_, h.st ▸ hst⟩
  rw [h.env]
  exact (skipSamples_host (8 * n) s.env).trans hhost

theorem calm (h : Attempted n s t) (hs : s.calm) : t.calm :=
  envAfter_calm hs _ _ t h.env

theorem upcomingBit (h : Attempted n s t) (i : Nat) : upcomingBit i t = Machine.upcomingBit (8 * n + i) s := by
  refine upcomingBit_eq_of_getElem? (Nat.lt_succ_self i) ?_
  rw [← upcomingBits_getElem? (n := 8 * n + (i + 1)) (by omega), upcomingBits_envAfter _ _ _ h.env h.cfg,
    List.getElem?_append_right (by rw [upcomingBits_length]; omega), upcomingBits_length, Nat.add_sub_cancel_left]

end Attempted

/-! ### Attempts (R220, R223) -/

/-- The attempt's own step: one `READ_STATUS`, whose ready flag is its first sample. -/
theorem step_attempt {k : PollKind} {s : State} (hrun : s.running) (hcalm : s.calm) (hph : s.phase = .pollAttempt k)
    (hbudget : s.attempts ≠ pollBudget s.cfg k) :
    ∃ t b, step s = .next t ∧ Attempted 1 s t ∧ t.phase = .pollTest k ∧ t.status = some b
      ∧ readyFlag b = upcomingBit 0 s := by
  obtain ⟨m, b, -, hready, -, -, -, hexec⟩ :=
    readStatusCompletes { s with attempts := s.attempts + 1, phase := .pollTest k } hcalm hrun.1
  exact ⟨_, b, (step_of_running hrun).trans ((advance_pollAttempt_inside hph hbudget).trans hexec),
    ⟨rfl, rfl, rfl, rfl, rfl⟩, rfl, rfl, (upcomingBit_eq_of_getElem? (by omega) hready).symm⟩

/-- One attempt and its ready test more, the budget not used up. -/
theorem run_nextAttempt {k : PollKind} {n : Nat} {s t : State} (hrun : s.running) (hcalm : s.calm)
    (hbudget : s.attempts + n < pollBudget s.cfg k) (hruns : core.run (2 * n) s = .next t) (hatt : Attempted n s t)
    (hph : t.phase = .pollAttempt k) :
    ∃ u, Attempted (n + 1) s u ∧ core.run (2 * (n + 1)) s
      = .next (if upcomingBit (8 * n) s then afterPoll k u else { u with phase := .pollAttempt k } : State) := by
  have hspare : t.attempts ≠ pollBudget t.cfg k := by rw [hatt.attempts, hatt.cfg]; omega
  obtain ⟨u, b, hattempt, hatt', hph', hstatus, hready⟩ :=
    step_attempt (hatt.running hrun) (hatt.calm hcalm) hph hspare
  have hatts := hatt.trans hatt'
  have htest := (step_of_running (hatts.running hrun)).trans (advance_pollTest hph' hstatus)
  rw [hready, hatt.upcomingBit, Nat.add_zero] at htest
  refine ⟨u, hatts, ?_⟩
  rw [Nat.mul_succ, run_add 2 hruns, run_next hattempt, run_next htest]
  rfl

/-- Busy attempts within the budget lead back to the head of the loop, two steps each. -/
theorem run_busyAttempts {k : PollKind} {s : State} (hrun : s.running) (hcalm : s.calm) (hph : s.phase = .pollAttempt k)
    (n : Nat) (hbudget : s.attempts + n ≤ pollBudget s.cfg k) (hbusy : ∀ j < n, upcomingBit (8 * j) s = false) :
    ∃ t : State, core.run (2 * n) s = .next t ∧ Attempted n s t ∧ t.phase = .pollAttempt k := by
  induction n with
  | zero => exact ⟨s, rfl, .refl s, hph⟩
  | succ n ih =>
    obtain ⟨t, hruns, hatt, hph'⟩ := ih (by omega) fun j hj => hbusy j (by omega)
    obtain ⟨u, ⟨hcfg, hst, hestep, hattempts, henv⟩, hruns'⟩ :=
      run_nextAttempt hrun hcalm (by omega) hruns hatt hph'
    rw [hbusy n (Nat.lt_succ_self n), if_neg Bool.false_ne_true] at hruns'
    exact ⟨_, hruns', ⟨hcfg, hst, hestep, hattempts, henv⟩, rfl⟩

/-! ### The two ends of a poll (R223) -/

/-- Settles O48: the busy attempts before, then the ready one. -/
theorem pollSucceedsAtTheReadyAttempt : Obligations.PollSucceedsAtTheReadyAttempt := by
  intro s kind k hrun hcalm hph hzero hpos hle hbusy hready
  obtain ⟨n, rfl⟩ : ∃ n, k = n + 1 := ⟨k - 1, by omega⟩
  obtain ⟨t, hruns, hatt, hph'⟩ := run_busyAttempts hrun hcalm hph n (by omega)
    fun j hj => upcomingBit_eq_of_getElem? (by omega) (hbusy j (by omega))
  obtain ⟨u, ⟨-, hst, hestep, hattempts, -⟩, hruns'⟩ := run_nextAttempt hrun hcalm (by omega) hruns hatt hph'
  have hbit : upcomingBit (8 * n) s = true := upcomingBit_eq_of_getElem? (by omega) hready
  rw [hbit, if_pos rfl] at hruns'
  rw [hzero, Nat.zero_add] at hattempts
  refine ⟨afterPoll kind u, hruns', ?_⟩
  cases kind with
  | erase => exact ⟨hattempts, hst, rfl, congrArg (· + 1) hestep⟩
  | write => exact ⟨hattempts, hst, rfl, hestep⟩

/-- Fault entry in a calm environment, whatever the level of hold: only its clean-up call depends on it (R240). -/
theorem faultEntry_calm_registers {f : EngineFault} {s : State} (hcalm : s.calm) (hf : f.kind ≠ .transport) :
    (faultEntry f s).st = .failed ∧ (faultEntry f s).err = f.kind ∧ (faultEntry f s).attempts = s.attempts
      ∧ (faultEntry f s).status = s.status := by
  cases hhold : s.pins.hold with
  | asserted => rw [faultEntry_calm hcalm hf hhold]; exact ⟨rfl, rfl, rfl, rfl⟩
  | released => rw [faultEntry_plain (.inr hhold)]; exact ⟨rfl, rfl, rfl, rfl⟩

/-- Settles O49: the whole budget is busy, and the counter's next test raises the timeout. -/
theorem pollFailsAfterExactlyTheBudget : Obligations.PollFailsAfterExactlyTheBudget := by
  intro s kind hrun hcalm hph hzero hbusy
  obtain ⟨t, hruns, hatt, hph'⟩ := run_busyAttempts hrun hcalm hph (pollBudget s.cfg kind) (by omega)
    fun j hj => upcomingBit_eq_of_getElem? (by omega) (hbusy j hj)
  have hspent : t.attempts = pollBudget t.cfg kind := by rw [hatt.attempts, hatt.cfg, hzero, Nat.zero_add]
  have hstep : step t = .next (faultEntry (.pollTimeout (pollStep t kind)) t) :=
    (step_of_running (hatt.running hrun)).trans (advance_pollAttempt_spent hph' hspent)
  obtain ⟨hst, herr, hattempts, hstatus⟩ :=
    faultEntry_calm_registers (f := .pollTimeout (pollStep t kind)) (hatt.calm hcalm) nofun
  refine ⟨_, by rw [run_add 1 hruns, run_next hstep]; rfl, hst, herr, ?_, fun hnone => hstatus.trans ?_⟩
  · rw [hattempts, hspent, hatt.cfg]
  · rw [hnone] at hruns
    cases hruns
    rfl

end Sys2Proof.Machine
end

section
/-! SUPPORT. The exceptions (60_exceptions.md): fault entry with and without its clean-up call, and with one that faults
(R240, R244), the numbers of the error kinds (R236), the failed state (R215, R243), and the timeout of a poll (R233). -/

namespace Sys2Proof.Machine

/-! ### Fault entry (R236, R240, R244) -/

/-- Settles O37: the clean-up call is made exactly when the fault is no transport fault and hold is asserted. -/
theorem faultEntryWritesFourRegisters : Obligations.FaultEntryWritesFourRegisters :=
  fun _ _ hcalm => ⟨faultEntry_calm hcalm, faultEntry_plain⟩

/-- Settles O38: the clean-up call takes the next outcome, a fault, of which only the level of hold stays. -/
theorem cleanUpFaultIsDropped : Obligations.CleanUpFaultIsDropped := by
  intro f s p rest hkind hhold hcalls
  rw [faultEntry, if_pos ⟨hkind, hhold⟩, nextOutcome_of_calls hcalls]
  rfl

/-- Settles O39: the table of R236, read off the kind of each fault. -/
theorem errorCodeNumbers : Obligations.ErrorCodeNumbers :=
  ⟨rfl, fun _ => rfl, fun _ => rfl, fun _ => rfl, fun _ => rfl, fun _ => rfl⟩

/-! ### The failed state (R215, R243) -/

theorem step_of_noHostEvent {s : State} (hp : s.cfg.pinsAdmitted = true) (h : s.env.host = []) :
    step s = engineStep s := by
  simp only [step, stepBody, hp, h, if_true]

theorem step_of_quietEvent {s : State} {rest : List HostEvent} (hp : s.cfg.pinsAdmitted = true)
    (h : s.env.host = .quiet :: rest) : step s = engineStep { s with env.host := rest } := by
  simp only [step, stepBody, hp, h, if_true]

theorem engineStep_failed {s : State} (h : s.st = .failed) : engineStep s = .next s :=
  if_pos h

theorem start_failed {s : State} (h : s.st = .failed) : start s = .next s :=
  start_elsewhere (not_and_of_not_left _ (by rw [h]; decide))

/-- Settles O40: neither the engine's own step nor a start does anything in `ST_FAILED`. -/
theorem failedIsTerminal : Obligations.FailedIsTerminal := by
  intro s hp hfailed
  refine ⟨fun hnone => (step_of_noHostEvent hp hnone).trans (engineStep_failed hfailed), ?_⟩
  rintro rest (hquiet | hstart)
  · exact (step_of_quietEvent hp hquiet).trans (engineStep_failed hfailed)
  · exact (step_of_start hp hstart).trans (start_failed hfailed)

/-! ### The timeout of a poll (R233, R240) -/

/-- The step in progress at a poll is the one its timeout names (R233, R240). -/
theorem currentStep_eq_pollStep {s : State} {k : PollKind} (h : phaseFits (.pollAttempt k) s.st = true) :
    currentStep s = pollStep s k := by
  cases k with
  | erase =>
    have hst : s.st = .erasing := of_decide_eq_true h
    rw [currentStep, hst, pollStep]
  | write =>
    have hst : s.st = .programming := of_decide_eq_true h
    rw [currentStep, hst, pollStep]

/-- Settles O47: the counter's test raises the timeout, whose fault entry releases hold. -/
theorem pollTimeoutEndsTheRun : Obligations.PollTimeoutEndsTheRun := by
  intro s k hrun hcalm hph hspent hfits hhold
  rw [hph] at hfits
  have hkind : (EngineFault.pollTimeout (pollStep s k)).kind ≠ .transport := nofun
  rw [step_of_running hrun, advance_pollAttempt_spent hph hspent, faultEntry_calm hcalm hkind hhold,
    currentStep_eq_pollStep hfits]
  cases k <;> rfl

end Sys2Proof.Machine
end

section
/-! SUPPORT. The reset of the host and the hazards (70_reset_and_hazards.md): a reset before a step and one before the
first call of a command (R260), and the number of vectors each transaction drives (R285). -/

namespace Sys2Proof.Machine

/-! ### A reset before a step, and before the first call of a command (R260) -/

theorem step_of_reset {s : State} {rest : List HostEvent} (hp : s.cfg.pinsAdmitted = true)
    (h : s.env.host = .reset :: rest) : step s = .next (State.resetOf s.cfg { s.env with host := rest }) := by
  simp only [step, stepBody, hp, h, if_true]
  rfl

/-- A write before which a reset comes leaves nothing of the state it is called in but parameters and environment. -/
theorem write_of_reset {s : State} {rest : List CallOutcome} (h : s.env.calls = .reset :: rest)
    (lvs : List LineVector) : write lvs s = .reset (State.resetOf s.cfg { s.env with calls := rest }) := by
  rw [write, transportCall, nextOutcome_of_calls h]
  rfl

theorem bind_write_of_reset {α : Type} {s : State} {rest : List CallOutcome} (h : s.env.calls = .reset :: rest)
    (lvs : List LineVector) (k : Unit → State → Res α) :
    (write lvs s).bind k = .reset (State.resetOf s.cfg { s.env with calls := rest }) := by
  rw [write_of_reset h, bind_reset]

/-- The stream is assembled before the reset comes, and is lost with it. -/
theorem writeTxn_of_reset {bytes : List Byte} {s : State} {rest : List CallOutcome} (h : s.env.calls = .reset :: rest)
    (hcfg : s.cfg.pinsAdmitted = true) (hfit : 16 * (bytes.length + 1) + 1 ≤ s.cfg.bufCap) :
    writeTxn bytes s = .reset (State.resetOf s.cfg { s.env with calls := rest }) := by
  rw [writeTxn_eq_write hcfg hfit]
  refine bind_write_of_reset ?_ _ _
  exact h

theorem readTxn_of_reset {s : State} {rest : List CallOutcome} (h : s.env.calls = .reset :: rest) (b : Byte) (n : Nat)
    (hcfg : s.cfg.pinsAdmitted = true) (hfit : 17 ≤ s.cfg.bufCap) :
    readTxn [b] n s = .reset (State.resetOf s.cfg { s.env with calls := rest }) := by
  rw [readTxn_eq_write b n hcfg hfit]
  refine bind_write_of_reset ?_ _ _
  exact h

/-- The bytes of a well-formed instruction and an idle pulse fit the buffer. -/
theorem encode_fits {i : Instr} {c : Config} (hwf : i.wf = true) (hcfg : c.wf = true) :
    16 * ((encode i).length + 1) + 1 ≤ c.bufCap := by
  have hlen := encode_length_le hwf
  have hcap := bufCap_of_wf hcfg
  omega

/-- Settles O11: the host's reset is a case of the step; each command that makes a call begins with a write, which the
reset abandons. -/
theorem resetFromAnyState : Obligations.ResetFromAnyState := by
  refine ⟨fun s rest hp hhost => step_of_reset hp hhost, ?_⟩
  intro s i rest hwf hsentinel hframe hcfg hcalls
  have hpins := pinsAdmitted_of_wf hcfg
  have hread : 17 ≤ s.cfg.bufCap := le_trans (by decide) (bufCap_of_wf hcfg)
  cases i with
  | identify => rw [exec, execIdentify, readTxn_of_reset hcalls 0x9F#8 4 hpins hread, bind_reset, finish_reset]
  | readStatus => rw [exec, execReadStatus, readTxn_of_reset hcalls 0xD7#8 1 hpins hread, bind_reset, finish_reset]
  | eraseS0a | eraseS0b | eraseSn _ | loadBuf _ | commit _ =>
    rw [exec_of_isWriteCommand rfl, writeTxn_of_reset hcalls hpins (encode_fits hwf hcfg), finish_reset]
  | gpioVector lv hold miso => rw [exec, execGpioVector, write_of_reset hcalls, finish_reset]
  | sentinel => exact absurd rfl hsentinel
  | byteFrame sel b => exact absurd rfl (hframe sel b)

/-! ### The vectors of a trace (R12, R285) -/

@[simp] theorem vectorCount_nil : vectorCount [] = 0 := rfl

@[simp] theorem vectorCount_append (x y : List Event) : vectorCount (x ++ y) = vectorCount x + vectorCount y := by
  simp only [vectorCount, pinTrace, List.flatMap_append, List.countP_append]

@[simp] theorem vectorCount_select_cons (sel : Selector) (t : List Event) :
    vectorCount (.select sel :: t) = vectorCount t + 1 := by
  have hcons : pinTrace (.select sel :: t) = .vector ⟨sel, false, false⟩ :: pinTrace t := rfl
  simp [vectorCount, hcons]

@[simp] theorem vectorCount_sample_cons (m : Bool) (t : List Event) :
    vectorCount (.sample m :: t) = vectorCount t := rfl

@[simp] theorem vectorCount_write_cons (lvs : List LineVector) (t : List Event) :
    vectorCount (.write lvs :: t) = lvs.length + vectorCount t := by
  have hcons : pinTrace (.write lvs :: t) = lvs.map .vector ++ pinTrace t := rfl
  simp [vectorCount, hcons, Function.comp_def]

/-- Two vectors a bit: the clock pulse (R123). -/
@[simp] theorem vectorCount_bitCycleEvents (sel : Selector) (ms : List Bool) :
    vectorCount (bitCycleEvents sel ms) = 2 * ms.length := by
  induction ms with
  | nil => rfl
  | cons m ms ih =>
    have hcons : bitCycleEvents sel (m :: ms)
        = .sample m :: .write [⟨sel, true, false⟩, ⟨sel, false, false⟩] :: bitCycleEvents sel ms := rfl
    rw [hcons, vectorCount_sample_cons, vectorCount_write_cons, ih]
    simp only [List.length_cons, List.length_nil]
    omega

/-- A read transaction of one byte with `k` bits read back (R162): 16 vectors of its frame, two selects, and the
clock pulses. -/
theorem vectorCount_append_readTransaction (old : List Event) (sel : Selector) (b : Byte) (k : Nat) (s : State) :
    vectorCount (old ++ [.write (frame sel b), .select sel] ++ bitCycleEvents sel (upcomingBits k s)
      ++ [.select .selIdle]) = vectorCount old + (18 + 2 * k) := by
  simp only [vectorCount_append, vectorCount_write_cons, vectorCount_select_cons, vectorCount_nil,
    vectorCount_bitCycleEvents, frame_length, upcomingBits_length]
  omega

theorem vectorCount_append_write (old : List Event) (lvs : List LineVector) :
    vectorCount (old ++ [.write lvs]) = vectorCount old + lvs.length := by
  rw [vectorCount_append, vectorCount_write_cons, vectorCount_nil, Nat.add_zero]

/-- A write command drives the frames of its bytes and one idle pulse (R161). -/
theorem exec_writeCommand_vectorCount {i : Instr} {s : State} (hi : isWriteCommand i = true)
    (hfit : 16 * ((encode i).length + 1) + 1 ≤ s.cfg.bufCap) (hcalm : s.calm) (hpins : s.cfg.pinsAdmitted = true) :
    ∃ t, exec i s = .next t
      ∧ vectorCount t.trace = vectorCount s.trace + 16 * ((encode i).length + 1) := by
  refine ⟨_, by rw [exec_of_isWriteCommand hi, writeTxn_calm hcalm hpins hfit, finish_ok], ?_⟩
  rw [vectorCount_append_write, List.length_append, frames_length, idleFrame, frame_length, Nat.mul_succ]

/-- Settles O35: the vectors in what each transaction adds to the trace; of an erase command only its length of four
bytes counts, so its address byte may be any. -/
theorem vectorCountsOfTheTransactions : Obligations.VectorCountsOfTheTransactions := by
  intro s hcalm hcfg
  have hpins := pinsAdmitted_of_wf hcfg
  have hcap := bufCap_of_wf hcfg
  have herase : ∀ i, isWriteCommand i = true → (encode i).length = 4 →
      ∃ t, exec i s = .next t ∧ vectorCount t.trace = vectorCount s.trace + 80 := by
    intro i hi hlen
    have h := exec_writeCommand_vectorCount hi (by rw [hlen]; omega) hcalm hpins
    rwa [hlen] at h
  refine ⟨?_, ?_, herase _ rfl rfl, herase _ rfl rfl, fun addr => herase _ rfl rfl, fun p record hlen => ?_⟩
  · obtain ⟨_, _, _, _, _, -, -, -, -, hexec⟩ := identifyCompletes s hcalm hcfg
    exact ⟨_, hexec, vectorCount_append_readTransaction s.trace s.cfg.flashSel 0x9F#8 32 s⟩
  · obtain ⟨_, _, -, -, -, -, -, hexec⟩ := readStatusCompletes s hcalm hcfg
    exact ⟨_, hexec, vectorCount_append_readTransaction s.trace s.cfg.flashSel 0xD7#8 8 s⟩
  · refine ⟨_, writePage_calm hcalm hpins hlen hcap, ?_⟩
    rw [vectorCount_append_write, pageBurst_length s.cfg p hlen]

end Sys2Proof.Machine
end
